-- ==== Sys2Proof/Word.lean ====
section
/-! DEFINITION. The words of the codec: one name per word width of the spec's spaces and formats (spec/20_memory.md R30, spec/30_encoding.md R50), and the shape of a sparse memory. -/

namespace Sys2Proof

/-- A byte of IBUF, OUT, LIT and SINK (R30). -/
abbrev Byte := BitVec 8
/-- A trie ROM word, NODE_W = 16 bits (R5, R18). -/
abbrev NodeWord := BitVec 16
/-- A `codes[i]` word, CODE_W = 32 bits (R5, R19). -/
abbrev CodeWord := BitVec 32
/-- A `lengths[i]` word, LENF_W = 8 bits (R5, R19). -/
abbrev LengthWord := BitVec 8

/-- A memory of words of type `α`: (index, word) pairs. Its canonical form is `Machine.Memory.wf`. For bytes it is
a list of `Host.Cell`. -/
abbrev Memory (α : Type) := List (Nat × α)

end Sys2Proof
end

