-- ==== Sys2Proof/Config.lean ====
section
/-! DEFINITION. What an instance fixes: the constants of spec/00_scope.md R4 and R5, one entry of the code table (spec/30_encoding.md R51), the two standard tables left open by R5 and the one free value of the model. -/

namespace Sys2Proof

/-- One code-table entry, format T (R51): the length word and the code word, read together (R30). -/
structure CodeEntry where
  len  : LengthWord
  code : CodeWord
  deriving DecidableEq, Repr

/-- What an index of the table nobody has supplied reads as. Both words are zero, so TB.VALIDATE refuses it (R71). -/
def CodeEntry.zero : CodeEntry := ⟨0, 0⟩

/-- A code table (TABLE, R5) and the code ROM's content (R19): entry `i` at index `i`. -/
abbrev CodeTable := Memory CodeEntry

namespace Config

/-- NSYM (R4): 256 byte values and the end-of-stream pseudo-symbol. -/
abbrev nsym : Nat := 257
/-- EOS (R4): the index and symbol number of the end-of-stream pseudo-symbol. -/
abbrev eos : Nat := 256
/-- MINLEN (R4). -/
abbrev minLen : Nat := 1
/-- MAXLEN (R4). -/
abbrev maxLen : Nat := 30
/-- WIN (R4): the width of the lookup window. -/
abbrev win : Nat := 8
/-- FANOUT (R4): nodes per level structure. -/
abbrev fanout : Nat := 256
/-- MAXDEPTH (R4): most levels on one root-to-leaf path. -/
abbrev maxDepth : Nat := 4
/-- The greatest legal MAX_LEVELS, 2^IDX_W, which is also its suggested value (R5). -/
abbrev maxLevelsLimit : Nat := 1024
/-- The suggested LEN_W (R5). -/
abbrev lenWSuggested : Nat := 32
/-- ACC_W (R5): the width of the encoder's bit accumulator. -/
abbrev accW : Nat := 37

/-- TABLE_REQ (R5): OPEN, its contents are in no source (spec/91_not_in_source.md N2). DESIGN CHOICE (log 16): an opaque constant,
used by no step. -/
opaque tableReq : CodeTable
/-- TABLE_RESP (R5): OPEN, as `tableReq`. -/
opaque tableResp : CodeTable

/-- The value the NLEVELS register holds after a failed build: 'any value' (spec/93_implementation_defined.md I11,
R17 "meaningful only when `tb_ok = 1`"). DESIGN CHOICE (log 8): a free value, applied to the counter `State.free`. -/
opaque freeNLevels : Nat → BitVec 11

end Config

end Sys2Proof
end

