-- ==== Sys2Proof/Machine/Memory.lean ====
section
/-! DEFINITION. Sparse memories in one canonical form: indexes strictly rising, no entry equal to what an unlisted index reads as (spec/20_memory.md R30: every space is word-indexed from 0). -/

namespace Sys2Proof.Machine

/-- The word at index `a`; an unlisted index reads as `d`. -/
def Memory.read {α : Type} (d : α) : Memory α → Nat → α
  | [], _ => d
  | (k, v) :: m, a => if k = a then v else Memory.read d m a

/-- Store `v` at index `a`, keeping the canonical form: storing `d` removes the entry. -/
def Memory.write {α : Type} [DecidableEq α] (d : α) : Memory α → Nat → α → Memory α
  | [], a, v => if v = d then [] else [(a, v)]
  | (k, w) :: m, a, v =>
    if a < k then (if v = d then (k, w) :: m else (a, v) :: (k, w) :: m)
    else if a = k then (if v = d then m else (a, v) :: m)
    else (k, w) :: Memory.write d m a v

/-- Every listed index is at least `lo`, the indexes rise strictly, and no listed word is `d`. -/
def Memory.wfFrom {α : Type} [DecidableEq α] (d : α) : Nat → Memory α → Bool
  | _, [] => true
  | lo, (k, v) :: m => decide (lo ≤ k) && decide (v ≠ d) && Memory.wfFrom d (k + 1) m

/-- The canonical form of a memory. -/
def Memory.wf {α : Type} [DecidableEq α] (d : α) (m : Memory α) : Bool := Memory.wfFrom d 0 m

/-- Every listed index is below `n`. -/
def Memory.below {α : Type} (n : Nat) (m : Memory α) : Bool := m.all fun c => decide (c.1 < n)

/-- The memory that holds a word sequence from index `a` on. -/
def Memory.ofListFrom {α : Type} [DecidableEq α] (d : α) : Nat → List α → Memory α
  | _, [] => []
  | a, v :: vs => if v = d then Memory.ofListFrom d (a + 1) vs else (a, v) :: Memory.ofListFrom d (a + 1) vs

/-- The memory that holds a word sequence from index 0 on. -/
def Memory.ofList {α : Type} [DecidableEq α] (d : α) (vs : List α) : Memory α := Memory.ofListFrom d 0 vs

/-- Make the `n` indexes from `base` on read as the unlisted value. -/
def Memory.clear {α : Type} (base n : Nat) (m : Memory α) : Memory α :=
  m.filter fun c => decide (c.1 < base) || decide (base + n ≤ c.1)

/-- Keep the indexes below `n` only. -/
def Memory.restrict {α : Type} (n : Nat) (m : Memory α) : Memory α := m.filter fun c => decide (c.1 < n)

/-- What an unlisted index of a host buffer reads as. DESIGN CHOICE (log 7): 0x00; the spec gives host memory no
contents. -/
def unlistedByte : Byte := 0#8

/-- What an unlisted index of the trie ROM reads as: the EMPTY word (R55 "A ROM that is all zeros is a trie with no codes";
R72 and R74 fill every new level with it). -/
def emptyWord : NodeWord := 0x0000#16

/-- IBUF[a] and LIT[a]. -/
def readByte (m : Memory Byte) (a : Nat) : Byte := Memory.read unlistedByte m a

/-- The trie ROM word at word index `l*256 + k` (R18). -/
def trieWord (trie : Memory NodeWord) (l k : Nat) : NodeWord := Memory.read emptyWord trie (l * Config.fanout + k)

/-- Write the trie ROM word at word index `l*256 + k` (R18). -/
def setTrieWord (trie : Memory NodeWord) (l k : Nat) (w : NodeWord) : Memory NodeWord :=
  Memory.write emptyWord trie (l * Config.fanout + k) w

/-- Entry `i` of a code table or of the code ROM (R19). -/
def entryAt (t : CodeTable) (i : Nat) : CodeEntry := Memory.read CodeEntry.zero t i

end Sys2Proof.Machine
end

