-- ==== Sys2Proof/Machine/Bits.lean ====
section
/-! DEFINITION. Bit notation of spec/00_scope.md R6 and bit strings in wire order (spec/20_memory.md R31, spec/30_encoding.md R53). -/

namespace Sys2Proof.Machine

/-- `ones(k)`, the k-bit value 2^k - 1 (R6). -/
def ones (k : Nat) : Nat := 2 ^ k - 1

/-- `ceil8(x) = (x + 7) div 8` (R6). -/
def ceil8 (x : Nat) : Nat := (x + 7) / 8

/-- A code's bits in wire order: `code[len-1]` first, `code[0]` last (R51, R53). -/
def codeBits (e : CodeEntry) : List Bool :=
  (List.range e.len.toNat).map fun j => e.code.getLsbD (e.len.toNat - 1 - j)

/-- The bits of a byte, most significant first (R31). -/
def byteBits (b : Byte) : List Bool := (List.range 8).map fun j => b.getLsbD (7 - j)

/-- The bitstream of a byte sequence (R6, R32). -/
def streamBits (bs : List Byte) : List Bool := bs.flatMap byteBits

/-- The concatenation of the codes of a literal's bytes (R53; "code(x)" of spec/43_properties.md). -/
def literalBits (t : CodeTable) (lit : List Byte) : List Bool :=
  lit.flatMap fun b => codeBits (entryAt t b.toNat)

end Sys2Proof.Machine
end

