-- ==== Sys2Proof/Syntax.lean ====
section
/-! DEFINITION. The syntax: one constructor of `Instr` per row of spec/opcode_table.json, the node kinds of spec/30_encoding.md R58 and the encoded words of R50. -/

namespace Sys2Proof

/-- The codec's encoded words, operations and steps (spec/opcode_table.json; formats of spec/30_encoding.md R50). -/
inductive Instr where
  -- format C (R59)
  | nop
  | decode
  | encode
  | size
  | getcode
  | reserved5
  | reserved6
  | reserved7
  -- format N (R55 to R58)
  | nEmpty
  | nLeafEos (bits : BitVec 4)
  | nLeaf (sym : BitVec 9) (bits : BitVec 4)
  | nBranch (next : BitVec 10)
  | nInvalid (word : NodeWord)
  -- tree builder (R71 to R74)
  | tbInsert (len : BitVec 5) (code : BitVec 30)
  | tbValidate
  | tbBuild
  -- format L (R112) and format S (R53, R98)
  | encSym (byte : Byte)
  | sCode (sym : BitVec 9)
  -- steps selected by a unit's state (R87 to R89, R93, R111, R113)
  | decStart
  | decStep
  | decEnd
  | decTail
  | encStart
  | encFlush
  deriving DecidableEq, Repr

/-- The values of `NodeDecode` (R58). -/
inductive Node where
  | empty
  | leaf (sym : BitVec 9) (bits : BitVec 4)
  | branch (next : BitVec 10)
  | invalid
  deriving DecidableEq, Repr

/-- An encoded word with its format (R50). Format T is written length word first, as one 40-bit pattern (R51). Format S is
a bit string in wire order (R53). No byte order of ROM words exists (spec/20_memory.md R32), so words are whole. -/
inductive CodeUnit where
  | t (w : BitVec 40)
  | s (bits : List Bool)
  | n (w : NodeWord)
  | c (op : BitVec 3)
  | l (b : Byte)
  deriving DecidableEq, Repr

/-- Why a word is refused by the decoder. -/
inductive DecodeError where
  /-- Format T, LENGTHS word 0 or above 30 (R61). -/
  | badLength
  /-- Format T, a code bit at or above the length (R61). -/
  | badCode
  /-- Format S, no code of the table begins the bit string. -/
  | noCode
  deriving DecidableEq, Repr

end Sys2Proof
end

