-- ==== Sys2Proof/Machine/State.lean ====
section
/-! DEFINITION. The state of one codec instance as plain data (spec/10_state.md R10 to R21), the host's moves, the reasons a step can stop, and the state right after reset. -/

namespace Sys2Proof.Machine

/-- The causes of DecodeFailure; their numbers in `dcause` are R64's (`Flags.decodeCauseCode`). Values 6 and 7 are never
written (R64), so they are no constructors. -/
inductive DecodeCause where
  | none
  | truncated
  | badPadding
  | eosDecoded
  | invalidCode
  | badNode
  deriving DecidableEq, Repr

/-- The causes of BuildFailure; their numbers in `tb_cause` are R64's (`Flags.buildCauseCode`). Values 5 to 7 are never
written (R64). -/
inductive BuildCause where
  | none
  | badLength
  | badCode
  | notPrefixFree
  | levelOverflow
  deriving DecidableEq, Repr

/-- The ROM images of an instance (R18, R19). -/
structure Rom where
  trie : Memory NodeWord
  code : CodeTable
  deriving DecidableEq, Repr

/-- An image under construction (R72): the trie, its current level count `n`, and the index of the entry to insert next. -/
structure TbWork where
  trie : Memory NodeWord
  n    : Nat
  next : Nat
  deriving DecidableEq, Repr

/-- The build record (R17), the ROM images, which exist only after a successful build (R17, R146), and the image under
construction. -/
structure Tb where
  ok      : Bool
  cause   : BuildCause
  index   : BitVec 9
  nlevels : BitVec 11
  rom     : Option Rom
  work    : Option TbWork
  deriving DecidableEq, Repr

/-- The decoder's working registers and status flags (R11, R13): dlen, dcur, dlvl, doutcnt, dbusy, ddone, dok, dcause. The
counts are naturals (R168 allows it: log 3). -/
structure Dec where
  len    : Nat
  cur    : Nat
  lvl    : Nat
  outcnt : Nat
  busy   : Bool
  done   : Bool
  ok     : Bool
  cause  : DecodeCause
  deriving DecidableEq, Repr

/-- The encoder's working registers and status flags (R14, R15): elen, eidx, eacc, enb, ecnt, ebusy, edone. -/
structure Enc where
  len  : Nat
  idx  : Nat
  acc  : Nat
  nb   : Nat
  cnt  : Nat
  busy : Bool
  done : Bool
  deriving DecidableEq, Repr

/-- The result registers of SIZE and GETCODE (R16). -/
structure Res where
  sbits  : Nat
  sbytes : Nat
  gcode  : CodeWord
  glen   : LengthWord
  deriving DecidableEq, Repr

/-- The registers the host writes (R21): CMD, ARG_LEN, ARG_BYTE. -/
structure Regs where
  cmd     : BitVec 3
  argLen  : Nat
  argByte : Byte
  deriving DecidableEq, Repr

/-- What the host can do (R20, R21, R42; spec/70_reset_and_hazards.md R162, R163, R166; log 5). -/
inductive HostMove where
  /-- Write CMD, which starts the operation (R21). -/
  | writeCmd (op : BitVec 3)
  | writeArgLen (n : Nat)
  | writeArgByte (b : Byte)
  /-- Put bytes into a buffer the host owns between calls (R20). -/
  | setIbuf (bytes : List Byte)
  | setLit (bytes : List Byte)
  | setOut (bytes : List Byte)
  | setSink (bytes : List Byte)
  /-- Copy an output of the codec to an input of it (spec/95_test_vectors.md program P1). -/
  | copySinkToIbuf
  | copyOutToLit
  /-- Supply the parameters TABLE and MAX_LEVELS (R5) before the build. -/
  | supplyTable (entries : List CodeEntry) (maxLevels : Nat)
  /-- Run TB.BUILD in one step (R163 (1)), or begin it with TB.VALIDATE and insert one entry a step. -/
  | build
  | validate
  /-- Apply reset (R160 to R162). -/
  | reset
  deriving DecidableEq, Repr

/-- Who moves in a step. -/
inductive Agent where
  | host
  | tb
  | dec
  | enc
  deriving DecidableEq, Repr

/-- The state. `table`, `maxLevels`, `lenW` are the instance's parameters (R5, R10), which no run-time step changes; `ibufLen` and `litLen` are the
known lengths of the two buffers the codec reads (R20 "byte regions with known length", R166 (d); log 25); `host`, `turns` and `free` are the model's
own (log 5, 6, 8). -/
structure State where
  table     : CodeTable
  maxLevels : Nat
  lenW      : Nat
  tb        : Tb
  dec       : Dec
  enc       : Enc
  res       : Res
  regs      : Regs
  ibuf      : Memory Byte
  lit       : Memory Byte
  ibufLen   : Nat
  litLen    : Nat
  out       : List Byte
  sink      : List Byte
  host      : List HostMove
  turns     : List Agent
  free      : Nat
  deriving DecidableEq, Repr

/-- The model's faults. -/
inductive Fault where
  /-- Raised by a node fetch (DEC.STEP, and the decoder's turn of `step`) when `dlvl` is at or past NLEVELS, a level that does
  not exist (R57). Safe: no state that satisfies `Safety.Inv` raises it (R36), and the model stops. -/
  | noSuchLevel
  deriving DecidableEq, Repr

/-- The model's refusals. -/
inductive Refusal where
  /-- An arm of `exec` without a meaning. Safe. No arm is left so. -/
  | notModelled (mnemonic : String)
  /-- Raised by every run-time operation and step, and by the host's run-time moves, while no codec exists: no build has
  succeeded (R146 "no run-time operation is defined"). Safe: the model stops. -/
  | noInstance
  /-- Raised by a command, or by S.CODE, for a unit in the wrong phase: DECODE when `dbusy`, ENCODE, SIZE and GETCODE when
  `ebusy` (spec/93_implementation_defined.md I9: treatment `refuse`). Safe: the model stops. -/
  | unitBusy
  /-- Raised by TB.BUILD, TB.VALIDATE and a new TABLE once a build has begun: TB runs once per instance (R70, R165). Safe. -/
  | buildRunsOnce
  /-- Raised by a step that has no encoding or whose word is not the one in turn, when the unit's state does not select it
  (R50 "selected by the unit's state"; R88 to R95, R112, R113). Safe: the model stops. -/
  | stepNotSelected
  /-- Raised by a build with MAX_LEVELS outside 1..1024 (R5, R74 "require MAX_LEVELS >= 1"). Safe. -/
  | badParameter
  deriving DecidableEq, Repr

/-- What one turn does: run an instruction, make a move of its own, or stop. -/
inductive Action where
  | run (i : Instr) (s : State)
  | quiet (s : State)
  | fault (f : Fault)
  | refuse (r : Refusal)
  deriving DecidableEq, Repr

/-- The decoder's registers after reset (R24). -/
def Dec.reset : Dec := ⟨0, 0, 0, 0, false, false, false, .none⟩
/-- The encoder's registers after reset (R24). -/
def Enc.reset : Enc := ⟨0, 0, 0, 0, 0, false, false⟩
/-- The result registers after reset (R24). -/
def Res.reset : Res := ⟨0, 0, 0#32, 0#8⟩
/-- The command registers after reset (R24: CMD = 0 is NOP). -/
def Regs.reset : Regs := ⟨0#3, 0, 0#8⟩
/-- TB before any build. DESIGN CHOICE (log 1): reset does not set the build record (R24), and before a build no image exists. -/
def Tb.unbuilt : Tb := ⟨false, .none, 0#9, 0#11, none, none⟩

/-- The machine right after reset (R24, R160), with no table supplied and no build run (log 1, 2), the host buffers empty
(log 7) and nothing pending (log 5, 6). -/
def State.reset : State where
  table := []
  maxLevels := Config.maxLevelsLimit
  lenW := Config.lenWSuggested
  tb := Tb.unbuilt
  dec := Dec.reset
  enc := Enc.reset
  res := Res.reset
  regs := Regs.reset
  ibuf := []
  lit := []
  ibufLen := 0
  litLen := 0
  out := []
  sink := []
  host := []
  turns := []
  free := 0

end Sys2Proof.Machine
end

