-- ==== Sys2Proof/Machine/Ops.lean ====
section
/-! DEFINITION. The shared operations over the state: reaching the ROM images, appends, starting and ending an operation, taking a DecodeFailure and a BuildFailure (spec/60_exceptions.md R141, R146), and reset (spec/10_state.md R24). -/

namespace Sys2Proof.Machine

open Host (Outcome)

/-- The outcome type of every meaning. -/
abbrev Result := Outcome State Fault Refusal

/-- Run `f` on the ROM images when a codec exists; with no image no run-time operation is defined (R17, R146). -/
def withRom (s : State) (f : Rom → Result) : Result :=
  match s.tb.rom with
  | some r => f r
  | none => .refused .noInstance

/-- NLEVELS as a number (R17). -/
def State.nlevels (s : State) : Nat := s.tb.nlevels.toNat

/-- `OUT.append(b)` (R7). -/
def State.appendOut (s : State) (b : Byte) : State := { s with out := s.out ++ [b] }

/-- `SINK.append` of the bytes of one step, oldest first (R7, R112). -/
def State.appendSink (s : State) (bs : List Byte) : State := { s with sink := s.sink ++ bs }

/-- Write CMD (R21). -/
def State.setCmd (s : State) (op : BitVec 3) : State := { s with regs := { s.regs with cmd := op } }

/-! ### The decoder's operation: start, success, failure -/

/-- DEC.START (R87): latch the length, go to the root at stream position 0, clear the flags. OUT is not touched. It is also all the
"return" from a DecodeFailure there is (R144 "There is no return-from-failure operation"). -/
def startDecode (s : State) : State :=
  { s with dec := { len := s.regs.argLen, cur := 0, lvl := 0, outcnt := 0,
                    busy := true, done := false, ok := false, cause := .none } }

/-- The operation ends done-ok (R89, R93): flags only. -/
def decodeSuccess (s : State) : State :=
  { s with dec := { s.dec with busy := false, done := true, ok := true } }

/-- `raise DecodeFailure(cause)`: THE taking of a DecodeFailure. It writes `dbusy`, `ddone`, `dok`, `dcause` and nothing else (R141): no
handler, no saved position, no mode. -/
def decodeFailure (cause : DecodeCause) (s : State) : State :=
  { s with dec := { s.dec with busy := false, done := true, ok := false, cause := cause } }

/-! ### The encoder's operation -/

/-- ENC.START (R111). SINK is not touched. -/
def startEncode (s : State) : State :=
  { s with enc := { len := s.regs.argLen, idx := 0, acc := 0, nb := 0, cnt := 0, busy := true, done := false } }

/-! ### The build -/

/-- TB has neither begun nor ended a build (R70: it runs once per instance). -/
def Tb.fresh (t : Tb) : Bool := !t.ok && decide (t.cause = .none) && t.rom.isNone && t.work.isNone

/-- `raise BuildFailure(cause, index)`: THE taking of a BuildFailure (R146). The record says so, no image exists, the work done is discarded, and
NLEVELS is meaningless: a free value (log 8). -/
def buildFailure (cause : BuildCause) (index : Nat) (s : State) : State :=
  { s with tb := { ok := false, cause := cause, index := BitVec.ofNat 9 index,
                   nlevels := Config.freeNLevels s.free, rom := none, work := none },
           free := s.free + 1 }

/-- The end of TB.BUILD (R74): the table is copied into the code ROM (R76) and the record says success. -/
def buildSuccess (w : TbWork) (s : State) : State :=
  { s with tb := { ok := true, cause := .none, index := 0#9, nlevels := BitVec.ofNat 11 w.n,
                   rom := some { trie := w.trie, code := Memory.restrict Config.nsym s.table }, work := none } }

/-! ### The host's buffers -/

/-- The host puts bytes into IBUF, whose known length is then theirs (R20). -/
def putIbuf (bytes : List Byte) (s : State) : State :=
  { s with ibuf := Memory.ofList unlistedByte bytes, ibufLen := bytes.length }

/-- The host puts bytes into LIT, whose known length is then theirs (R20). -/
def putLit (bytes : List Byte) (s : State) : State :=
  { s with lit := Memory.ofList unlistedByte bytes, litLen := bytes.length }

/-! ### Reset -/

/-- Reset (R24, R160 to R162): every run-time register to its reset value; the ROM images, the build record and the host
buffers are untouched, an operation in progress is abandoned. R147 and R163 place reset after a successful build and say nothing of one applied before
that: it does the same then, and a build under way (`tb.work`) goes on. DESIGN CHOICE (log 27). -/
def applyReset (s : State) : State :=
  { s with dec := Dec.reset, enc := Enc.reset, res := Res.reset, regs := Regs.reset }

end Sys2Proof.Machine
end

