-- ==== Sys2Proof/Machine/Flags.lean ====
section
/-! DEFINITION. The status flags as the host reads them: cause numbers (spec/30_encoding.md R64) and the register list (spec/10_state.md R21). No step reads a flag to decide what it computes (R13). -/

namespace Sys2Proof.Machine

/-- `dcause` (R64). -/
def decodeCauseCode : DecodeCause → Nat
  | .none => 0
  | .truncated => 1
  | .badPadding => 2
  | .eosDecoded => 3
  | .invalidCode => 4
  | .badNode => 5

/-- `tb_cause` (R64). -/
def buildCauseCode : BuildCause → Nat
  | .none => 0
  | .badLength => 1
  | .badCode => 2
  | .notPrefixFree => 3
  | .levelOverflow => 4

/-- DEC_STATUS: `dbusy[0]`, `ddone[1]`, `dok[2]`, `dcause[5:3]` (R21). -/
def Dec.status (d : Dec) : Nat :=
  d.busy.toNat + 2 * d.done.toNat + 4 * d.ok.toNat + 8 * decodeCauseCode d.cause

/-- ENC_STATUS: `ebusy[0]`, `edone[1]` (R21). -/
def Enc.status (e : Enc) : Nat := e.busy.toNat + 2 * e.done.toNat

/-- TB_STATUS: `tb_ok[0]`, `tb_cause[3:1]`, `tb_index[12:4]` (R21). -/
def Tb.status (t : Tb) : Nat := t.ok.toNat + 2 * buildCauseCode t.cause + 16 * t.index.toNat

/-- What the host reads from register `no` of R21; none for the registers it only writes (log 23) and for numbers that name no register.
Reading changes nothing (spec/20_memory.md R34). While no instance exists (R146) registers 3 to 10 read as what they hold, though the spec then gives
them no value. DESIGN CHOICE (log 26). -/
def State.readReg (s : State) (no : Nat) : Option Nat :=
  match no with
  | 3 => some s.dec.status
  | 4 => some s.dec.outcnt
  | 5 => some s.enc.status
  | 6 => some s.enc.cnt
  | 7 => some s.res.sbytes
  | 8 => some s.res.sbits
  | 9 => some s.res.gcode.toNat
  | 10 => some s.res.glen.toNat
  | 11 => some s.tb.status
  | 12 => some s.tb.nlevels.toNat
  | _ => none

/-- The walk has ended its operation, or never started one. -/
def State.decIdle (s : State) : Bool := !s.dec.busy

/-- No ENCODE is in progress. -/
def State.encIdle (s : State) : Bool := !s.enc.busy

end Sys2Proof.Machine
end

