-- ==== Sys2Proof/Machine/Operands.lean ====
section
/-! DEFINITION. Operand assembly: every value of spec/30_encoding.md R60 (decode key, insert key, fill range, the encoder's emitted and final byte, the decoder's emitted byte), `rem`, and the code-ROM fields of a literal byte. -/

namespace Sys2Proof.Machine

/-- `rem = 8*dlen - dcur`, the real bits remaining (R11). -/
def Dec.rem (d : Dec) : Nat := 8 * d.len - d.cur

/-- `StreamBit(p)`: bit `7 - (p mod 8)` of `IBUF[p div 8]`, and 1 at or past `8*len`, where no memory is read (R86). -/
def streamBit (ibuf : Memory Byte) (len p : Nat) : Bool :=
  if p < 8 * len then (readByte ibuf (p / 8)).getLsbD (7 - p % 8) else true

/-- The number whose bits, first position most significant, are the `k` stream positions from `cur` on. -/
def streamValue (ibuf : Memory Byte) (len cur : Nat) : Nat → Nat
  | 0 => 0
  | k + 1 => 2 * streamValue ibuf len cur k + (streamBit ibuf len (cur + k)).toNat

/-- `Window(cur)`, the 8-bit decode key: `StreamBit(cur)` is its bit 7 (R86). -/
def window (ibuf : Memory Byte) (len cur : Nat) : Nat := streamValue ibuf len cur Config.win

/-- The decode key of the walk position (R12). -/
def State.key (s : State) : Nat := window s.ibuf s.dec.len s.dec.cur

/-- The byte a leaf appends, `sym[7:0]` (R60, R90). -/
def leafByte (sym : BitVec 9) : Byte := sym.extractLsb' 0 8

/-- The insert key while `r > 8` bits of the code remain: `(code >> (r - 8)) & 0xFF` (R60, R72). -/
def insertKey (code r : Nat) : Nat := (code >>> (r - 8)) &&& 0xFF

/-- The base of the fill range with `r ≤ 8` bits left: `(code & ones(r)) << (8 - r)` (R60, R73). -/
def fillBase (code r : Nat) : Nat := (code &&& ones r) <<< (8 - r)

/-- The size of the fill range: `2^(8 - r)` (R60, R73). -/
def fillSize (r : Nat) : Nat := 2 ^ (8 - r)

/-- `c = CODES[s][29:0]` (R112). -/
def codeField (e : CodeEntry) : Nat := (e.code.extractLsb' 0 30).toNat

/-- The 8 oldest bits of an accumulator of `nb ≥ 8` bits: `(acc >> (nb - 8)) & 0xFF` (R60, R112). -/
def oldestByte (acc nb : Nat) : Byte := BitVec.ofNat 8 ((acc >>> (nb - 8)) &&& 0xFF)

/-- The final byte: the `nb` left-over bits followed by 1s, `((acc << (8 - nb)) | ones(8 - nb)) & 0xFF` (R60, R113). -/
def finalByte (acc nb : Nat) : Byte := BitVec.ofNat 8 (((acc <<< (8 - nb)) ||| ones (8 - nb)) &&& 0xFF)

/-- `Σ_{k < n} LENGTHS[LIT[k]]` (R116). -/
def sumLengths (code : CodeTable) (lit : Memory Byte) : Nat → Nat
  | 0 => 0
  | n + 1 => sumLengths code lit n + (entryAt code (readByte lit n).toNat).len.toNat

/-- The code of symbol `sym` stands, whole, in the real bits at the cursor (R53, R98). -/
def codeStands (t : CodeTable) (s : State) (sym : Nat) : Bool :=
  let e := entryAt t sym
  decide (1 ≤ e.len.toNat ∧ e.len.toNat ≤ s.dec.rem)
  && decide ((List.range e.len.toNat).map (fun j => streamBit s.ibuf s.dec.len (s.dec.cur + j)) = codeBits e)

end Sys2Proof.Machine
end

