-- ==== Sys2Proof/Machine/Command.lean ====
section
/-! DEFINITION. The operation codes of CMD: NOP, DECODE, ENCODE, SIZE, GETCODE and the reserved codes (spec/30_encoding.md R59, R61; spec/42_encoder.md R116, R118). -/

namespace Sys2Proof.Machine

open Host (Outcome)

/-- A command that starts no operation changes CMD and nothing else (R59, R61; log 17). -/
def idleCommand (op : BitVec 3) (s : State) : Result := withRom s fun _ => .next (s.setCmd op)

/-- A command for DEC: only when `dbusy = 0` (spec/70_reset_and_hazards.md R166 (a); I9). -/
def decoderCommand (op : BitVec 3) (s : State) (f : State → State) : Result :=
  withRom s fun _ => if s.decIdle then .next (f (s.setCmd op)) else .refused .unitBusy

/-- A command for ENC: only when `ebusy = 0` (R166 (a); I9). -/
def encoderCommand (op : BitVec 3) (s : State) (f : Rom → State → State) : Result :=
  withRom s fun r => if s.encIdle then .next (f r (s.setCmd op)) else .refused .unitBusy

/-- SIZE's results: `sbits` and `sbytes = (sbits + 7) div 8` (R116). -/
def sizeEffect (r : Rom) (s : State) : State :=
  let bits := sumLengths r.code s.lit s.regs.argLen
  { s with res := { s.res with sbits := bits, sbytes := ceil8 bits } }

/-- GETCODE's results: `CODES[b]` and `LENGTHS[b]` (R118). -/
def getcodeEffect (r : Rom) (s : State) : State :=
  let e := entryAt r.code s.regs.argByte.toNat
  { s with res := { s.res with gcode := e.code, glen := e.len } }

/-! ### The meanings -/

/-- NOP (R59). -/
def execNop (s : State) : Result := idleCommand 0#3 s

/-- DECODE (R85): writing the code starts the operation (R21), so the step writes CMD and does DEC.START; the DEC.STEPs are the
machine's following steps (log 4). -/
def execDecode (s : State) : Result := decoderCommand 1#3 s startDecode

/-- ENCODE (R110): writes CMD and does ENC.START; ENC.SYM and ENC.FLUSH are the machine's following steps (log 4). -/
def execEncode (s : State) : Result := encoderCommand 2#3 s fun _ t => startEncode t

/-- SIZE (R116), one step. -/
def execSize (s : State) : Result := encoderCommand 3#3 s sizeEffect

/-- GETCODE (R118), one step. -/
def execGetcode (s : State) : Result := encoderCommand 4#3 s getcodeEffect

/-- Reserved code 5 (R59, R61). -/
def execReserved5 (s : State) : Result := idleCommand 5#3 s

/-- Reserved code 6 (R59, R61). -/
def execReserved6 (s : State) : Result := idleCommand 6#3 s

/-- Reserved code 7 (R59, R61). -/
def execReserved7 (s : State) : Result := idleCommand 7#3 s

end Sys2Proof.Machine
end

