-- ==== Sys2Proof/WellFormed.lean ====
section
/-! DEFINITION. The checks on instructions (spec/30_encoding.md R51, R56 to R58; the "check" columns of spec/opcode_table.json) and on code tables (R52). -/

namespace Sys2Proof

/-- What a decoder needs beside the word: NLEVELS for format N (R58) and the table for format S (R53). -/
structure DecodeCtx where
  nlevels : Nat
  table   : CodeTable
  deriving DecidableEq, Repr

namespace WellFormed

/-- `bits`, the consumed-bit count of a leaf, is legal in 1..8 (R56). -/
def leafBits (bits : BitVec 4) : Bool := decide (1 ≤ bits.toNat ∧ bits.toNat ≤ 8)

/-- `next` is legal in 1..NLEVELS-1 (R57). -/
def branchTarget (nlevels : Nat) (next : BitVec 10) : Bool := decide (1 ≤ next.toNat ∧ next.toNat < nlevels)

/-- The legal words of format N, read off the match and mask table of R58: EMPTY, LEAF, BRANCH. -/
def nodeWord (nlevels : Nat) (w : NodeWord) : Bool :=
  decide (w = 0x0000#16)
  || (decide (w &&& 0xE000#16 = 0x4000#16) && decide (w.toNat / 16 % 512 ≤ 256) && decide (1 ≤ w.toNat % 16 ∧ w.toNat % 16 ≤ 8))
  || (decide (w &&& 0xFC00#16 = 0x8000#16) && decide (1 ≤ w.toNat % 1024 ∧ w.toNat % 1024 < nlevels))

/-- A code of length `len` is legal when `1 ≤ len ≤ 30` and `code < 2^len` (R51, R52). -/
def tableFields (len code : Nat) : Bool :=
  decide (Config.minLen ≤ len ∧ len ≤ Config.maxLen) && decide (code < 2 ^ len)

/-- An instruction is well formed in a decoding context. -/
def instr (ctx : DecodeCtx) : Instr → Bool
  | .nop | .decode | .encode | .size | .getcode | .reserved5 | .reserved6 | .reserved7 => true
  | .nEmpty => true
  | .nLeafEos bits => leafBits bits
  | .nLeaf sym bits => decide (sym.toNat < Config.eos) && leafBits bits
  | .nBranch next => branchTarget ctx.nlevels next
  | .nInvalid w => !nodeWord ctx.nlevels w
  | .tbInsert len code => tableFields len.toNat code.toNat
  | .tbValidate | .tbBuild => true
  | .encSym _ => true
  | .sCode sym => decide (sym.toNat < Config.nsym)
  | .decStart | .decStep | .decEnd | .decTail | .encStart | .encFlush => true

end WellFormed

end Sys2Proof
end

