-- ==== Sys2Proof/Decode.lean ====
section
/-! DEFINITION. The decoder, total on every word of every format, and after it the encoder (spec/30_encoding.md R50 to R61). -/

namespace Sys2Proof

open Sys2Proof.Machine

/-- `NodeDecode(w)`, total on all 65536 words, given NLEVELS (R58). -/
def nodeDecode (nlevels : Nat) (w : NodeWord) : Node :=
  if w = 0x0000#16 then .empty
  else if w.extractLsb' 14 2 = 0b01#2 ∧ w.extractLsb' 13 1 = 0#1 then
    let sym := w.extractLsb' 4 9
    let bits := w.extractLsb' 0 4
    if sym.toNat ≤ Config.eos ∧ 1 ≤ bits.toNat ∧ bits.toNat ≤ 8 then .leaf sym bits else .invalid
  else if w.extractLsb' 14 2 = 0b10#2 ∧ w.extractLsb' 10 4 = 0#4 then
    let next := w.extractLsb' 0 10
    if 1 ≤ next.toNat ∧ next.toNat < nlevels then .branch next else .invalid
  else .invalid

/-- Format N: the node word as the instruction it selects for DEC (R50, R54). A leaf of symbol 256 is N.LEAF.EOS (R58). -/
def decodeN (nlevels : Nat) (w : NodeWord) : Instr :=
  match nodeDecode nlevels w with
  | .empty => .nEmpty
  | .leaf sym bits => if sym.toNat = Config.eos then .nLeafEos bits else .nLeaf sym bits
  | .branch next => .nBranch next
  | .invalid => .nInvalid w

/-- Format C: the operation code written to CMD (R59). -/
def decodeC (op : BitVec 3) : Instr :=
  match op.toNat with
  | 0 => .nop
  | 1 => .decode
  | 2 => .encode
  | 3 => .size
  | 4 => .getcode
  | 5 => .reserved5
  | 6 => .reserved6
  | _ => .reserved7

/-- Format L: any byte is a literal byte (R50, R112). -/
def decodeL (b : Byte) : Instr := .encSym b

/-- Format T: the length word in bits 39..32, the code word in bits 31..0 (R51). Illegal entries are refused as R61 and R71
classify them, the length first. -/
def decodeT (w : BitVec 40) : Except DecodeError Instr :=
  let len := w.extractLsb' 32 8
  let code := w.extractLsb' 0 32
  if len.toNat < Config.minLen ∨ Config.maxLen < len.toNat then .error .badLength
  else if code.toNat >>> len.toNat ≠ 0 then .error .badCode
  else .ok (.tbInsert (len.setWidth 5) (code.setWidth 30))

/-- The 40-bit pattern of a table entry, length word first (R51). -/
def entryWord (e : CodeEntry) : BitVec 40 := e.len ++ e.code

/-- The first symbol of the table whose code begins the bit string (R53, R98). Under the prefix property there is at most
one. -/
def firstCode (t : CodeTable) (bits : List Bool) : Option Nat :=
  (List.range Config.nsym).find? fun i => decide (1 ≤ (entryAt t i).len.toNat) && (codeBits (entryAt t i)).isPrefixOf bits

/-- Format S: read one code from the front of a bit string and answer its symbol and the rest (R53). -/
def decodeS (t : CodeTable) (bits : List Bool) : Except DecodeError (Instr × List Bool) :=
  match firstCode t bits with
  | some i => .ok (.sCode (BitVec.ofNat 9 i), bits.drop (entryAt t i).len.toNat)
  | none => .error .noCode

/-- The decoder on one encoded word. A format S word is exactly one code. -/
def decode (ctx : DecodeCtx) : CodeUnit → Except DecodeError Instr
  | .t w => decodeT w
  | .s bits =>
    match decodeS ctx.table bits with
    | .ok (i, []) => .ok i
    | .ok (_, _ :: _) => .error .noCode
    | .error e => .error e
  | .n w => .ok (decodeN ctx.nlevels w)
  | .c op => .ok (decodeC op)
  | .l b => .ok (decodeL b)

/-- The word of an instruction, from the encoding column of the spec's tables (R51, R53, R55 to R57, R59); none for the
operations and steps that have no encoding. -/
def encode (ctx : DecodeCtx) : Instr → Option CodeUnit
  | .nop => some (.c 0b000#3)
  | .decode => some (.c 0b001#3)
  | .encode => some (.c 0b010#3)
  | .size => some (.c 0b011#3)
  | .getcode => some (.c 0b100#3)
  | .reserved5 => some (.c 0b101#3)
  | .reserved6 => some (.c 0b110#3)
  | .reserved7 => some (.c 0b111#3)
  | .nEmpty => some (.n 0x0000#16)
  | .nLeafEos bits => some (.n (0b010100000000#12 ++ bits))
  | .nLeaf sym bits => some (.n (0b010#3 ++ sym ++ bits))
  | .nBranch next => some (.n (0b100000#6 ++ next))
  | .nInvalid w => some (.n w)
  | .tbInsert len code => some (.t (0b000#3 ++ len ++ 0b00#2 ++ code))
  | .encSym b => some (.l b)
  | .sCode sym => some (.s (codeBits (entryAt ctx.table sym.toNat)))
  | .tbValidate | .tbBuild | .decStart | .decStep | .decEnd | .decTail | .encStart | .encFlush => none

/-- The Leaf word TB writes: `0x4000 | (sym << 4) | bits` (R56, R73). -/
def leafWord (sym bits : Nat) : NodeWord := BitVec.ofNat 16 (0x4000 ||| (sym <<< 4) ||| bits)

/-- The Branch word TB writes: `0x8000 | next` (R57, R72). -/
def branchWord (next : Nat) : NodeWord := BitVec.ofNat 16 (0x8000 ||| next)

/-- NLEVELS of the context in which a bare word of the opcode table is decoded (log 18): the greatest a format N word can
name, so that every legal `next` is a level. -/
def tableNLevels : Nat := Config.maxLevelsLimit

/-- The instruction the decoder reads from a word numbered as spec/opcode_table.json numbers it. One byte holds a format C
word when it is below 8 and a format L word otherwise, 16 bits are format N, 40 bits are format T (log 18). -/
def decodeTableWord (nbits w : Nat) : Option Instr :=
  if nbits = 0 then none
  else if 2 ^ nbits ≤ w then none
  else if nbits ≤ 8 then some (if w < 8 then decodeC (BitVec.ofNat 3 w) else decodeL (BitVec.ofNat 8 w))
  else if nbits = 16 then some (decodeN tableNLevels (BitVec.ofNat 16 w))
  else if nbits = 40 then (decodeT (BitVec.ofNat 40 w)).toOption
  else none

end Sys2Proof
end

