-- ==== Sys2Proof/Machine/Decoder.lean ====
section
/-! DEFINITION. The decoder's meanings: DEC.START, DEC.STEP, DEC.END, DEC.TAIL, the node words N.* and S.CODE (spec/41_decoder.md R85 to R99). -/

namespace Sys2Proof.Machine

open Host (Outcome)

/-! ### Effects, as state changes -/

/-- DEC.END (R89): no real bit is left. Done-ok at the root, else TRUNCATED. -/
def endEffect (s : State) : State :=
  if s.dec.lvl = 0 then decodeSuccess s else decodeFailure .truncated s

/-- DEC.TAIL (R93): 1 to 7 real bits are left and no code completes in them. Valid padding exactly at the root with key `0xFF`. -/
def tailEffect (s : State) : State :=
  if s.dec.lvl = 0 ∧ s.key = 0xFF then decodeSuccess s
  else if s.dec.lvl ≠ 0 then decodeFailure .truncated s
  else decodeFailure .badPadding s

/-- N.LEAF (R90): append the byte, advance by the leaf's bits, return to the root. -/
def leafEffect (sym : BitVec 9) (bits : BitVec 4) (s : State) : State :=
  { s.appendOut (leafByte sym) with
    dec := { s.dec with outcnt := s.dec.outcnt + 1, cur := s.dec.cur + bits.toNat, lvl := 0 } }

/-- N.BRANCH (R92): descend one level, advance by 8. -/
def branchEffect (next : BitVec 10) (s : State) : State :=
  { s with dec := { s.dec with lvl := next.toNat, cur := s.dec.cur + 8 } }

/-- Tests 2 to 7 of R88 on the node at the walk position, `rem` being at least 1. -/
def nodeEffect (node : Node) (s : State) : State :=
  match node with
  | .invalid => decodeFailure .badNode s
  | .leaf sym bits =>
    if bits.toNat ≤ s.dec.rem then
      if sym.toNat = Config.eos then decodeFailure .eosDecoded s else leafEffect sym bits s
    else tailEffect s
  | .branch next => if 8 ≤ s.dec.rem then branchEffect next s else tailEffect s
  | .empty => if s.dec.rem < 8 then tailEffect s else decodeFailure .invalidCode s

/-- The node the walk position selects, `NodeDecode(ROM[dlvl][Window(dcur)])` (R12, R88). -/
def nodeAt (r : Rom) (s : State) : Node := nodeDecode s.nlevels (trieWord r.trie s.dec.lvl s.key)

/-- Fetch at the walk position and go on with `f`; the level must exist (R36). -/
def withNode (r : Rom) (s : State) (f : Node → Result) : Result :=
  if s.dec.lvl < s.nlevels then f (nodeAt r s) else .fault .noSuchLevel

/-- Run a node word that was fetched: there is a real bit left, or DEC.END comes first (R88 test 1). -/
def runNode (node : Node) (s : State) : Result :=
  withRom s fun _ => if s.dec.rem = 0 then .refused .stepNotSelected else .next (nodeEffect node s)

/-! ### The meanings -/

/-- DEC.START (R87). -/
def execDecStart (s : State) : Result := withRom s fun _ => .next (startDecode s)

/-- DEC.STEP (R88). -/
def execDecStep (s : State) : Result :=
  withRom s fun r =>
    if s.dec.rem = 0 then .next (endEffect s)
    else withNode r s fun node => .next (nodeEffect node s)

/-- DEC.END (R89), selected when `rem = 0`. -/
def execDecEnd (s : State) : Result :=
  withRom s fun _ => if s.dec.rem = 0 then .next (endEffect s) else .refused .stepNotSelected

/-- Tests 2 to 5 of R88 fail on this node with these real bits. -/
def fallsToTail (node : Node) (rem : Nat) : Bool :=
  match node with
  | .invalid => false
  | .leaf _ bits => decide (rem < bits.toNat)
  | .branch _ => decide (rem < 8)
  | .empty => true

/-- DEC.TAIL (R93), selected when `1 ≤ rem ≤ 7` and tests 2 to 5 of R88 fail. -/
def execDecTail (s : State) : Result :=
  withRom s fun r =>
    if 1 ≤ s.dec.rem ∧ s.dec.rem ≤ 7 then
      withNode r s fun node =>
        if fallsToTail node s.dec.rem then .next (tailEffect s) else .refused .stepNotSelected
    else .refused .stepNotSelected

/-- N.EMPTY (R94; with `rem < 8` the step is DEC.TAIL). -/
def execNEmpty (s : State) : Result := runNode .empty s

/-- N.LEAF on EOS (R91; with `bits > rem` the step is DEC.TAIL). -/
def execNLeafEos (bits : BitVec 4) (s : State) : Result := runNode (.leaf (BitVec.ofNat 9 Config.eos) bits) s

/-- N.LEAF (R90; with `bits > rem` the step is DEC.TAIL). -/
def execNLeaf (sym : BitVec 9) (bits : BitVec 4) (s : State) : Result := runNode (.leaf sym bits) s

/-- N.BRANCH (R92; with `rem < 8` the step is DEC.TAIL). -/
def execNBranch (next : BitVec 10) (s : State) : Result := runNode (.branch next) s

/-- N.INVALID (R95): BAD_NODE whatever `rem` is and whatever the word holds. -/
def execNInvalid (_word : NodeWord) (s : State) : Result := runNode .invalid s

/-- DEC.STEP repeated, at most `k` times, until a step ends the operation (R85). -/
def decodeRun : Nat → State → Result
  | 0, s => .next s
  | k + 1, s =>
    match execDecStep s with
    | .next t => if t.dec.busy then decodeRun k t else .next t
    | .fault f => .fault f
    | .refused r => .refused r

/-- The steps a code of length `len` takes: `ceil(len/8)` (R99). -/
def stepsOfCode (len : Nat) : Nat := ceil8 len

/-- S.CODE: one code of the bitstream, standing whole at the cursor of a walk at the root (R53). It is realised by `ceil(L/8)`
steps of DEC (R99), which the meaning runs: the step rules remain the definition (R98; log 15). -/
def execSCode (sym : BitVec 9) (s : State) : Result :=
  withRom s fun _ =>
    if s.dec.busy = true ∧ s.dec.lvl = 0 ∧ sym.toNat < Config.nsym ∧ codeStands s.table s sym.toNat = true then
      decodeRun (stepsOfCode (entryAt s.table sym.toNat).len.toNat) s
    else .refused .stepNotSelected

/-- The whole operation DECODE on an instance with images `r`: DEC.START, then DEC.STEP until a step ends it. `8*len + 1` steps are
enough (R97). -/
def decodeWhole (s : State) : Result := decodeRun (8 * s.regs.argLen + 1) (startDecode s)

end Sys2Proof.Machine
end

