-- ==== Sys2Proof/Machine/Encoder.lean ====
section
/-! DEFINITION. The encoder's steps: ENC.START, ENC.SYM, ENC.FLUSH (spec/42_encoder.md R110 to R115). -/

namespace Sys2Proof.Machine

open Host (Outcome)

/-- What the drain of ENC.SYM leaves: the bytes emitted, oldest first, and the bits left. -/
structure Drained where
  bytes : List Byte
  acc   : Nat
  nb    : Nat
  deriving DecidableEq, Repr

/-- `while nb >= 8`: emit the 8 oldest bits and keep the rest (R112). The fuel is at least the number of whole bytes. -/
def drain : Nat → Nat → Nat → Drained
  | 0, acc, nb => ⟨[], acc, nb⟩
  | fuel + 1, acc, nb =>
    if 8 ≤ nb then
      let d := drain fuel (acc &&& ones (nb - 8)) (nb - 8)
      ⟨oldestByte acc nb :: d.bytes, d.acc, d.nb⟩
    else ⟨[], acc, nb⟩

/-- ENC.SYM's append and drain, for the table entry of the literal byte (R112). -/
def packCode (e : CodeEntry) (acc nb : Nat) : Drained :=
  let nb' := nb + e.len.toNat
  drain nb' ((acc <<< e.len.toNat) ||| codeField e) nb'

/-- ENC.SYM (R112): `ecnt` counts the bytes appended, `eidx` moves on. -/
def symEffect (r : Rom) (byte : Byte) (s : State) : State :=
  let d := packCode (entryAt r.code byte.toNat) s.enc.acc s.enc.nb
  { s.appendSink d.bytes with
    enc := { s.enc with acc := d.acc, nb := d.nb, cnt := s.enc.cnt + d.bytes.length, idx := s.enc.idx + 1 } }

/-- The padded last byte, if any bits are left (R113). -/
def flushBytes (e : Enc) : List Byte := if 0 < e.nb then [finalByte e.acc e.nb] else []

/-- ENC.FLUSH (R113). -/
def flushEffect (s : State) : State :=
  { s.appendSink (flushBytes s.enc) with
    enc := { s.enc with cnt := s.enc.cnt + (flushBytes s.enc).length, acc := 0, nb := 0, busy := false, done := true } }

/-! ### The meanings -/

/-- ENC.START (R111). -/
def execEncStart (s : State) : Result := withRom s fun _ => .next (startEncode s)

/-- ENC.SYM of the literal byte `byte` (R112), selected while `eidx < elen`. -/
def execEncSym (byte : Byte) (s : State) : Result :=
  withRom s fun r => if s.enc.idx < s.enc.len then .next (symEffect r byte s) else .refused .stepNotSelected

/-- ENC.FLUSH (R113), selected once no literal byte is left (R110). -/
def execEncFlush (s : State) : Result :=
  withRom s fun _ => if s.enc.idx < s.enc.len then .refused .stepNotSelected else .next (flushEffect s)

/-- ENC.SYM of the next literal bytes, `k` times (R110). -/
def symRun (r : Rom) : Nat → State → State
  | 0, s => s
  | k + 1, s => symRun r k (symEffect r (readByte s.lit s.enc.idx) s)

/-- The whole operation ENCODE: ENC.START, ENC.SYM once per literal byte, ENC.FLUSH (R110). -/
def encodeWhole (s : State) : Result :=
  withRom s fun r => .next (flushEffect (symRun r s.regs.argLen (startEncode s)))

end Sys2Proof.Machine
end

