-- ==== Sys2Proof/Machine/TreeBuilder.lean ====
section
/-! DEFINITION. The tree builder: TB.VALIDATE, TB.INSERT, TB.BUILD (spec/40_tree_builder.md R70 to R79). -/

namespace Sys2Proof.Machine

open Host (Outcome)

/-- The check of one entry's fields: BAD_LENGTH before BAD_CODE (R71). -/
def checkFields (len code : Nat) : Option BuildCause :=
  if len < Config.minLen ∨ Config.maxLen < len then some .badLength
  else if code >>> len ≠ 0 then some .badCode
  else none

/-- The check of table entry `i`. -/
def checkEntry (t : CodeTable) (i : Nat) : Option BuildCause :=
  checkFields (entryAt t i).len.toNat (entryAt t i).code.toNat

/-- TB.VALIDATE: the lowest failing entry of 0..256, with its cause (R71). -/
def validateTable (t : CodeTable) : Option (BuildCause × Nat) :=
  (List.range Config.nsym).findSome? fun i => (checkEntry t i).map fun c => (c, i)

/-- Where an insertion stands: the image, its level count, the level reached and the bits of the code left. -/
structure Descent where
  trie : Memory NodeWord
  n    : Nat
  lvl  : Nat
  r    : Nat
  deriving DecidableEq, Repr

/-- Allocate level `n`, all Empty, and link it from the slot (R72, R75). -/
def allocLevel (d : Descent) (key : Nat) : Descent :=
  { trie := setTrieWord (Memory.clear (d.n * Config.fanout) Config.fanout d.trie) d.lvl key (branchWord d.n),
    n := d.n + 1, lvl := d.n, r := d.r - 8 }

/-- The descent phase of TB.INSERT: while more than 8 bits remain (R72; level overflow R79). The fuel is at least the number of
windows of a code, MAXDEPTH. -/
def descend (maxLevels code : Nat) : Nat → Descent → Except BuildCause Descent
  | 0, d => .ok d
  | fuel + 1, d =>
    if d.r ≤ 8 then .ok d
    else
      let key := insertKey code d.r
      match nodeDecode d.n (trieWord d.trie d.lvl key) with
      | .branch next => descend maxLevels code fuel { d with lvl := next.toNat, r := d.r - 8 }
      | .empty => if maxLevels ≤ d.n then .error .levelOverflow else descend maxLevels code fuel (allocLevel d key)
      | .leaf _ _ => .error .notPrefixFree
      | .invalid => .error .notPrefixFree

/-- The fill phase of TB.INSERT: write the leaf word at `count` keys from `k` on, each of which must be Empty (R73). -/
def fill (leaf : NodeWord) (lvl : Nat) : Nat → Nat → Memory NodeWord → Except BuildCause (Memory NodeWord)
  | 0, _, trie => .ok trie
  | count + 1, k, trie =>
    if trieWord trie lvl k ≠ emptyWord then .error .notPrefixFree
    else fill leaf lvl count (k + 1) (setTrieWord trie lvl k leaf)

/-- TB.INSERT of a code of `len` bits for symbol `sym` into an image of `n` levels (R72, R73). -/
def insertCode (maxLevels code len sym : Nat) (trie : Memory NodeWord) (n : Nat) :
    Except BuildCause (Memory NodeWord × Nat) :=
  match descend maxLevels code Config.maxDepth ⟨trie, n, 0, len⟩ with
  | .error c => .error c
  | .ok d =>
    match fill (leafWord sym d.r) d.lvl (fillSize d.r) (fillBase code d.r) d.trie with
    | .error c => .error c
    | .ok trie' => .ok (trie', d.n)

/-- Insert the next entry into the image under construction; its fields are checked as TB.VALIDATE checks them (R71). -/
def insertNext (maxLevels len code : Nat) (w : TbWork) : Except BuildCause TbWork :=
  match checkFields len code with
  | some c => .error c
  | none =>
    match insertCode maxLevels code len w.next w.trie w.n with
    | .error c => .error c
    | .ok (trie, n) => .ok { trie := trie, n := n, next := w.next + 1 }

/-- The image under construction before the first insertion: the root, all Empty (R74). -/
def emptyWork : TbWork := { trie := [], n := 1, next := 0 }

/-- Insert the next `k` entries of the table in ascending index order (R74); a failure names its index. -/
def insertMany (maxLevels : Nat) (t : CodeTable) : Nat → TbWork → Except (BuildCause × Nat) TbWork
  | 0, w => .ok w
  | k + 1, w =>
    match insertNext maxLevels (entryAt t w.next).len.toNat (entryAt t w.next).code.toNat w with
    | .error c => .error (c, w.next)
    | .ok w' => insertMany maxLevels t k w'

/-- TB.BUILD as the static function it is (R70): an image, or a cause and an index. -/
def buildTable (maxLevels : Nat) (t : CodeTable) : Except (BuildCause × Nat) TbWork :=
  match validateTable t with
  | some e => .error e
  | none => insertMany maxLevels t Config.nsym emptyWork

/-- Record how a build ended (R17, R74, R146). -/
def recordBuild (s : State) : Except (BuildCause × Nat) TbWork → State
  | .ok w => buildSuccess w s
  | .error (c, i) => buildFailure c i s

/-- MAX_LEVELS is in its range (R5, R74). -/
def State.levelsInRange (s : State) : Bool := decide (1 ≤ s.maxLevels ∧ s.maxLevels ≤ Config.maxLevelsLimit)

/-! ### The meanings -/

/-- TB.VALIDATE (R71): on success no flag changes and the image under construction is the empty root (log 10). -/
def execTbValidate (s : State) : Result :=
  if s.tb.fresh then
    if s.levelsInRange then
      match validateTable s.table with
      | some (c, i) => .next (buildFailure c i s)
      | none => .next { s with tb := { s.tb with work := some emptyWork } }
    else .refused .badParameter
  else .refused .buildRunsOnce

/-- TB.INSERT of the entry `(len, code)`; the symbol is the index in turn (R72, R73; spec/opcode_table.json "the symbol is the
entry's index i, not a field"). -/
def execTbInsert (len : BitVec 5) (code : BitVec 30) (s : State) : Result :=
  match s.tb.work with
  | none => .refused .stepNotSelected
  | some w =>
    if w.next < Config.nsym then
      match insertNext s.maxLevels len.toNat code.toNat w with
      | .ok w' => .next { s with tb := { s.tb with work := some w' } }
      | .error c => .next (buildFailure c w.next s)
    else .refused .stepNotSelected

/-- TB.BUILD (R74): the whole build in one step, or, when it has been begun entry by entry, the rest of it (log 10). -/
def execTbBuild (s : State) : Result :=
  match s.tb.work with
  | some w => .next (recordBuild s (insertMany s.maxLevels s.table (Config.nsym - w.next) w))
  | none =>
    if s.tb.fresh then
      if s.levelsInRange then .next (recordBuild s (buildTable s.maxLevels s.table)) else .refused .badParameter
    else .refused .buildRunsOnce

end Sys2Proof.Machine
end

