-- ==== Sys2Proof/Machine/Dispatch.lean ====
section
/-! DEFINITION. The dispatch: one arm per constructor of Instr, each one call of its meaning. -/

namespace Sys2Proof.Machine

def exec (i : Instr) (s : State) : Host.Outcome State Fault Refusal :=
  match i with
  | .nop => Sys2Proof.Machine.execNop s
  | .decode => Sys2Proof.Machine.execDecode s
  | .encode => Sys2Proof.Machine.execEncode s
  | .size => Sys2Proof.Machine.execSize s
  | .getcode => Sys2Proof.Machine.execGetcode s
  | .reserved5 => Sys2Proof.Machine.execReserved5 s
  | .reserved6 => Sys2Proof.Machine.execReserved6 s
  | .reserved7 => Sys2Proof.Machine.execReserved7 s
  | .nEmpty => Sys2Proof.Machine.execNEmpty s
  | .nLeafEos bits => Sys2Proof.Machine.execNLeafEos bits s
  | .nLeaf sym bits => Sys2Proof.Machine.execNLeaf sym bits s
  | .nBranch next => Sys2Proof.Machine.execNBranch next s
  | .nInvalid word => Sys2Proof.Machine.execNInvalid word s
  | .tbInsert len code => Sys2Proof.Machine.execTbInsert len code s
  | .tbValidate => Sys2Proof.Machine.execTbValidate s
  | .tbBuild => Sys2Proof.Machine.execTbBuild s
  | .encSym byte => Sys2Proof.Machine.execEncSym byte s
  | .sCode sym => Sys2Proof.Machine.execSCode sym s
  | .decStart => Sys2Proof.Machine.execDecStart s
  | .decStep => Sys2Proof.Machine.execDecStep s
  | .decEnd => Sys2Proof.Machine.execDecEnd s
  | .decTail => Sys2Proof.Machine.execDecTail s
  | .encStart => Sys2Proof.Machine.execEncStart s
  | .encFlush => Sys2Proof.Machine.execEncFlush s

end Sys2Proof.Machine
end

