-- ==== Sys2Proof/Machine/Fetch.lean ====
section
/-! DEFINITION. What a turn does: the node word, literal byte, table entry or command in turn, and the host's own moves (spec/10_state.md R12, R20, R21; spec/70_reset_and_hazards.md R163 to R166). -/

namespace Sys2Proof.Machine

/-- ARG_LEN names no byte past the ones the host has put into the buffer (R166 (d); log 25). -/
def lengthIsTrue (s : State) (known : Nat) : Bool := decide (s.regs.argLen ≤ known)

/-- The host may make this move now: it commands only an idle unit (R166 (a), I9), over a buffer that holds the bytes the length operand names (R166
(d)), and touches a buffer only between calls (R42, I10, R166 (c)). R166 (b), to write the operand register before the command, is no test here: a
command reads what ARG_LEN or ARG_BYTE holds, the reset value 0 where nothing has written it since reset. DESIGN CHOICE (log 28). Reset it may apply at any time, also before the build, during it and after a failed
one, of which the spec says nothing. DESIGN CHOICE (log 27). -/
def hostMayMove (m : HostMove) (s : State) : Bool :=
  match m with
  | .writeCmd op =>
    match op.toNat with
    | 1 => s.decIdle && lengthIsTrue s s.ibufLen
    | 2 | 3 => s.encIdle && lengthIsTrue s s.litLen
    | 4 => s.encIdle
    | _ => true
  | .setIbuf _ | .setOut _ => s.decIdle
  | .setLit _ | .setSink _ => s.encIdle
  | .copySinkToIbuf | .copyOutToLit => s.decIdle && s.encIdle
  | .writeArgLen _ | .writeArgByte _ | .supplyTable _ _ | .build | .validate | .reset => true

/-- A host's register write, for which there must be a codec (R146). -/
def registerWrite (s t : State) : Action := if s.tb.rom.isSome then .quiet t else .refuse .noInstance

/-- ARG_LEN holds LEN_W bits (R21; log 19). -/
def argLenValue (lenW n : Nat) : Nat := n % 2 ^ lenW

/-- Make a host move. -/
def hostAction (m : HostMove) (s : State) : Action :=
  match m with
  | .writeCmd op => .run (decodeC op) s
  | .writeArgLen n => registerWrite s { s with regs := { s.regs with argLen := argLenValue s.lenW n } }
  | .writeArgByte b => registerWrite s { s with regs := { s.regs with argByte := b } }
  | .setIbuf bytes => .quiet (putIbuf bytes s)
  | .setLit bytes => .quiet (putLit bytes s)
  | .setOut bytes => .quiet { s with out := bytes }
  | .setSink bytes => .quiet { s with sink := bytes }
  | .copySinkToIbuf => .quiet (putIbuf s.sink s)
  | .copyOutToLit => .quiet (putLit s.out s)
  | .supplyTable entries maxLevels =>
    if s.tb.fresh then
      if 1 ≤ maxLevels ∧ maxLevels ≤ Config.maxLevelsLimit then
        .quiet { s with table := Memory.ofList CodeEntry.zero (entries.take Config.nsym), maxLevels := maxLevels }
      else .refuse .badParameter
    else .refuse .buildRunsOnce
  | .build => .run .tbBuild s
  | .validate => .run .tbValidate s
  | .reset => .quiet (applyReset s)

/-- The host's turn: its oldest pending move, or nothing while a duty forbids that move (log 5). -/
def hostTurn (s : State) : Action :=
  match s.host with
  | [] => .quiet s
  | m :: rest => if hostMayMove m s then hostAction m { s with host := rest } else .quiet s

/-- DEC's turn: DEC.END when no real bit is left, else the instruction of the node word at the walk position (R12, R88). -/
def decoderTurn (s : State) : Action :=
  if s.dec.busy then
    match s.tb.rom with
    | none => .refuse .noInstance
    | some r =>
      if s.dec.rem = 0 then .run .decEnd s
      else if s.dec.lvl < s.nlevels then .run (decodeN s.nlevels (trieWord r.trie s.dec.lvl s.key)) s
      else .fault .noSuchLevel
  else .quiet s

/-- ENC's turn: ENC.SYM of `LIT[eidx]` while a byte is left, then ENC.FLUSH (R110). -/
def encoderTurn (s : State) : Action :=
  if s.enc.busy then
    if s.enc.idx < s.enc.len then .run (decodeL (readByte s.lit s.enc.idx)) s else .run .encFlush s
  else .quiet s

/-- The BuildFailure an illegal table entry raises (R61). `decodeT` never answers `noCode`. -/
def causeOfError : DecodeError → BuildCause
  | .badLength => .badLength
  | .badCode => .badCode
  | .noCode => .badCode

/-- TB's turn, of a build begun with TB.VALIDATE: TB.INSERT of the next table entry, then the end of TB.BUILD (R74). -/
def builderTurn (s : State) : Action :=
  match s.tb.work with
  | none => .quiet s
  | some w =>
    if w.next < Config.nsym then
      match decodeT (entryWord (entryAt s.table w.next)) with
      | .ok i => .run i s
      | .error e => .quiet (buildFailure (causeOfError e) w.next s)
    else .run .tbBuild s

/-- One agent's turn. -/
def agentTurn (a : Agent) (s : State) : Action :=
  match a with
  | .host => hostTurn s
  | .tb => builderTurn s
  | .dec => decoderTurn s
  | .enc => encoderTurn s

/-- Who moves when no turn is scheduled: an operation in progress goes on before the host's next move (log 6). -/
def defaultAgent (s : State) : Agent :=
  if s.dec.busy then .dec
  else if s.enc.busy then .enc
  else if s.tb.work.isSome then .tb
  else .host

/-- The turn of this step: the first scheduled agent, which is taken off the schedule, or the default one. -/
def nextAction (s : State) : Action :=
  match s.turns with
  | [] => agentTurn (defaultAgent s) s
  | a :: rest => agentTurn a { s with turns := rest }

end Sys2Proof.Machine
end

