-- ==== Sys2Proof/Machine/Step.lean ====
section
/-! DEFINITION. One step of the machine, and the placing of one encoded word where the next step fetches it. -/

namespace Sys2Proof.Machine

/-- One step (spec/00_scope.md R8): the turn's instruction, run by `exec`, or a move that is no instruction. -/
def step (s : State) : Host.Outcome State Fault Refusal :=
  match nextAction s with
  | .run i t => exec i t
  | .quiet t => .next t
  | .fault f => .fault f
  | .refuse r => .refused r

/-- A codec exists, with `nlevels` levels: the images there are, or blank ones. -/
def State.withImages (s : State) (nlevels : Nat) : State :=
  { s with tb := { s.tb with ok := true, cause := .none, index := 0#9, work := none,
                             nlevels := BitVec.ofNat 11 nlevels,
                             rom := some (s.tb.rom.getD { trie := [], code := [] }) } }

/-- The images' level count, or one level where there is no image. -/
def State.levelsOrOne (s : State) : Nat := if s.tb.rom.isSome then s.nlevels else 1

/-- A format C word is what the host writes to CMD next; its unit is idle, and the buffers hold the bytes ARG_LEN names (R166 (d)). -/
def State.placeCommand (s : State) (op : BitVec 3) : State :=
  let t := s.withImages s.levelsOrOne
  { t with host := .writeCmd op :: t.host, turns := [.host],
           ibufLen := max t.ibufLen t.regs.argLen, litLen := max t.litLen t.regs.argLen,
           dec := { t.dec with busy := false }, enc := { t.enc with busy := false } }

/-- A format L word is the literal byte ENC takes next. -/
def State.placeLiteral (s : State) (b : Byte) : State :=
  let t := s.withImages s.levelsOrOne
  let len := max t.enc.len (t.enc.idx + 1)
  { t with lit := Memory.write unlistedByte t.lit t.enc.idx b, litLen := max t.litLen len, turns := [.enc],
           enc := { t.enc with busy := true, len := len } }

/-- A format N word is the node word at the walk position, a walk being in progress with real bits left; the image has as many levels as a
branch can name (log 18). -/
def State.placeNode (s : State) (w : NodeWord) : State :=
  let t := s.withImages tableNLevels
  let d := if t.dec.busy && decide (t.dec.rem ≠ 0) && decide (t.dec.lvl < tableNLevels) then t.dec
           else { (startDecode t).dec with len := max t.regs.argLen 1 }
  let u := { t with dec := d, ibufLen := max t.ibufLen d.len, turns := [.dec] }
  { u with tb := { u.tb with rom := u.tb.rom.map fun r => { r with trie := setTrieWord r.trie u.dec.lvl u.key w } } }

/-- A format T word is the table entry TB inserts next. -/
def State.placeEntry (s : State) (w : BitVec 40) : State :=
  let e : CodeEntry := ⟨w.extractLsb' 32 8, w.extractLsb' 0 32⟩
  let k : TbWork := match s.tb.work with
    | some k => if k.next < Config.nsym then k else emptyWork
    | none => emptyWork
  { s with table := Memory.write CodeEntry.zero s.table k.next e, turns := [.tb],
           tb := { Tb.unbuilt with work := some k } }

/-- `s` with the word stored where the next step fetches (log 18): the formats are told apart as `decodeTableWord` does. -/
def State.withFetchWord (s : State) (nbits w : Nat) : State :=
  if nbits ≤ 8 then (if w < 8 then s.placeCommand (BitVec.ofNat 3 w) else s.placeLiteral (BitVec.ofNat 8 w))
  else if nbits ≤ 16 then s.placeNode (BitVec.ofNat 16 w)
  else s.placeEntry (BitVec.ofNat 40 w)

end Sys2Proof.Machine
end

