-- ==== Sys2Proof/Safety.lean ====
section
/-! DEFINITION. What the statements are made of: legal tables, the image a build guarantees, the invariant of the machine, and DECODE and ENCODE stated over bit strings (spec/30_encoding.md R52; spec/40_tree_builder.md R81; spec/41_decoder.md R98; spec/70_reset_and_hazards.md R168). -/

namespace Sys2Proof.Safety

open Sys2Proof.Machine

/-! ### Tables (R52) -/

/-- An entry with `1 ≤ LENGTHS[i] ≤ 30` and `CODES[i] < 2^LENGTHS[i]` (R52). -/
def ValidEntry (e : CodeEntry) : Prop :=
  1 ≤ e.len.toNat ∧ e.len.toNat ≤ Config.maxLen ∧ e.code.toNat < 2 ^ e.len.toNat

/-- A valid table (R52). -/
def ValidTable (t : CodeTable) : Prop := ∀ i, i < Config.nsym → ValidEntry (entryAt t i)

/-- No code is a prefix of, or equal to, the code of another symbol (R52). -/
def PrefixFree (t : CodeTable) : Prop :=
  ∀ i j, i < Config.nsym → j < Config.nsym → i ≠ j → ¬ codeBits (entryAt t i) <+: codeBits (entryAt t j)

/-- A well formed table (R52). -/
def WellFormedTable (t : CodeTable) : Prop := ValidTable t ∧ PrefixFree t

/-- A round-trip safe table: well formed, and no code of length 7 or less consists only of 1 bits (R52). -/
def RoundTripSafe (t : CodeTable) : Prop :=
  WellFormedTable t ∧ ∀ i, i < Config.nsym → (entryAt t i).len.toNat ≤ 7 → false ∈ codeBits (entryAt t i)

/-! ### The image of a successful build -/

/-- The instance is built: its build record and ROM images are what TB.BUILD leaves for its table (R74), and MAX_LEVELS is in its
range (R5). -/
def Built (s : State) : Prop :=
  s.levelsInRange = true ∧
  match buildTable s.maxLevels s.table with
  | .ok w => s.tb = (buildSuccess w s).tb
  | .error _ => False

/-- The node of level `l` at key `k`. -/
def nodeIn (r : Rom) (nlevels l k : Nat) : Node := nodeDecode nlevels (trieWord r.trie l k)

/-- Key `j` of a code of length `len`, `(c >> (L - 8(j+1))) & 0xFF` (R81 item 3). -/
def pathKey (c len j : Nat) : Nat := (c >>> (len - 8 * (j + 1))) &&& 0xFF

/-- Level `l_j` on the path of a code: `l_0 = 0`, `l_{j+1} = next(ROM[l_j][k_j])` (R81 item 3). -/
def pathLevel (trie : Memory NodeWord) (c len : Nat) : Nat → Nat
  | 0 => 0
  | j + 1 => ((trieWord trie (pathLevel trie c len j) (pathKey c len j)).extractLsb' 0 10).toNat

/-- The branches before the leaf, `d = (L - 1) div 8` (R81 item 3). -/
def pathDepth (len : Nat) : Nat := (len - 1) / 8

/-- The bits a code has within its last level, `r = L - 8d` (R81 item 3). -/
def pathRest (len : Nat) : Nat := len - 8 * pathDepth len

/-- R81 item 1: every word of every level is EMPTY, a legal LEAF or a legal BRANCH. -/
def WordsLegal (r : Rom) (nlevels : Nat) : Prop :=
  ∀ l k, l < nlevels → k < Config.fanout → nodeIn r nlevels l k ≠ .invalid

/-- R81 item 2: every level but the root is the target of exactly one BRANCH word, none targets the root, and at most 3
branches lie on a path. -/
def TreeShape (r : Rom) (nlevels : Nat) : Prop :=
  (∀ n, 1 ≤ n → n < nlevels →
    ∃ l k, l < nlevels ∧ k < Config.fanout ∧ nodeIn r nlevels l k = .branch (BitVec.ofNat 10 n)) ∧
  (∀ l k l' k' n, l < nlevels → l' < nlevels → k < Config.fanout → k' < Config.fanout →
    nodeIn r nlevels l k = .branch n → nodeIn r nlevels l' k' = .branch n → l = l' ∧ k = k') ∧
  (∀ l k n, nodeIn r nlevels l k = .branch n → n ≠ 0#10) ∧
  (∀ k0 k1 k2 k3 n1 n2 n3 n4, k0 < Config.fanout → k1 < Config.fanout → k2 < Config.fanout → k3 < Config.fanout →
    nodeIn r nlevels 0 k0 = .branch n1 → nodeIn r nlevels n1.toNat k1 = .branch n2 →
    nodeIn r nlevels n2.toNat k2 = .branch n3 → nodeIn r nlevels n3.toNat k3 ≠ .branch n4)

/-- R81 item 3, full fill, for one symbol. -/
def FullFill (r : Rom) (nlevels : Nat) (e : CodeEntry) (sym : Nat) : Prop :=
  let c := e.code.toNat
  let len := e.len.toNat
  (∀ j, j < pathDepth len →
    nodeIn r nlevels (pathLevel r.trie c len j) (pathKey c len j)
      = .branch (BitVec.ofNat 10 (pathLevel r.trie c len (j + 1)))) ∧
  (∀ k, k < Config.fanout → k >>> (8 - pathRest len) = c &&& ones (pathRest len) →
    nodeIn r nlevels (pathLevel r.trie c len (pathDepth len)) k
      = .leaf (BitVec.ofNat 9 sym) (BitVec.ofNat 4 (pathRest len)))

/-- R81 item 4: a slot that is not `0x0000` is one item 3 names for some symbol. -/
def NothingElse (r : Rom) (nlevels : Nat) (t : CodeTable) : Prop :=
  ∀ l k, l < nlevels → k < Config.fanout → trieWord r.trie l k ≠ emptyWord →
    ∃ sym, sym < Config.nsym ∧
      let c := (entryAt t sym).code.toNat
      let len := (entryAt t sym).len.toNat
      (∃ j, j < pathDepth len ∧ l = pathLevel r.trie c len j ∧ k = pathKey c len j) ∨
      (l = pathLevel r.trie c len (pathDepth len) ∧ k >>> (8 - pathRest len) = c &&& ones (pathRest len))

/-- The well-formed image, `WF_ROM` (R81 items 1 to 4). -/
def WfRom (r : Rom) (nlevels : Nat) (t : CodeTable) : Prop :=
  WordsLegal r nlevels ∧ TreeShape r nlevels ∧
  (∀ sym, sym < Config.nsym → FullFill r nlevels (entryAt t sym) sym) ∧ NothingElse r nlevels t

/-- Where levels other than the root stand: the proper prefixes of whole windows of the codes, each of which is the path to one level (R72,
R81 item 3). -/
def levelPrefixes (t : CodeTable) : Finset (List Bool) :=
  (Finset.range Config.nsym).biUnion fun i =>
    (Finset.range (pathDepth (entryAt t i).len.toNat)).image fun j => (codeBits (entryAt t i)).take (8 * (j + 1))

/-- The levels a prefix code needs, the root among them (R81 item 5). -/
def levelsNeeded (t : CodeTable) : Nat := 1 + (levelPrefixes t).card

/-! ### The invariant -/

/-- The decoder's ranges (R11, R168): the level exists, the cursor is inside the buffer, every byte appended took a bit. -/
def DecInv (s : State) : Prop :=
  s.dec.len < 2 ^ s.lenW ∧ s.dec.cur ≤ 8 * s.dec.len ∧ s.dec.outcnt ≤ s.dec.cur ∧
  (if s.tb.rom.isSome then s.dec.lvl < s.nlevels else s.dec.lvl = 0 ∧ s.dec.busy = false)

/-- The encoder's ranges (R14, R168): between steps at most 7 bits are held and the count is bounded by the code bits. -/
def EncInv (s : State) : Prop :=
  s.enc.len < 2 ^ s.lenW ∧ s.enc.idx ≤ s.enc.len ∧ s.enc.nb ≤ 7 ∧ s.enc.acc < 2 ^ s.enc.nb ∧
  8 * s.enc.cnt + s.enc.nb ≤ 30 * s.enc.idx + (if s.enc.busy then 0 else 7) ∧
  (s.tb.rom = none → s.enc.busy = false)

/-- The result and operand registers hold their widths (R16, R21, R168). -/
def RegInv (s : State) : Prop :=
  s.regs.argLen < 2 ^ s.lenW ∧ s.res.sbits ≤ 30 * (2 ^ s.lenW - 1) ∧ s.res.sbytes = ceil8 s.res.sbits

/-- Every memory is in canonical form. -/
def MemInv (s : State) : Prop :=
  Memory.wf unlistedByte s.ibuf = true ∧ Memory.wf unlistedByte s.lit = true ∧
  Memory.wf CodeEntry.zero s.table = true ∧
  (∀ r, s.tb.rom = some r → Memory.wf emptyWord r.trie = true ∧ Memory.wf CodeEntry.zero r.code = true) ∧
  (∀ w, s.tb.work = some w → Memory.wf emptyWord w.trie = true)

/-- The build: MAX_LEVELS is in range; an image there is was built from the table; a build under way has validated the table and inserted
its first entries; the record says success exactly when an image exists (R17). -/
def TbInv (s : State) : Prop :=
  s.levelsInRange = true ∧ s.tb.ok = s.tb.rom.isSome ∧
  (s.tb.rom.isSome = true → Built s) ∧
  (∀ w, s.tb.work = some w → s.tb.rom = none ∧ s.tb.cause = .none ∧ validateTable s.table = none ∧
    w.next ≤ Config.nsym ∧ insertMany s.maxLevels s.table w.next emptyWork = .ok w)

/-- The host gave each operation in progress the bytes its length names (R166 (d)), so no step reads a byte the host did not put there. -/
def BufInv (s : State) : Prop :=
  (s.dec.busy = true → s.dec.len ≤ s.ibufLen) ∧ (s.enc.busy = true → s.enc.len ≤ s.litLen)

/-- The status flags agree with each other (R13, R15): no result while an operation is in progress, and cause NONE beside `dok`. -/
def FlagInv (s : State) : Prop :=
  (s.dec.busy = true → s.dec.done = false ∧ s.dec.ok = false ∧ s.dec.cause = .none) ∧
  (s.dec.ok = true → s.dec.cause = .none) ∧
  (s.enc.busy = true → s.enc.done = false)

/-- The invariant of the machine. -/
def Inv (s : State) : Prop := TbInv s ∧ MemInv s ∧ DecInv s ∧ EncInv s ∧ RegInv s ∧ BufInv s ∧ FlagInv s

/-! ### TB.INSERT, said without its loops (R72, R73, R79) -/

/-- The next window of a code of which `r > 8` bits are left. -/
def windowOf (code r : Nat) : Nat := code / 2 ^ (r - 8) % 256

/-- Key `k` begins with the last `r ≤ 8` bits of the code, left-justified in the window (R73). -/
def inFillRange (code r k : Nat) : Prop := k < Config.fanout ∧ k / 2 ^ (8 - r) = code % 2 ^ r

/-- No code in the image collides with the code of which `r` bits are left at level `lvl` of an image of `n` levels: the path meets no leaf, and the
slots to fill are EMPTY. An EMPTY slot on the path starts new levels, which are EMPTY. The first argument bounds the windows. -/
def FreePath (trie : Memory NodeWord) (n code : Nat) : Nat → Nat → Nat → Prop
  | 0, lvl, r => ∀ k, inFillRange code r k → trieWord trie lvl k = emptyWord
  | fuel + 1, lvl, r =>
    if r ≤ 8 then ∀ k, inFillRange code r k → trieWord trie lvl k = emptyWord
    else
      match nodeDecode n (trieWord trie lvl (windowOf code r)) with
      | .empty => True
      | .branch next => FreePath trie n code fuel next.toNat (r - 8)
      | .leaf _ _ => False
      | .invalid => False

/-- How many levels the insertion must allocate. -/
def newLevels (trie : Memory NodeWord) (n code : Nat) : Nat → Nat → Nat → Nat
  | 0, _, _ => 0
  | fuel + 1, lvl, r =>
    if r ≤ 8 then 0
    else
      match nodeDecode n (trieWord trie lvl (windowOf code r)) with
      | .empty => pathDepth r
      | .branch next => newLevels trie n code fuel next.toNat (r - 8)
      | .leaf _ _ => 0
      | .invalid => 0

/-! ### DECODE and ENCODE over bit strings -/

/-- The bytes of a buffer. -/
def bufferBytes (m : Memory Byte) (len : Nat) : List Byte := (List.range len).map (readByte m)

/-- The tail of a bit string in which no code completes, `j` whole windows of it looked at (R98): none is done-ok. -/
def judgeTail (t : CodeTable) (bits : List Bool) : Nat → Nat → Option DecodeCause
  | 0, _ => some .truncated
  | fuel + 1, j =>
    let r := bits.length - 8 * j
    if r = 0 then (if j = 0 then none else some .truncated)
    else if r < 8 then
      (if j = 0 ∧ bits.all id = true then none else if 0 < j then some .truncated else some .badPadding)
    else if (List.range Config.nsym).any (fun i =>
        decide (8 * (j + 1) < (entryAt t i).len.toNat) && (bits.take (8 * (j + 1))).isPrefixOf (codeBits (entryAt t i))) then
      judgeTail t bits fuel (j + 1)
    else some .invalidCode

/-- `DecodeSpec` (R98): the greedy parse of a bit string into codes. The first component is the failure cause, none for
done-ok. The fuel is at least the number of bits. -/
def decodeSpec (t : CodeTable) : Nat → List Bool → List Byte → Option DecodeCause × List Byte
  | 0, bits, out => (judgeTail t bits (bits.length + 1) 0, out)
  | fuel + 1, bits, out =>
    match firstCode t bits with
    | some i =>
      if i = Config.eos then (some .eosDecoded, out)
      else decodeSpec t fuel (bits.drop (entryAt t i).len.toNat) (out ++ [BitVec.ofNat 8 i])
    | none => (judgeTail t bits (bits.length + 1) 0, out)

/-- The result of a DECODE that has ended, in the form of `decodeSpec`. -/
def decodeOutcome (d : Dec) : Option DecodeCause := if d.ok then none else some d.cause

/-- DEC.TAIL's judgement of the real bits left (R93): done-ok at the root with the window `0xFF`, TRUNCATED below the root, else BAD_PADDING. -/
def judgedAsTail (s : State) : State :=
  let padding := window s.ibuf s.dec.len s.dec.cur = 0xFF
  { s with dec := { s.dec with
      busy := false
      done := true
      ok := decide (s.dec.lvl = 0 ∧ padding)
      cause := if s.dec.lvl ≠ 0 then .truncated else if padding then s.dec.cause else .badPadding } }

/-- The bits held in an accumulator of `nb` bits, oldest first (R14). -/
def accBits (acc nb : Nat) : List Bool := (List.range nb).map fun j => acc.testBit (nb - 1 - j)

end Sys2Proof.Safety
end

