-- ==== Sys2Proof/Certificates/Slice0/Obligations.lean ====
section
/-! DEFINITION. The statements about the model, for the provers. Each docstring names the rules of spec/ it formalises. -/

open Sys2Proof Sys2Proof.Machine Sys2Proof.Safety

/-! ### Reset and the idle machine -/

/-- R24, R160 to R162: reset puts every run-time register at its value and leaves the ROM images, the build record, the parameters and the host
buffers alone, also in the middle of an operation; the reset state has those values, its command is NOP. The spec places reset after a successful
build: that it does the same before one, during a build, which goes on, and after a failed one is the model's choice (log 27). -/
def Obligations.ResetSetsRunTimeRegistersOnly : Prop :=
  (∀ (s : State) (ms : List HostMove) (ts : List Agent), s.turns = .host :: ts → s.host = .reset :: ms →
    step s = .next { s with
      turns := ts, host := ms,
      dec := { len := 0, cur := 0, lvl := 0, outcnt := 0, busy := false, done := false, ok := false, cause := .none },
      enc := { len := 0, idx := 0, acc := 0, nb := 0, cnt := 0, busy := false, done := false },
      res := { sbits := 0, sbytes := 0, gcode := 0#32, glen := 0#8 },
      regs := { cmd := 0#3, argLen := 0, argByte := 0#8 } }) ∧
  State.reset.dec = { len := 0, cur := 0, lvl := 0, outcnt := 0, busy := false, done := false, ok := false, cause := .none } ∧
  State.reset.enc = { len := 0, idx := 0, acc := 0, nb := 0, cnt := 0, busy := false, done := false } ∧
  State.reset.res = { sbits := 0, sbytes := 0, gcode := 0#32, glen := 0#8 } ∧
  State.reset.regs = { cmd := 0#3, argLen := 0, argByte := 0#8 } ∧
  decodeC State.reset.regs.cmd = .nop

/-- R153, R160: with no operation in progress, no build under way and no host move pending, a step changes nothing. -/
def Obligations.IdleMachineHoldsItsState : Prop :=
  ∀ s : State, s.turns = [] → s.host = [] → s.dec.busy = false → s.enc.busy = false → s.tb.work = none → step s = .next s

/-! ### A step runs the decoded instruction -/

/-- R12, R50, R61, R74, R110: the word in turn, decoded, is what a step runs: the command the host writes, over a buffer that holds the bytes ARG_LEN names
(log 25), whether or not the operand register was written since reset (log 28), the node word at the walk position (DEC.END when no real bit is left), the literal byte (ENC.FLUSH when none is left), the table entry. After
entry 256 TB's step is TB.BUILD, and an entry that does not decode raises BuildFailure; the build that goes entry by entry is the model's choice
(log 10, 22). The agent's turn is either scheduled or the default (log 6), and the schedule is the model's. -/
def Obligations.StepRunsTheDecodedWord : Prop :=
  (∀ (s : State) (op : BitVec 3) (ms : List HostMove),
    s.turns = [] → s.dec.busy = false → s.enc.busy = false → s.tb.work = none → s.host = .writeCmd op :: ms →
    (op = 1#3 → s.regs.argLen ≤ s.ibufLen) → (op = 2#3 ∨ op = 3#3 → s.regs.argLen ≤ s.litLen) →
    step s = exec (decodeC op) { s with host := ms }) ∧
  (∀ (s : State) (r : Rom), s.turns = [] → s.dec.busy = true → s.tb.rom = some r → s.dec.rem ≠ 0 → s.dec.lvl < s.nlevels →
    step s = exec (decodeN s.nlevels (trieWord r.trie s.dec.lvl (window s.ibuf s.dec.len s.dec.cur))) s) ∧
  (∀ (s : State) (r : Rom), s.turns = [] → s.dec.busy = true → s.tb.rom = some r → s.dec.rem = 0 → step s = exec .decEnd s) ∧
  (∀ s : State, s.turns = [] → s.dec.busy = false → s.enc.busy = true → s.enc.idx < s.enc.len →
    step s = exec (decodeL (readByte s.lit s.enc.idx)) s) ∧
  (∀ s : State, s.turns = [] → s.dec.busy = false → s.enc.busy = true → s.enc.idx = s.enc.len → step s = exec .encFlush s) ∧
  (∀ (s : State) (w : TbWork) (i : Instr),
    s.turns = [] → s.dec.busy = false → s.enc.busy = false → s.tb.work = some w → w.next < 257 →
    decodeT (entryWord (entryAt s.table w.next)) = .ok i → step s = exec i s) ∧
  (∀ (s : State) (w : TbWork) (e : DecodeError),
    s.turns = [] → s.dec.busy = false → s.enc.busy = false → s.tb.work = some w → w.next < 257 →
    decodeT (entryWord (entryAt s.table w.next)) = .error e →
    ∃ c nl, ((e = .badLength ∧ c = .badLength) ∨ (e = .badCode ∧ c = .badCode)) ∧
      step s = .next { s with
        tb := { ok := false, cause := c, index := BitVec.ofNat 9 w.next, nlevels := nl, rom := none, work := none },
        free := s.free + 1 }) ∧
  (∀ (s : State) (w : TbWork), s.turns = [] → s.dec.busy = false → s.enc.busy = false → s.tb.work = some w → w.next = 257 →
    step s = exec .tbBuild s) ∧
  (∀ (s : State) (a : Agent) (ts : List Agent), s.turns = a :: ts →
    nextAction s = agentTurn a { s with turns := ts })

/-! ### The host's moves -/

/-- R5, R20, R21, R163: what the host's moves other than a command and reset do. An operand register holds what was last written (ARG_LEN modulo
`2^LEN_W`: log 19), a buffer holds the bytes put there, the table is the one supplied, and the build is run; nothing else changes. The model's
choices are the list of moves (log 5) and the refusals without an instance, of a second table and of MAX_LEVELS out of range (log 12, 11, 2). -/
def Obligations.HostMovesWriteWhatTheyName : Prop :=
  ∀ (s : State) (m : HostMove) (ms : List HostMove) (ts : List Agent), s.turns = .host :: ts → s.host = m :: ms →
    let u : State := { s with turns := ts, host := ms }
    (∀ (r : Rom) (n : Nat), s.tb.rom = some r → m = .writeArgLen n →
      step s = .next { u with regs := { s.regs with argLen := n % 2 ^ s.lenW } }) ∧
    (∀ (r : Rom) (b : Byte), s.tb.rom = some r → m = .writeArgByte b →
      step s = .next { u with regs := { s.regs with argByte := b } }) ∧
    (∀ (n : Nat) (b : Byte), s.tb.rom = none → m = .writeArgLen n ∨ m = .writeArgByte b → step s = .refused .noInstance) ∧
    (∀ bytes : List Byte, s.dec.busy = false →
      (m = .setIbuf bytes ∨ m = .copySinkToIbuf ∧ s.enc.busy = false ∧ bytes = s.sink) →
      ∃ mem, step s = .next { u with ibuf := mem, ibufLen := bytes.length } ∧
        bufferBytes mem bytes.length = bytes ∧ Memory.wf unlistedByte mem = true) ∧
    (∀ bytes : List Byte, s.enc.busy = false →
      (m = .setLit bytes ∨ m = .copyOutToLit ∧ s.dec.busy = false ∧ bytes = s.out) →
      ∃ mem, step s = .next { u with lit := mem, litLen := bytes.length } ∧
        bufferBytes mem bytes.length = bytes ∧ Memory.wf unlistedByte mem = true) ∧
    (∀ bytes : List Byte, s.dec.busy = false → m = .setOut bytes → step s = .next { u with out := bytes }) ∧
    (∀ bytes : List Byte, s.enc.busy = false → m = .setSink bytes → step s = .next { u with sink := bytes }) ∧
    (∀ (entries : List CodeEntry) (maxLevels : Nat), m = .supplyTable entries maxLevels →
      (s.tb.fresh = true → 1 ≤ maxLevels → maxLevels ≤ 1024 →
        ∃ table, step s = .next { u with table := table, maxLevels := maxLevels } ∧
          (∀ i, i < 257 → entryAt table i = entries.getD i ⟨0#8, 0#32⟩) ∧ Memory.wf CodeEntry.zero table = true) ∧
      (s.tb.fresh = true → maxLevels = 0 ∨ 1024 < maxLevels → step s = .refused .badParameter) ∧
      (s.tb.fresh = false → step s = .refused .buildRunsOnce)) ∧
    (m = .build → step s = exec .tbBuild u) ∧ (m = .validate → step s = exec .tbValidate u)

/-- R42, R166 (a), (c), (d): a move that a duty of the host forbids is not taken: a command to a busy unit, a command whose length operand names bytes the
buffer does not hold, a touch of a buffer during its call. That it waits at the head of the moves is the model's choice (log 5, 25). -/
def Obligations.ForbiddenHostMovesWait : Prop :=
  ∀ (s : State) (m : HostMove) (ms : List HostMove) (ts : List Agent), s.turns = .host :: ts → s.host = m :: ms →
    (m = .writeCmd 1#3 ∧ (s.dec.busy = true ∨ s.ibufLen < s.regs.argLen) ∨
     (m = .writeCmd 2#3 ∨ m = .writeCmd 3#3) ∧ (s.enc.busy = true ∨ s.litLen < s.regs.argLen) ∨
     m = .writeCmd 4#3 ∧ s.enc.busy = true ∨
     (∃ bytes, m = .setIbuf bytes ∨ m = .setOut bytes) ∧ s.dec.busy = true ∨
     (∃ bytes, m = .setLit bytes ∨ m = .setSink bytes) ∧ s.enc.busy = true ∨
     (m = .copySinkToIbuf ∨ m = .copyOutToLit) ∧ (s.dec.busy = true ∨ s.enc.busy = true)) →
    step s = .next { s with turns := ts }

/-! ### Commands (format C) -/

/-- R59: the operation codes, and NOP and the reserved codes change CMD and nothing else (that a reserved code changes CMD: log 17). -/
def Obligations.NopAndReservedCodesChangeOnlyCmd : Prop :=
  (decodeC 0#3 = .nop ∧ decodeC 1#3 = .decode ∧ decodeC 2#3 = .encode ∧ decodeC 3#3 = .size ∧ decodeC 4#3 = .getcode ∧
    decodeC 5#3 = .reserved5 ∧ decodeC 6#3 = .reserved6 ∧ decodeC 7#3 = .reserved7) ∧
  ∀ (s : State) (r : Rom), s.tb.rom = some r →
    exec .nop s = .next { s with regs := { s.regs with cmd := 0#3 } } ∧
    exec .reserved5 s = .next { s with regs := { s.regs with cmd := 5#3 } } ∧
    exec .reserved6 s = .next { s with regs := { s.regs with cmd := 6#3 } } ∧
    exec .reserved7 s = .next { s with regs := { s.regs with cmd := 7#3 } }

/-- R87: what DEC.START writes; everything else, OUT included, is unchanged. -/
def Obligations.DecStartWritesTheWalkRegisters : Prop :=
  ∀ (s : State) (r : Rom), s.tb.rom = some r →
    exec .decStart s = .next { s with dec := { len := s.regs.argLen, cur := 0, lvl := 0, outcnt := 0,
                                               busy := true, done := false, ok := false, cause := .none } }

/-- R85, R166: DECODE on an idle decoder writes CMD and starts the walk in the same step (log 4: the model's reading); the
encoder, idle or not, is untouched. -/
def Obligations.DecodeCommandStartsTheWalk : Prop :=
  ∀ (s : State) (r : Rom), s.tb.rom = some r → s.dec.busy = false →
    exec .decode s = .next { s with regs := { s.regs with cmd := 1#3 },
                                    dec := { len := s.regs.argLen, cur := 0, lvl := 0, outcnt := 0,
                                             busy := true, done := false, ok := false, cause := .none } }

/-- R111: what ENC.START writes; everything else, SINK included, is unchanged. -/
def Obligations.EncStartWritesTheEncoderRegisters : Prop :=
  ∀ (s : State) (r : Rom), s.tb.rom = some r →
    exec .encStart s = .next { s with enc := { len := s.regs.argLen, idx := 0, acc := 0, nb := 0, cnt := 0,
                                               busy := true, done := false } }

/-- R110, R166: ENCODE on an idle encoder writes CMD and starts the packing in the same step (log 4). -/
def Obligations.EncodeCommandStartsTheEncoder : Prop :=
  ∀ (s : State) (r : Rom), s.tb.rom = some r → s.enc.busy = false →
    exec .encode s = .next { s with regs := { s.regs with cmd := 2#3 },
                                    enc := { len := s.regs.argLen, idx := 0, acc := 0, nb := 0, cnt := 0,
                                             busy := true, done := false } }

/-- R116: SIZE, operation code 3, sums the code lengths of the literal, rounds up to bytes, and writes the two result registers and CMD
only; on a valid code ROM both results are in their range, and both are 0 for the empty literal. That CMD is written in the same step is the model's reading of R21 (log 4). -/
def Obligations.SizeSumsTheCodeLengths : Prop :=
  decodeC 3#3 = .size ∧
  ∀ (s : State) (r : Rom), s.tb.rom = some r → s.enc.busy = false →
    let bits := ((bufferBytes s.lit s.regs.argLen).map fun b => (entryAt r.code b.toNat).len.toNat).sum
    exec .size s = .next { s with regs := { s.regs with cmd := 3#3 },
                                  res := { s.res with sbits := bits, sbytes := (bits + 7) / 8 } } ∧
    (s.regs.argLen = 0 → bits = 0) ∧
    (ValidTable r.code → s.regs.argLen < 2 ^ s.lenW →
      bits ≤ 30 * (2 ^ s.lenW - 1) ∧ bits < 2 ^ (s.lenW + 5) ∧ (bits + 7) / 8 < 2 ^ (s.lenW + 2))

/-- R118: GETCODE, operation code 4, writes the pair the instance was built from, and CMD, and nothing else. That CMD is written in
the same step is the model's reading of R21 (log 4). -/
def Obligations.GetcodeAnswersTheSuppliedPair : Prop :=
  decodeC 4#3 = .getcode ∧
  ∀ s : State, Built s → s.enc.busy = false →
    exec .getcode s = .next { s with regs := { s.regs with cmd := 4#3 },
                                     res := { s.res with gcode := (entryAt s.table s.regs.argByte.toNat).code,
                                                         glen := (entryAt s.table s.regs.argByte.toNat).len } }

/-- R146, I9: where commands do not run: with no image every command is refused, and a busy unit is given no command (the
names are the model's choice, log 12 and 21). -/
def Obligations.CommandsNeedAnInstanceAndAnIdleUnit : Prop :=
  (∀ s : State, s.tb.rom = none → ∀ op : BitVec 3, exec (decodeC op) s = .refused .noInstance) ∧
  (∀ (s : State) (r : Rom), s.tb.rom = some r → s.dec.busy = true → exec .decode s = .refused .unitBusy) ∧
  (∀ (s : State) (r : Rom), s.tb.rom = some r → s.enc.busy = true →
    exec .encode s = .refused .unitBusy ∧ exec .size s = .refused .unitBusy ∧ exec .getcode s = .refused .unitBusy)

/-- Where a step does not run (the model's stops, log 11 to 14): a run-time step with no image is `noInstance` (R146); a step the unit's state does not
select is `stepNotSelected` (R50, R88, R93, R112, R113), DEC.TAIL where a code completes or the word is Invalid and TB.INSERT after entry 256 among them; a node
fetch from a level that does not exist is the fault `noSuchLevel` (R57). -/
def Obligations.StepsOutOfTurnStopByName : Prop :=
  (∀ s : State, s.tb.rom = none →
    exec .decStart s = .refused .noInstance ∧ exec .decStep s = .refused .noInstance ∧ exec .decEnd s = .refused .noInstance ∧
    exec .decTail s = .refused .noInstance ∧ exec .nEmpty s = .refused .noInstance ∧ exec .encStart s = .refused .noInstance ∧
    exec .encFlush s = .refused .noInstance ∧ (∀ b, exec (.encSym b) s = .refused .noInstance) ∧
    (∀ sym, exec (.sCode sym) s = .refused .noInstance) ∧ (∀ bits, exec (.nLeafEos bits) s = .refused .noInstance) ∧
    (∀ sym bits, exec (.nLeaf sym bits) s = .refused .noInstance) ∧ (∀ next, exec (.nBranch next) s = .refused .noInstance) ∧
    (∀ w, exec (.nInvalid w) s = .refused .noInstance)) ∧
  (∀ (s : State) (r : Rom), s.tb.rom = some r → s.dec.rem = 0 →
    exec .decTail s = .refused .stepNotSelected ∧ exec .nEmpty s = .refused .stepNotSelected ∧
    (∀ bits, exec (.nLeafEos bits) s = .refused .stepNotSelected) ∧
    (∀ sym bits, exec (.nLeaf sym bits) s = .refused .stepNotSelected) ∧
    (∀ next, exec (.nBranch next) s = .refused .stepNotSelected) ∧
    (∀ w, exec (.nInvalid w) s = .refused .stepNotSelected)) ∧
  (∀ (s : State) (r : Rom), s.tb.rom = some r → s.dec.rem ≠ 0 → exec .decEnd s = .refused .stepNotSelected) ∧
  (∀ (s : State) (r : Rom), s.tb.rom = some r → 8 ≤ s.dec.rem → exec .decTail s = .refused .stepNotSelected) ∧
  (∀ (s : State) (r : Rom), s.tb.rom = some r → s.dec.rem ≠ 0 → s.nlevels ≤ s.dec.lvl →
    exec .decStep s = .fault .noSuchLevel) ∧
  (∀ (s : State) (r : Rom), s.tb.rom = some r → 1 ≤ s.dec.rem → s.dec.rem ≤ 7 →
    (s.nlevels ≤ s.dec.lvl → exec .decTail s = .fault .noSuchLevel) ∧
    (s.dec.lvl < s.nlevels → nodeAt r s = .invalid → exec .decTail s = .refused .stepNotSelected) ∧
    (∀ sym bits, s.dec.lvl < s.nlevels → nodeAt r s = .leaf sym bits → bits.toNat ≤ s.dec.rem →
      exec .decTail s = .refused .stepNotSelected)) ∧
  (∀ (s : State) (r : Rom) (b : Byte), s.tb.rom = some r → s.enc.len ≤ s.enc.idx →
    exec (.encSym b) s = .refused .stepNotSelected) ∧
  (∀ (s : State) (r : Rom), s.tb.rom = some r → s.enc.idx < s.enc.len → exec .encFlush s = .refused .stepNotSelected) ∧
  (∀ (s : State) (r : Rom) (sym : BitVec 9), s.tb.rom = some r →
    (s.dec.busy = false ∨ s.dec.lvl ≠ 0 ∨ codeStands s.table s sym.toNat = false) →
    exec (.sCode sym) s = .refused .stepNotSelected) ∧
  (∀ (s : State) (len : BitVec 5) (code : BitVec 30), s.tb.work = none → exec (.tbInsert len code) s = .refused .stepNotSelected) ∧
  (∀ (s : State) (w : TbWork) (len : BitVec 5) (code : BitVec 30), s.tb.work = some w → 257 ≤ w.next →
    exec (.tbInsert len code) s = .refused .stepNotSelected)

/-! ### The decoder -/

/-- R89: DEC.END with no real bit left: done-ok at the root, TRUNCATED below it; only flags change. -/
def Obligations.DecEndJudgesTheLevel : Prop :=
  ∀ (s : State) (r : Rom), s.tb.rom = some r → s.dec.rem = 0 →
    (s.dec.lvl = 0 →
      exec .decEnd s = .next { s with dec := { s.dec with busy := false, done := true, ok := true } }) ∧
    (s.dec.lvl ≠ 0 →
      exec .decEnd s = .next { s with dec := { s.dec with busy := false, done := true, ok := false, cause := .truncated } })

/-- R90: a leaf whose bits are all real appends its byte, advances by its bits and returns to the root. -/
def Obligations.LeafEmitsItsByte : Prop :=
  ∀ (s : State) (r : Rom) (sym : BitVec 9) (bits : BitVec 4),
    s.tb.rom = some r → sym.toNat ≤ 255 → 1 ≤ bits.toNat → bits.toNat ≤ s.dec.rem →
    exec (.nLeaf sym bits) s = .next { s with
      out := s.out ++ [BitVec.ofNat 8 sym.toNat],
      dec := { s.dec with outcnt := s.dec.outcnt + 1, cur := s.dec.cur + bits.toNat, lvl := 0 } }

/-- R91: the EOS leaf whose bits are all real ends the operation with EOS_DECODED and changes only flags; with fewer real bits it does not
raise this, but is judged as a tail. -/
def Obligations.EosLeafFails : Prop :=
  ∀ (s : State) (r : Rom) (bits : BitVec 4), s.tb.rom = some r →
    (1 ≤ bits.toNat → bits.toNat ≤ s.dec.rem →
      exec (.nLeafEos bits) s = .next { s with
        dec := { s.dec with busy := false, done := true, ok := false, cause := .eosDecoded } }) ∧
    (1 ≤ s.dec.rem → s.dec.rem ≤ 7 → s.dec.rem < bits.toNat → exec (.nLeafEos bits) s = .next (judgedAsTail s))

/-- R92: a branch with 8 real bits left is taken; with 1 to 7 it is not: it is judged as a tail. -/
def Obligations.BranchDescends : Prop :=
  ∀ (s : State) (r : Rom) (next : BitVec 10), s.tb.rom = some r →
    (8 ≤ s.dec.rem →
      exec (.nBranch next) s = .next { s with dec := { s.dec with lvl := next.toNat, cur := s.dec.cur + 8 } }) ∧
    (1 ≤ s.dec.rem → s.dec.rem ≤ 7 → exec (.nBranch next) s = .next (judgedAsTail s))

/-- R94: an EMPTY node with 8 real bits left ends the operation with INVALID_CODE; with 1 to 7 it goes to DEC.TAIL. -/
def Obligations.EmptyNodeFails : Prop :=
  ∀ (s : State) (r : Rom), s.tb.rom = some r →
    (8 ≤ s.dec.rem →
      exec .nEmpty s = .next { s with
        dec := { s.dec with busy := false, done := true, ok := false, cause := .invalidCode } }) ∧
    (1 ≤ s.dec.rem → s.dec.rem ≤ 7 → exec .nEmpty s = .next (judgedAsTail s))

/-- R95: an Invalid word ends the operation with BAD_NODE whatever `rem` is, once a node is fetched at all. -/
def Obligations.InvalidNodeFails : Prop :=
  ∀ (s : State) (r : Rom) (w : NodeWord), s.tb.rom = some r → 1 ≤ s.dec.rem →
    exec (.nInvalid w) s = .next { s with
      dec := { s.dec with busy := false, done := true, ok := false, cause := .badNode } }

/-- R93: DEC.TAIL. With 1 to 7 real bits left, none of them completing a code, the operation ends done-ok exactly when the walk is at the root and every
remaining real bit is 1; below the root it is TRUNCATED, else BAD_PADDING. Only flags change. -/
def Obligations.TailJudgesThePadding : Prop :=
  ∀ (s : State) (r : Rom), s.tb.rom = some r → 1 ≤ s.dec.rem → s.dec.rem ≤ 7 → s.dec.lvl < s.nlevels →
    nodeAt r s ≠ .invalid → (∀ sym bits, nodeAt r s = .leaf sym bits → s.dec.rem < bits.toNat) →
    (s.dec.lvl = 0 → (∀ p, s.dec.cur ≤ p → p < 8 * s.dec.len → streamBit s.ibuf s.dec.len p = true) →
      exec .decTail s = .next { s with dec := { s.dec with busy := false, done := true, ok := true } }) ∧
    (s.dec.lvl ≠ 0 →
      exec .decTail s = .next { s with dec := { s.dec with busy := false, done := true, ok := false, cause := .truncated } }) ∧
    (∀ p, s.dec.lvl = 0 → s.dec.cur ≤ p → p < 8 * s.dec.len → streamBit s.ibuf s.dec.len p = false →
      exec .decTail s = .next { s with dec := { s.dec with busy := false, done := true, ok := false, cause := .badPadding } })

/-- R88, R93 (and the notes of the opcode table): a leaf, branch or EMPTY word whose bits are not all real is judged as a tail, whichever word it is. -/
def Obligations.WordsWithoutRealBitsAreTails : Prop :=
  ∀ (s : State) (r : Rom), s.tb.rom = some r → 1 ≤ s.dec.rem → s.dec.rem ≤ 7 →
    (∀ next, exec (.nBranch next) s = .next (judgedAsTail s)) ∧ exec .nEmpty s = .next (judgedAsTail s) ∧
    (∀ sym bits, s.dec.rem < bits.toNat → exec (.nLeaf sym bits) s = .next (judgedAsTail s)) ∧
    (∀ bits, s.dec.rem < bits.toNat → exec (.nLeafEos bits) s = .next (judgedAsTail s)) ∧
    judgedAsTail s = { s with dec := { s.dec with busy := false, done := true,
                                                  ok := decide (s.dec.lvl = 0 ∧ window s.ibuf s.dec.len s.dec.cur = 255),
                                                  cause := if s.dec.lvl ≠ 0 then .truncated
                                                           else if window s.ibuf s.dec.len s.dec.cur = 255 then s.dec.cause
                                                           else .badPadding } }

/-- R88: DEC.STEP takes the outcome of the first test that holds, in the rule's order. -/
def Obligations.DecStepTakesTheFirstTest : Prop :=
  ∀ (s : State) (r : Rom), s.tb.rom = some r → s.dec.lvl < s.nlevels →
    let rem := 8 * s.dec.len - s.dec.cur
    let word := trieWord r.trie s.dec.lvl (window s.ibuf s.dec.len s.dec.cur)
    (rem = 0 → exec .decStep s = exec .decEnd s) ∧
    (rem ≠ 0 → nodeDecode s.nlevels word = .invalid → exec .decStep s = exec (.nInvalid word) s) ∧
    (∀ sym bits, rem ≠ 0 → nodeDecode s.nlevels word = .leaf sym bits → bits.toNat ≤ rem → sym.toNat = 256 →
      exec .decStep s = exec (.nLeafEos bits) s) ∧
    (∀ sym bits, rem ≠ 0 → nodeDecode s.nlevels word = .leaf sym bits → bits.toNat ≤ rem → sym.toNat ≠ 256 →
      exec .decStep s = exec (.nLeaf sym bits) s) ∧
    (∀ next, rem ≠ 0 → nodeDecode s.nlevels word = .branch next → 8 ≤ rem → exec .decStep s = exec (.nBranch next) s) ∧
    (∀ sym bits, rem ≠ 0 → nodeDecode s.nlevels word = .leaf sym bits → rem < bits.toNat →
      exec .decStep s = exec .decTail s) ∧
    (∀ next, rem ≠ 0 → nodeDecode s.nlevels word = .branch next → rem < 8 → exec .decStep s = exec .decTail s) ∧
    (rem ≠ 0 → nodeDecode s.nlevels word = .empty → rem < 8 → exec .decStep s = exec .decTail s) ∧
    (nodeDecode s.nlevels word = .empty → 8 ≤ rem → exec .decStep s = exec .nEmpty s) ∧
    ∃ t, exec .decStep s = .next t

/-- R12, R88: a step of the machine in a DECODE is DEC.STEP: fetching the node word, decoding it and running it comes to the same as the
ordered tests, the model's stops (log 12, 14) included. That DEC moves first when no turn is scheduled, also while ENC is busy or a host move waits, is
the model's schedule (log 6). -/
def Obligations.DecoderTurnIsDecStep : Prop :=
  ∀ s : State, s.turns = [] → s.dec.busy = true → step s = exec .decStep s

/-- R86: the window is the sum of its 8 stream bits, the first one most significant, a position at or past the end counting as 1; as a byte pair, it is
the 8 bits at the cursor's offset in the two bytes there, bytes past the end being `0xFF`; it is `0xFF` exactly when every real bit in it is
1, so at the end of the buffer. -/
def Obligations.WindowIsTheShiftedBytePair : Prop :=
  ∀ (ibuf : Memory Byte) (len cur : Nat), cur ≤ 8 * len →
    let a := cur / 8
    let o := cur % 8
    let b0 := if a < len then (readByte ibuf a).toNat else 0xFF
    let b1 := if a + 1 < len then (readByte ibuf (a + 1)).toNat else 0xFF
    let bit := fun p => if p < 8 * len then ((readByte ibuf (p / 8)).toNat >>> (7 - p % 8)) &&& 1 else 1
    window ibuf len cur = ((List.range 8).map fun j => bit (cur + j) <<< (7 - j)).sum ∧
    window ibuf len cur = (((b0 <<< 8) ||| b1) >>> (8 - o)) &&& 0xFF ∧
    (window ibuf len cur = 0xFF ↔ ∀ p, cur ≤ p → p < cur + 8 → p < 8 * len → bit p = 1) ∧
    (cur = 8 * len → window ibuf len cur = 0xFF)

/-- R141: a step that ends the operation with a failure writes the four flags and nothing else. -/
def Obligations.FailingStepWritesFlagsOnly : Prop :=
  ∀ s t : State, exec .decStep s = .next t → s.dec.busy = true → t.dec.busy = false → t.dec.ok = false →
    t = { s with dec := { s.dec with busy := false, done := true, ok := false, cause := t.dec.cause } } ∧
    t.dec.cause ≠ .none

/-- R34, R96, R142: a DECODE only appends to OUT, at most one byte a step, and `doutcnt` counts the bytes; nothing but OUT and the
decoder's registers changes. -/
def Obligations.DecodeAppendsWhatItCounts : Prop :=
  (∀ s t : State, exec .decStep s = .next t →
    ∃ bs, bs.length ≤ 1 ∧ t = { s with dec := t.dec, out := s.out ++ bs } ∧ t.dec.outcnt = s.dec.outcnt + bs.length) ∧
  (∀ s t : State, decodeWhole s = .next t →
    ∃ bs, t = { s with dec := t.dec, out := s.out ++ bs } ∧ t.dec.outcnt = bs.length)

/-- R97: every DECODE ends within `8*len + 1` steps, for every ROM content and every input, with the cursor inside the buffer;
a step that goes on advances the cursor. -/
def Obligations.DecodeTerminates : Prop :=
  (∀ (s : State) (r : Rom), s.tb.rom = some r → 0 < s.nlevels →
    ∃ t, decodeWhole s = .next t ∧ t.dec.busy = false ∧ t.dec.done = true ∧ t.dec.cur ≤ 8 * s.regs.argLen) ∧
  (∀ s t : State, s.dec.cur ≤ 8 * s.dec.len → exec .decStep s = .next t → t.dec.busy = true → s.dec.busy = true →
    s.dec.cur < t.dec.cur ∧ t.dec.cur ≤ 8 * s.dec.len)

/-- R85: DECODE is the machine's run: repeating DEC.STEP until a step ends the operation is what the machine does, step by step, while
the decoder is busy and nothing else is scheduled. That DEC then moves before ENC, TB and the host is the model's schedule (log 6). -/
def Obligations.MachineRunsDecode : Prop :=
  ∀ (k : Nat) (s t : State), s.turns = [] → s.dec.busy = true → decodeRun k s = .next t →
    ∃ n, n ≤ k ∧ Sys2Proof.core.run n s = .next t

/-- R128: the empty input: the first step of DECODE ends done-ok and appends nothing, for every ROM content. That the command writes CMD and does
DEC.START in one step, so that the next is the first DEC.STEP, is the model's reading (log 4). -/
def Obligations.EmptyInputDecodesToNothing : Prop :=
  ∀ (s : State) (r : Rom), s.tb.rom = some r → s.dec.busy = false → s.regs.argLen = 0 →
    ∃ t, exec .decode s = .next t ∧
      exec .decStep t = .next { s with regs := { s.regs with cmd := 1#3 },
                                       dec := { len := 0, cur := 0, lvl := 0, outcnt := 0,
                                                busy := false, done := true, ok := true, cause := .none } }

/-- R98: on a well formed image of a well formed table DECODE computes the greedy parse of the bit string of the buffer: same
verdict, same cause, same bytes. -/
def Obligations.DecodeComputesDecodeSpec : Prop :=
  ∀ (s : State) (r : Rom), s.tb.rom = some r → 0 < s.nlevels → WellFormedTable s.table → WfRom r s.nlevels s.table →
    ∃ t, decodeWhole s = .next t ∧ t.dec.busy = false ∧ t.dec.done = true ∧
      let spec := decodeSpec s.table (8 * s.regs.argLen)
        ((List.range (8 * s.regs.argLen)).map (streamBit s.ibuf s.regs.argLen)) []
      decodeOutcome t.dec = spec.1 ∧ t.out = s.out ++ spec.2

/-- R53, R98, R99: S.CODE: the code of a byte symbol standing whole at the cursor of a walk at the root is read in `ceil(L/8)` steps: its byte is appended and the
cursor moves past it; the EOS code ends the operation with EOS_DECODED and appends nothing. -/
def Obligations.CodeAtTheCursorIsRead : Prop :=
  ∀ (s : State) (sym : BitVec 9), Built s → s.dec.busy = true → s.dec.lvl = 0 → codeStands s.table s sym.toNat = true →
    (sym.toNat < 256 →
      exec (.sCode sym) s = .next { s with
        out := s.out ++ [BitVec.ofNat 8 sym.toNat],
        dec := { s.dec with outcnt := s.dec.outcnt + 1, cur := s.dec.cur + (entryAt s.table sym.toNat).len.toNat } }) ∧
    (sym.toNat = 256 → ∃ t, exec (.sCode sym) s = .next t ∧ t.out = s.out ∧ t.dec.outcnt = s.dec.outcnt ∧
      t.dec.busy = false ∧ t.dec.done = true ∧ t.dec.ok = false ∧ t.dec.cause = .eosDecoded ∧ t = { s with dec := t.dec })

/-! ### The encoder -/

/-- R112: ENC.SYM: the bytes appended, followed by the bits left, are the bits held before followed by the code's bits; at most 7 bits are left, at most
4 bytes are appended, and nothing but SINK and the encoder's registers changes. After every step from ENC.START the bytes appended so far, followed by
the bits held, are the codes of the literal bytes read so far. -/
def Obligations.EncSymPacksTheCode : Prop :=
  (∀ (s : State) (r : Rom) (b : Byte), s.tb.rom = some r → s.enc.idx < s.enc.len → s.enc.nb ≤ 7 →
    s.enc.acc < 2 ^ s.enc.nb → ValidEntry (entryAt r.code b.toNat) →
    ∃ (bs : List Byte) (acc nb : Nat),
      exec (.encSym b) s = .next { s with
        sink := s.sink ++ bs,
        enc := { s.enc with acc := acc, nb := nb, cnt := s.enc.cnt + bs.length, idx := s.enc.idx + 1 } } ∧
      nb ≤ 7 ∧ acc < 2 ^ nb ∧ bs.length ≤ 4 ∧
      8 * bs.length + nb = s.enc.nb + (entryAt r.code b.toNat).len.toNat ∧
      streamBits bs ++ accBits acc nb = accBits s.enc.acc s.enc.nb ++ codeBits (entryAt r.code b.toNat)) ∧
  (∀ (s : State) (r : Rom) (k : Nat), ValidTable r.code → k ≤ s.regs.argLen →
    let t := symRun r k (startEncode s)
    let codes := literalBits r.code (bufferBytes s.lit k)
    t.enc.idx = k ∧ t.enc.nb ≤ 7 ∧ t.enc.acc < 2 ^ t.enc.nb ∧ 8 * t.enc.cnt + t.enc.nb = codes.length ∧
    ∃ bs : List Byte, t.sink = s.sink ++ bs ∧ bs.length = t.enc.cnt ∧ streamBits bs ++ accBits t.enc.acc t.enc.nb = codes)

/-- R113: ENC.FLUSH: with bits left it appends them followed by 1 bits to the byte's end; with none it appends nothing; the encoder
is done and its accumulator empty. -/
def Obligations.EncFlushPadsWithOnes : Prop :=
  ∀ (s : State) (r : Rom), s.tb.rom = some r → s.enc.idx = s.enc.len → s.enc.nb ≤ 7 → s.enc.acc < 2 ^ s.enc.nb →
    (s.enc.nb = 0 →
      exec .encFlush s = .next { s with enc := { s.enc with acc := 0, nb := 0, busy := false, done := true } }) ∧
    (0 < s.enc.nb → ∃ b : Byte,
      exec .encFlush s = .next { s with
        sink := s.sink ++ [b],
        enc := { s.enc with cnt := s.enc.cnt + 1, acc := 0, nb := 0, busy := false, done := true } } ∧
      byteBits b = accBits s.enc.acc s.enc.nb ++ List.replicate (8 - s.enc.nb) true)

/-- R110: ENCODE is the machine's run: ENC.SYM once per literal byte left, in index order, then ENC.FLUSH. That ENC then moves before TB
and the host's pending moves is the model's schedule (log 6). -/
def Obligations.MachineRunsEncode : Prop :=
  ∀ (s : State) (r : Rom), s.turns = [] → s.dec.busy = false → s.enc.busy = true → s.tb.rom = some r →
    s.enc.idx ≤ s.enc.len →
    Sys2Proof.core.run (s.enc.len - s.enc.idx + 1) s = .next (flushEffect (symRun r (s.enc.len - s.enc.idx) s))

/-- R114: what ENCODE writes: `ecnt = ceil8(Σ)` bytes, whose bitstream is the codes of the literal's bytes in order, most significant bit first, and then
`8*ecnt - Σ` one bits; nothing but SINK and the encoder's registers changes. -/
def Obligations.EncodeWritesCodesThenOnes : Prop :=
  ∀ (s : State) (r : Rom), s.tb.rom = some r → ValidTable r.code →
    let codes := literalBits r.code (bufferBytes s.lit s.regs.argLen)
    ∃ (t : State) (bs : List Byte), encodeWhole s = .next t ∧ t.sink = s.sink ++ bs ∧
      t.enc.cnt = bs.length ∧ t.enc.cnt = ceil8 codes.length ∧
      streamBits bs = codes ++ List.replicate (8 * t.enc.cnt - codes.length) true ∧
      t = { s with enc := t.enc, sink := t.sink } ∧ t.enc.busy = false ∧ t.enc.done = true

/-- R117, R127: SIZE on a literal answers the byte count ENCODE writes for it, on any valid code ROM; 0 for the empty literal. -/
def Obligations.SizeAgreesWithEncode : Prop :=
  ∀ (s : State) (r : Rom), s.tb.rom = some r → ValidTable r.code → s.enc.busy = false →
    ∃ t u, exec .size s = .next t ∧ encodeWhole s = .next u ∧ t.res.sbytes = u.enc.cnt ∧
      u.sink.length = s.sink.length + t.res.sbytes ∧ (s.regs.argLen = 0 → t.res.sbytes = 0)

/-! ### The laws of the codec -/

/-- R125: round trip on a round-trip safe table: decoding what ENCODE appended gives the literal back. -/
def Obligations.DecodeOfEncodeIsTheLiteral : Prop :=
  ∀ s : State, Built s → RoundTripSafe s.table →
    ∃ t v, encodeWhole s = .next t ∧
      decodeWhole { t with ibuf := Memory.ofList unlistedByte (t.sink.drop s.sink.length),
                           regs := { t.regs with argLen := t.enc.cnt } } = .next v ∧
      v.dec.ok = true ∧ v.out = s.out ++ bufferBytes s.lit s.regs.argLen

/-- R126: canonical form: a buffer DECODE accepts is what ENCODE writes for the bytes it decodes to. -/
def Obligations.AcceptedBuffersAreCanonical : Prop :=
  ∀ s t : State, Built s → decodeWhole s = .next t → t.dec.ok = true →
    ∃ u, encodeWhole { s with lit := Memory.ofList unlistedByte (t.out.drop s.out.length),
                              regs := { s.regs with argLen := t.dec.outcnt } } = .next u ∧
      u.sink = s.sink ++ bufferBytes s.ibuf s.regs.argLen

/-- R131: a buffer that differs from the encoding of a literal, in one bit or in any way, is not decoded to that literal with success. -/
def Obligations.CorruptedEncodingNeverDecodesToTheLiteral : Prop :=
  ∀ (s t v : State) (b' : List Byte), Built s → encodeWhole s = .next t → b' ≠ t.sink.drop s.sink.length →
    decodeWhole { s with ibuf := Memory.ofList unlistedByte b', regs := { s.regs with argLen := b'.length } } = .next v →
    ¬ (v.dec.ok = true ∧ v.out = s.out ++ bufferBytes s.lit s.regs.argLen)

/-- R133: an encoding without its last byte is refused or decodes to a proper prefix of the literal. -/
def Obligations.TruncatedEncodingDecodesToAProperPrefix : Prop :=
  ∀ s t v : State, Built s → encodeWhole s = .next t → 2 ≤ t.enc.cnt →
    decodeWhole { s with ibuf := Memory.ofList unlistedByte (t.sink.drop s.sink.length).dropLast,
                         regs := { s.regs with argLen := t.enc.cnt - 1 } } = .next v →
    v.dec.ok = true →
    ∃ x, x <+: bufferBytes s.lit s.regs.argLen ∧ x ≠ bufferBytes s.lit s.regs.argLen ∧ v.out = s.out ++ x

/-- R135: DECODE, ENCODE, SIZE and GETCODE depend on the ROM image they read, their operand and its length only: not on earlier
operations, the other unit, or the other registers. -/
def Obligations.OperationsDependOnTheirOperandsOnly : Prop :=
  (∀ (s s' t : State) (r r' : Rom), s.tb.rom = some r → s'.tb.rom = some r' → r.trie = r'.trie → s.nlevels = s'.nlevels →
    s.ibuf = s'.ibuf → s.regs.argLen = s'.regs.argLen → decodeWhole s = .next t →
    ∃ t' bs, decodeWhole s' = .next t' ∧ t'.dec = t.dec ∧ t.out = s.out ++ bs ∧ t'.out = s'.out ++ bs) ∧
  (∀ (s s' t : State) (r r' : Rom), s.tb.rom = some r → s'.tb.rom = some r' → r.code = r'.code →
    s.lit = s'.lit → s.regs.argLen = s'.regs.argLen → encodeWhole s = .next t →
    ∃ t' bs, encodeWhole s' = .next t' ∧ t'.enc = t.enc ∧ t.sink = s.sink ++ bs ∧ t'.sink = s'.sink ++ bs) ∧
  (∀ (s s' t : State) (r r' : Rom), s.tb.rom = some r → s'.tb.rom = some r' → r.code = r'.code → s'.enc.busy = false →
    (s.lit = s'.lit → s.regs.argLen = s'.regs.argLen → exec .size s = .next t →
      ∃ t', exec .size s' = .next t' ∧ t'.res.sbits = t.res.sbits ∧ t'.res.sbytes = t.res.sbytes) ∧
    (s.regs.argByte = s'.regs.argByte → exec .getcode s = .next t →
      ∃ t', exec .getcode s' = .next t' ∧ t'.res.gcode = t.res.gcode ∧ t'.res.glen = t.res.glen))

/-- R152: DEC and ENC of one instance do not affect each other: one step of each, in either order, ends in the same state. -/
def Obligations.DecoderAndEncoderStepsCommute : Prop :=
  ∀ (s : State) (ts : List Agent), Inv s → s.dec.busy = true → s.enc.busy = true →
    ∃ u, Sys2Proof.core.run 2 { s with turns := .dec :: .enc :: ts } = .next u ∧
      Sys2Proof.core.run 2 { s with turns := .enc :: .dec :: ts } = .next u

/-! ### The tree builder -/

/-- R71: TB.VALIDATE reports the lowest failing entry, BAD_LENGTH before BAD_CODE, by the build record; on success no flag changes and the
image under construction is the empty root (log 10). -/
def Obligations.ValidateReportsTheLowestBadEntry : Prop :=
  ∀ s : State, s.tb.fresh = true → s.levelsInRange = true →
    ((∀ i, i ≤ 256 → ValidEntry (entryAt s.table i)) →
      exec .tbValidate s = .next { s with tb := { s.tb with work := some { trie := [], n := 1, next := 0 } } }) ∧
    (∀ i, i ≤ 256 → (∀ j, j < i → ValidEntry (entryAt s.table j)) →
      let len := (entryAt s.table i).len.toNat
      let code := (entryAt s.table i).code.toNat
      ((len = 0 ∨ 30 < len) →
        ∃ nl, exec .tbValidate s = .next { s with
          tb := { ok := false, cause := .badLength, index := BitVec.ofNat 9 i, nlevels := nl, rom := none, work := none },
          free := s.free + 1 }) ∧
      (1 ≤ len → len ≤ 30 → 2 ^ len ≤ code →
        ∃ nl, exec .tbValidate s = .next { s with
          tb := { ok := false, cause := .badCode, index := BitVec.ofNat 9 i, nlevels := nl, rom := none, work := none },
          free := s.free + 1 }))

/-- R70, R165, R5: TB runs once per instance, and only with MAX_LEVELS in its range; that another build is refused, by name, is the model's choice
(log 2 and 11). -/
def Obligations.BuildRunsOnce : Prop :=
  (∀ s : State, s.tb.fresh = false → exec .tbValidate s = .refused .buildRunsOnce ∧
    (s.tb.work = none → exec .tbBuild s = .refused .buildRunsOnce)) ∧
  (∀ s : State, s.tb.fresh = true → s.maxLevels = 0 ∨ 1024 < s.maxLevels →
    exec .tbValidate s = .refused .badParameter ∧ exec .tbBuild s = .refused .badParameter) ∧
  (∀ s t : State, s.tb.work = none → exec .tbBuild s = .next t → exec .tbBuild t = .refused .buildRunsOnce)

/-- R72, R73, R79: TB.INSERT. With no collision on the code's path and room for the levels it needs, the code's path of branches ends in its leaf at every
key of the fill range and no word another code wrote changes; a collision is NOT_PREFIX_FREE; lack of room is LEVEL_OVERFLOW. A failure
names the entry's index and leaves no image. -/
def Obligations.InsertFillsTheCodesPath : Prop :=
  ∀ (s : State) (w : TbWork) (len : BitVec 5) (code : BitVec 30),
    s.tb.work = some w → w.next < 257 → 1 ≤ len.toNat → len.toNat ≤ 30 → code.toNat < 2 ^ len.toNat →
    Memory.wf emptyWord w.trie = true → 1 ≤ w.n → w.n ≤ s.maxLevels → s.maxLevels ≤ 1024 →
    (FreePath w.trie w.n code.toNat 4 0 len.toNat → w.n + newLevels w.trie w.n code.toNat 4 0 len.toNat ≤ s.maxLevels →
      ∃ w', exec (.tbInsert len code) s = .next { s with tb := { s.tb with work := some w' } } ∧
        w'.next = w.next + 1 ∧ w'.n = w.n + newLevels w.trie w.n code.toNat 4 0 len.toNat ∧
        FullFill { trie := w'.trie, code := [] } w'.n ⟨len.setWidth 8, code.setWidth 32⟩ w.next ∧
        ∀ l k, l < w.n → k < 256 → trieWord w.trie l k ≠ emptyWord → trieWord w'.trie l k = trieWord w.trie l k) ∧
    (¬ FreePath w.trie w.n code.toNat 4 0 len.toNat →
      ∃ nl, exec (.tbInsert len code) s = .next { s with
        tb := { ok := false, cause := .notPrefixFree, index := BitVec.ofNat 9 w.next, nlevels := nl, rom := none, work := none },
        free := s.free + 1 }) ∧
    (FreePath w.trie w.n code.toNat 4 0 len.toNat → s.maxLevels < w.n + newLevels w.trie w.n code.toNat 4 0 len.toNat →
      ∃ nl, exec (.tbInsert len code) s = .next { s with
        tb := { ok := false, cause := .levelOverflow, index := BitVec.ofNat 9 w.next, nlevels := nl, rom := none, work := none },
        free := s.free + 1 })

/-- R17, R74, R76, R146: TB.BUILD ends with an image and a success record, the code ROM being the table, or with a failure record and no image; nothing but
the build record, the images and the model's free-value counter changes. -/
def Obligations.BuildEndsWithAnImageOrARecord : Prop :=
  ∀ s : State, s.tb.fresh = true → s.levelsInRange = true →
    ∃ t, exec .tbBuild s = .next t ∧ t = { s with tb := t.tb, free := t.free } ∧ t.tb.work = none ∧
      ((∃ r, t.tb.rom = some r ∧ t.tb.ok = true ∧ t.tb.cause = .none ∧ t.tb.index = 0#9 ∧ t.free = s.free ∧
          1 ≤ t.nlevels ∧ t.nlevels ≤ s.maxLevels ∧ ∀ i, i ≤ 256 → entryAt r.code i = entryAt s.table i) ∨
       (t.tb.rom = none ∧ t.tb.ok = false ∧ t.tb.cause ≠ .none ∧ t.tb.index.toNat ≤ 256))

/-- R74: TB.BUILD is TB.VALIDATE and then TB.INSERT entry by entry: beginning a build with TB.VALIDATE, or inserting the next entry by
TB.INSERT, changes nothing of how TB.BUILD ends. -/
def Obligations.BuildIsValidateThenInserts : Prop :=
  (∀ s t : State, s.tb.fresh = true → s.levelsInRange = true → exec .tbValidate s = .next t →
    (t.tb.work.isSome = true → exec .tbBuild t = exec .tbBuild s) ∧
    (t.tb.work = none → exec .tbBuild s = .next t)) ∧
  (∀ (s t : State) (w : TbWork), s.tb.work = some w → w.next < 257 → ValidEntry (entryAt s.table w.next) →
    exec (.tbInsert ((entryAt s.table w.next).len.setWidth 5) ((entryAt s.table w.next).code.setWidth 30)) s = .next t →
    (t.tb.work.isSome = true → exec .tbBuild t = exec .tbBuild s) ∧
    (t.tb.work = none → exec .tbBuild s = .next t))

/-- R81 items 1 to 4: the image of a successful build is well formed. -/
def Obligations.BuiltImageIsWellFormed : Prop :=
  ∀ (s : State) (r : Rom), Built s → s.tb.rom = some r → WfRom r s.nlevels s.table

/-- R79, R81 item 5: TB.BUILD succeeds exactly when the table is valid, is a prefix code and needs at most MAX_LEVELS levels, and then NLEVELS is
the number it needs; no well formed table needs more than 772. -/
def Obligations.BuildSucceedsExactlyOnPrefixCodes : Prop :=
  (∀ s : State, s.tb.fresh = true → s.levelsInRange = true →
    ((WellFormedTable s.table ∧ levelsNeeded s.table ≤ s.maxLevels) ↔ ∃ t, exec .tbBuild s = .next t ∧ t.tb.ok = true) ∧
    (∀ t, exec .tbBuild s = .next t → t.tb.ok = true → t.nlevels = levelsNeeded s.table)) ∧
  (∀ table : CodeTable, WellFormedTable table → levelsNeeded table ≤ 772)

/-- R40, R165: once an instance is built no step changes its ROM images, its build record or its parameters. -/
def Obligations.NoStepChangesABuiltInstance : Prop :=
  ∀ (s t : State) (r : Rom), s.tb.rom = some r → s.tb.ok = true → s.tb.work = none → step s = .next t →
    t.tb = s.tb ∧ t.table = s.table ∧ t.maxLevels = s.maxLevels ∧ t.lenW = s.lenW

/-! ### The host's buffers and registers -/

/-- R20, R42: while a DECODE is in progress no step changes IBUF or its length, and OUT only grows; while an ENCODE is in progress no step
changes LIT or its length, and SINK only grows. -/
def Obligations.BorrowedBuffersAreLeftAlone : Prop :=
  ∀ s t : State, step s = .next t →
    (s.dec.busy = true → t.ibuf = s.ibuf ∧ t.ibufLen = s.ibufLen ∧ s.out <+: t.out) ∧
    (s.enc.busy = true → t.lit = s.lit ∧ t.litLen = s.litLen ∧ s.sink <+: t.sink)

/-- R13, R15, R17, R21, R64: what the host reads: the fields of the three status registers at their bits, the causes by their numbers and the
other readable registers. That it reads nothing from the registers it only writes (log 23), and that the run-time registers read the same while no
instance exists (log 26), is the model's choice. -/
def Obligations.StatusRegistersShowTheFlags : Prop :=
  ∀ s : State,
    (∃ v, s.readReg 3 = some v ∧ v < 64 ∧ (v.testBit 0 = s.dec.busy) ∧ (v.testBit 1 = s.dec.done) ∧ (v.testBit 2 = s.dec.ok) ∧
      v / 8 = decodeCauseCode s.dec.cause) ∧
    (∃ v, s.readReg 5 = some v ∧ v < 4 ∧ (v.testBit 0 = s.enc.busy) ∧ (v.testBit 1 = s.enc.done)) ∧
    (∃ v, s.readReg 11 = some v ∧ v < 8192 ∧ (v.testBit 0 = s.tb.ok) ∧ v / 2 % 8 = buildCauseCode s.tb.cause ∧
      v / 16 = s.tb.index.toNat) ∧
    s.readReg 4 = some s.dec.outcnt ∧ s.readReg 6 = some s.enc.cnt ∧ s.readReg 7 = some s.res.sbytes ∧
    s.readReg 8 = some s.res.sbits ∧ s.readReg 9 = some s.res.gcode.toNat ∧ s.readReg 10 = some s.res.glen.toNat ∧
    s.readReg 12 = some s.tb.nlevels.toNat ∧ s.readReg 0 = none ∧ s.readReg 1 = none ∧ s.readReg 2 = none ∧
    decodeCauseCode .none = 0 ∧ decodeCauseCode .truncated = 1 ∧ decodeCauseCode .badPadding = 2 ∧
    decodeCauseCode .eosDecoded = 3 ∧ decodeCauseCode .invalidCode = 4 ∧ decodeCauseCode .badNode = 5 ∧
    buildCauseCode .none = 0 ∧ buildCauseCode .badLength = 1 ∧ buildCauseCode .badCode = 2 ∧
    buildCauseCode .notPrefixFree = 3 ∧ buildCauseCode .levelOverflow = 4

/-! ### The invariant -/

/-- R24, R168: the reset state satisfies the invariant. The build record, the parameters and the buffers of that state are the model's
choice (log 1, 2, 7). -/
def Obligations.ResetSatisfiesTheInvariant : Prop := Inv State.reset

/-- R14, R17, R36, R40, R81, R168: every step keeps the invariant: register ranges, canonical memories, the level inside the image, the flags
consistent, the images those of a build of the table, and each operation in progress over bytes the host gave (R166 (d), log 25). -/
def Obligations.StepKeepsTheInvariant : Prop := ∀ s t : State, Inv s → step s = .next t → Inv t

/-- R36, R145: from a state that satisfies the invariant no step faults, and with no host move pending every step goes on. -/
def Obligations.InvariantStatesNeverStop : Prop :=
  ∀ s : State, Inv s → (∀ f, step s ≠ .fault f) ∧ (s.host = [] → ∃ t, step s = .next t)

/-! ### Encodings -/

/-- R50 to R59: decode and encode agree: the word of a well-formed instruction decodes to it, every operand at every legal value; S.CODE under a well
formed table. -/
def Obligations.DecodeOfEncodeIsTheInstruction : Prop :=
  ∀ (ctx : DecodeCtx) (i : Instr) (u : CodeUnit), WellFormed.instr ctx i = true →
    (∀ sym, i = .sCode sym → WellFormedTable ctx.table) → encode ctx i = some u → decode ctx u = .ok i

/-- R58: the other direction for node words: all 65536 words are the encoding of what they decode to, and what is decoded is well formed. -/
def Obligations.EveryNodeWordIsItsOwnEncoding : Prop :=
  ∀ (ctx : DecodeCtx) (w : NodeWord),
    encode ctx (decodeN ctx.nlevels w) = some (.n w) ∧ WellFormed.instr ctx (decodeN ctx.nlevels w) = true

/-- R55 to R58: NodeDecode is Invalid exactly on the words outside the match and mask table, and never answers an illegal field. -/
def Obligations.NodeDecodeAcceptsExactlyTheLegalWords : Prop :=
  ∀ (nlevels : Nat) (w : NodeWord),
    (nodeDecode nlevels w = .invalid ↔ WellFormed.nodeWord nlevels w = false) ∧
    (nodeDecode nlevels w = .empty ↔ w = 0x0000#16) ∧
    (∀ sym bits, nodeDecode nlevels w = .leaf sym bits →
      sym.toNat ≤ 256 ∧ 1 ≤ bits.toNat ∧ bits.toNat ≤ 8 ∧ w.toNat = 0x4000 + 16 * sym.toNat + bits.toNat) ∧
    (∀ next, nodeDecode nlevels w = .branch next →
      1 ≤ next.toNat ∧ next.toNat < nlevels ∧ w.toNat = 0x8000 + next.toNat)

/-- R51, R53, R55 to R59: words written out from the encodings decode to what they stand for, one or more of each format. -/
def Obligations.WrittenOutWordsDecode : Prop :=
  decodeC 0b011#3 = .size ∧ decodeC 0b110#3 = .reserved6 ∧
  decodeN 28 0b0000000000000000#16 = .nEmpty ∧
  decodeN 28 0b0100000000110101#16 = .nLeaf 3#9 5#4 ∧
  decodeN 28 0b0101000000000110#16 = .nLeafEos 6#4 ∧
  decodeN 28 0b1000000000011011#16 = .nBranch 27#10 ∧
  decodeN 28 0b1000000000011100#16 = .nInvalid 0x801C#16 ∧
  decodeN 28 0b1100000000000000#16 = .nInvalid 0xC000#16 ∧
  decodeL 0b11010000#8 = .encSym 208#8 ∧
  decodeT 0b0000101000000000000000000000001110000000#40 = .ok (.tbInsert 10#5 0x380#30) ∧
  decodeT 0b0001111100000000000000000000000000000000#40 = .error .badLength ∧
  decodeT 0b0000000101000000000000000000000000000000#40 = .error .badCode ∧
  decode ⟨28, [(80, ⟨10#8, 0x380#32⟩)]⟩ (.s [true, true, true, false, false, false, false, false, false, false]) = .ok (.sCode 80#9)
end

