-- ==== Sys2Proof/Laws/Memory.lean ====
section
/-! SUPPORT. The laws of sparse memories: read after write, the canonical form is kept, equal canonical memories are those that read alike. -/

namespace Sys2Proof.Machine

section Generic

variable {α : Type} [DecidableEq α] {d : α}

omit [DecidableEq α] in
@[simp] theorem Memory.read_nil (a : Nat) : Memory.read d ([] : Memory α) a = d := rfl

omit [DecidableEq α] in
theorem Memory.read_cons (k : Nat) (v : α) (m : Memory α) (a : Nat) :
    Memory.read d ((k, v) :: m) a = if k = a then v else Memory.read d m a := rfl

theorem Memory.wfFrom_cons {lo k : Nat} {v : α} {m : Memory α} :
    Memory.wfFrom d lo ((k, v) :: m) = true ↔ lo ≤ k ∧ v ≠ d ∧ Memory.wfFrom d (k + 1) m = true := by
  simp [Memory.wfFrom, and_assoc]

theorem Memory.wfFrom_mono {lo lo' : Nat} {m : Memory α} (h : lo' ≤ lo) (hm : Memory.wfFrom d lo m = true) :
    Memory.wfFrom d lo' m = true := by
  cases m with
  | nil => rfl
  | cons c m => obtain ⟨k, v⟩ := c; rw [Memory.wfFrom_cons] at *; exact ⟨by omega, hm.2⟩

/-- Below the least index every read gives the unlisted value. -/
theorem Memory.read_of_lt {lo : Nat} {m : Memory α} (hm : Memory.wfFrom d lo m = true) {a : Nat} (ha : a < lo) :
    Memory.read d m a = d := by
  induction m generalizing lo with
  | nil => rfl
  | cons c m ih =>
    obtain ⟨k, v⟩ := c
    rw [Memory.wfFrom_cons] at hm
    rw [Memory.read_cons, if_neg (by omega)]
    exact ih hm.2.2 (by omega)

/-- Writing keeps the canonical form. -/
theorem Memory.wfFrom_write {lo : Nat} {m : Memory α} (hm : Memory.wfFrom d lo m = true) {a : Nat} (ha : lo ≤ a) (v : α) :
    Memory.wfFrom d lo (Memory.write d m a v) = true := by
  induction m generalizing lo with
  | nil =>
    unfold Memory.write
    split
    · rfl
    · rw [Memory.wfFrom_cons]; exact ⟨ha, ‹_›, rfl⟩
  | cons c m ih =>
    obtain ⟨k, w⟩ := c
    have hk := Memory.wfFrom_cons.mp hm
    unfold Memory.write
    split
    · split
      · exact hm
      · rw [Memory.wfFrom_cons]
        exact ⟨ha, ‹_›, Memory.wfFrom_cons.mpr ⟨by omega, hk.2⟩⟩
    · split
      · split
        · exact Memory.wfFrom_mono (by omega) hk.2.2
        · rw [Memory.wfFrom_cons]; exact ⟨ha, ‹_›, by subst a; exact hk.2.2⟩
      · rw [Memory.wfFrom_cons]
        exact ⟨hk.1, hk.2.1, ih hk.2.2 (by omega)⟩

theorem Memory.wf_write {m : Memory α} (hm : Memory.wf d m = true) (a : Nat) (v : α) :
    Memory.wf d (Memory.write d m a v) = true := Memory.wfFrom_write hm (Nat.zero_le a) v

/-- A read after a write to the same index gives the word written. -/
theorem Memory.wfFrom_read_write_same {lo : Nat} {m : Memory α} (hm : Memory.wfFrom d lo m = true) (a : Nat) (v : α) :
    Memory.read d (Memory.write d m a v) a = v := by
  induction m generalizing lo with
  | nil =>
    unfold Memory.write
    split
    · rw [Memory.read_nil]; exact Eq.symm ‹_›
    · rw [Memory.read_cons, if_pos rfl]
  | cons c m ih =>
    obtain ⟨k, w⟩ := c
    have hk := Memory.wfFrom_cons.mp hm
    unfold Memory.write
    split
    · split
      · rw [Memory.read_cons, if_neg (by omega), Memory.read_of_lt hk.2.2 (by omega)]
        exact Eq.symm ‹_›
      · rw [Memory.read_cons, if_pos rfl]
    · split
      · split
        · rw [Memory.read_of_lt hk.2.2 (by omega)]; exact Eq.symm ‹_›
        · rw [Memory.read_cons, if_pos rfl]
      · rw [Memory.read_cons, if_neg (by omega)]; exact ih hk.2.2

theorem Memory.read_write_same {m : Memory α} (hm : Memory.wf d m = true) (a : Nat) (v : α) :
    Memory.read d (Memory.write d m a v) a = v := Memory.wfFrom_read_write_same hm a v

/-- A write leaves every other index alone, canonical or not. -/
theorem Memory.read_write_other (m : Memory α) {a b : Nat} (h : b ≠ a) (v : α) :
    Memory.read d (Memory.write d m a v) b = Memory.read d m b := by
  induction m with
  | nil =>
    unfold Memory.write
    split
    · rfl
    · rw [Memory.read_cons, if_neg (Ne.symm h)]
  | cons c m ih =>
    obtain ⟨k, w⟩ := c
    unfold Memory.write
    split
    · split
      · rfl
      · rw [Memory.read_cons, if_neg (Ne.symm h)]
    · split
      · subst k
        split
        · rw [Memory.read_cons, if_neg (Ne.symm h)]
        · rw [Memory.read_cons, if_neg (Ne.symm h), Memory.read_cons, if_neg (Ne.symm h)]
      · rw [Memory.read_cons, Memory.read_cons, ih]

theorem Memory.read_write {m : Memory α} (hm : Memory.wf d m = true) (a b : Nat) (v : α) :
    Memory.read d (Memory.write d m a v) b = if b = a then v else Memory.read d m b := by
  split
  · subst b; exact Memory.read_write_same hm a v
  · exact Memory.read_write_other m ‹_› v

/-- Dropping entries keeps the canonical form. -/
theorem Memory.wfFrom_filter {lo : Nat} {m : Memory α} (hm : Memory.wfFrom d lo m = true) (p : Nat × α → Bool) :
    Memory.wfFrom d lo (m.filter p) = true := by
  induction m generalizing lo with
  | nil => rfl
  | cons c m ih =>
    obtain ⟨k, v⟩ := c
    have hk := Memory.wfFrom_cons.mp hm
    rw [List.filter_cons]
    split
    · exact Memory.wfFrom_cons.mpr ⟨hk.1, hk.2.1, ih hk.2.2⟩
    · exact Memory.wfFrom_mono (by omega) (ih hk.2.2)

theorem Memory.wf_clear {m : Memory α} (hm : Memory.wf d m = true) (base n : Nat) :
    Memory.wf d (Memory.clear base n m) = true := Memory.wfFrom_filter hm _

theorem Memory.wf_restrict {m : Memory α} (hm : Memory.wf d m = true) (n : Nat) :
    Memory.wf d (Memory.restrict n m) = true := Memory.wfFrom_filter hm _

omit [DecidableEq α] in
/-- Filtering on the index keeps the words of the indexes that pass and makes the others unlisted. -/
theorem Memory.read_filter (m : Memory α) (p : Nat → Bool) (a : Nat) :
    Memory.read d (m.filter fun c => p c.1) a = if p a then Memory.read d m a else d := by
  induction m with
  | nil => simp
  | cons c m ih =>
    obtain ⟨k, v⟩ := c
    rw [List.filter_cons, Memory.read_cons]
    by_cases hk : k = a
    · subst k
      cases hp : p a <;> simp_all [Memory.read_cons]
    · cases hp : p k <;> simp [hk, Memory.read_cons, ih]

omit [DecidableEq α] in
theorem Memory.read_clear (m : Memory α) (base n a : Nat) :
    Memory.read d (Memory.clear base n m) a = if a < base ∨ base + n ≤ a then Memory.read d m a else d := by
  have h := Memory.read_filter (d := d) m (fun k => decide (k < base) || decide (base + n ≤ k)) a
  simp only [Bool.or_eq_true, decide_eq_true_eq] at h
  exact h

omit [DecidableEq α] in
theorem Memory.read_restrict (m : Memory α) (n a : Nat) :
    Memory.read d (Memory.restrict n m) a = if a < n then Memory.read d m a else d := by
  have h := Memory.read_filter (d := d) m (fun k => decide (k < n)) a
  simp only [decide_eq_true_eq] at h
  exact h

theorem Memory.wfFrom_ofListFrom (vs : List α) (a : Nat) : Memory.wfFrom d a (Memory.ofListFrom d a vs) = true := by
  induction vs generalizing a with
  | nil => rfl
  | cons v vs ih =>
    unfold Memory.ofListFrom
    split
    · exact Memory.wfFrom_mono (by omega) (ih (a + 1))
    · exact Memory.wfFrom_cons.mpr ⟨Nat.le_refl a, ‹_›, ih (a + 1)⟩

theorem Memory.wf_ofList (vs : List α) : Memory.wf d (Memory.ofList d vs) = true :=
  Memory.wfFrom_ofListFrom vs 0

theorem Memory.read_ofListFrom (vs : List α) (a b : Nat) (h : a ≤ b) :
    Memory.read d (Memory.ofListFrom d a vs) b = vs.getD (b - a) d := by
  induction vs generalizing a with
  | nil => simp [Memory.ofListFrom]
  | cons v vs ih =>
    by_cases hb : a = b
    · subst b
      unfold Memory.ofListFrom
      split
      · rw [Memory.read_of_lt (Memory.wfFrom_ofListFrom vs (a + 1)) (Nat.lt_succ_self a)]
        simp [‹v = d›]
      · simp [Memory.read_cons]
    · have hs : b - a = (b - (a + 1)) + 1 := by omega
      unfold Memory.ofListFrom
      split
      · rw [ih (a + 1) (by omega), hs, List.getD_cons_succ]
      · rw [Memory.read_cons, if_neg hb, ih (a + 1) (by omega), hs, List.getD_cons_succ]

/-- A memory made from a word sequence reads as the sequence, and as the unlisted value past its end. -/
theorem Memory.read_ofList (vs : List α) (a : Nat) : Memory.read d (Memory.ofList d vs) a = vs.getD a d := by
  exact Memory.read_ofListFrom vs 0 a (Nat.zero_le a)

theorem Memory.ext_wfFrom {lo : Nat} {m m' : Memory α} (hm : Memory.wfFrom d lo m = true)
    (hm' : Memory.wfFrom d lo m' = true) (h : ∀ a, Memory.read d m a = Memory.read d m' a) : m = m' := by
  induction m generalizing lo m' with
  | nil =>
    cases m' with
    | nil => rfl
    | cons c m' =>
      obtain ⟨k, v⟩ := c
      have hk := Memory.wfFrom_cons.mp hm'
      have := h k
      rw [Memory.read_cons, if_pos rfl] at this
      exact absurd this.symm hk.2.1
  | cons c m ih =>
    obtain ⟨k, v⟩ := c
    have hk := Memory.wfFrom_cons.mp hm
    cases m' with
    | nil =>
      have := h k
      rw [Memory.read_cons, if_pos rfl] at this
      exact absurd this hk.2.1
    | cons c' m' =>
      obtain ⟨k', v'⟩ := c'
      have hk' := Memory.wfFrom_cons.mp hm'
      have hkk : k = k' := by
        rcases Nat.lt_trichotomy k k' with hlt | heq | hgt
        · have := h k
          rw [Memory.read_cons, if_pos rfl, Memory.read_cons, if_neg (by omega),
            Memory.read_of_lt hk'.2.2 (by omega)] at this
          exact absurd this hk.2.1
        · exact heq
        · have := h k'
          rw [Memory.read_cons, if_neg (by omega), Memory.read_cons, if_pos rfl,
            Memory.read_of_lt hk.2.2 (by omega)] at this
          exact absurd this.symm hk'.2.1
      subst k'
      have hv : v = v' := by
        have := h k
        rwa [Memory.read_cons, if_pos rfl, Memory.read_cons, if_pos rfl] at this
      subst v'
      rw [ih hk.2.2 hk'.2.2]
      intro a
      by_cases ha : k = a
      · subst ha
        rw [Memory.read_of_lt hk.2.2 (by omega), Memory.read_of_lt hk'.2.2 (by omega)]
      · have := h a
        rwa [Memory.read_cons, if_neg ha, Memory.read_cons, if_neg ha] at this

/-- Two canonical memories that read alike are equal. -/
theorem Memory.ext_wf {m m' : Memory α} (hm : Memory.wf d m = true) (hm' : Memory.wf d m' = true)
    (h : ∀ a, Memory.read d m a = Memory.read d m' a) : m = m' := Memory.ext_wfFrom hm hm' h

end Generic

/-! ### The trie ROM -/

theorem trieIndex_inj {l k l' k' : Nat} (hk : k < Config.fanout) (hk' : k' < Config.fanout) :
    l * Config.fanout + k = l' * Config.fanout + k' ↔ l = l' ∧ k = k' := by
  simp only [Config.fanout] at *
  omega

theorem trieWord_setTrieWord {trie : Memory NodeWord} (hm : Memory.wf emptyWord trie = true) {l k l' k' : Nat}
    (hk : k < Config.fanout) (hk' : k' < Config.fanout) (w : NodeWord) :
    trieWord (setTrieWord trie l k w) l' k' = if l' = l ∧ k' = k then w else trieWord trie l' k' := by
  unfold trieWord setTrieWord
  rw [Memory.read_write hm]
  simp only [trieIndex_inj hk' hk]

theorem wf_setTrieWord {trie : Memory NodeWord} (hm : Memory.wf emptyWord trie = true) (l k : Nat) (w : NodeWord) :
    Memory.wf emptyWord (setTrieWord trie l k w) = true := Memory.wf_write hm _ _

/-- Clearing a level makes its words EMPTY and leaves every other level alone. -/
theorem trieWord_clear (trie : Memory NodeWord) (n l k : Nat) (hk : k < Config.fanout) :
    trieWord (Memory.clear (n * Config.fanout) Config.fanout trie) l k
      = if l = n then emptyWord else trieWord trie l k := by
  unfold trieWord
  rw [Memory.read_clear]
  by_cases h : l = n
  · subst h
    rw [if_neg (by simp only [Config.fanout] at *; omega), if_pos rfl]
  · rw [if_pos (by simp only [Config.fanout] at *; omega), if_neg h]

/-! ### The code table and the host buffers -/

theorem entryAt_restrict (t : CodeTable) {i : Nat} (h : i < Config.nsym) :
    entryAt (Memory.restrict Config.nsym t) i = entryAt t i := by
  unfold entryAt
  rw [Memory.read_restrict, if_pos h]

theorem readByte_ofList (bs : List Byte) (a : Nat) : readByte (Memory.ofList unlistedByte bs) a = bs.getD a unlistedByte :=
  Memory.read_ofList bs a

end Sys2Proof.Machine
end

