-- ==== Sys2Proof/Laws/Bits.lean ====
section
/-! SUPPORT. Bit strings, the window and the accumulator: the lemmas of the bit-level helpers (spec/20_memory.md R31; spec/41_decoder.md R86; spec/42_encoder.md R112). -/

namespace Sys2Proof.Machine

open Sys2Proof.Safety

/-! ### Code bits and byte bits -/

@[simp] theorem codeBits_length (e : CodeEntry) : (codeBits e).length = e.len.toNat := by simp [codeBits]

@[simp] theorem byteBits_length (b : Byte) : (byteBits b).length = 8 := by simp [byteBits]

@[simp] theorem accBits_length (acc nb : Nat) : (accBits acc nb).length = nb := by simp [accBits]

theorem codeBits_getElem (e : CodeEntry) (j : Nat) (h : j < (codeBits e).length) :
    (codeBits e)[j] = e.code.getLsbD (e.len.toNat - 1 - j) := by simp [codeBits]

theorem byteBits_getElem (b : Byte) (j : Nat) (h : j < (byteBits b).length) :
    (byteBits b)[j] = b.getLsbD (7 - j) := by simp [byteBits]

theorem accBits_getElem (acc nb j : Nat) (h : j < (accBits acc nb).length) :
    (accBits acc nb)[j] = acc.testBit (nb - 1 - j) := by simp [accBits]

@[simp] theorem streamBits_nil : streamBits [] = [] := rfl

@[simp] theorem streamBits_cons (b : Byte) (bs : List Byte) : streamBits (b :: bs) = byteBits b ++ streamBits bs := by
  simp [streamBits]

@[simp] theorem streamBits_append (bs cs : List Byte) : streamBits (bs ++ cs) = streamBits bs ++ streamBits cs := by
  simp [streamBits]

@[simp] theorem streamBits_length (bs : List Byte) : (streamBits bs).length = 8 * bs.length := by
  induction bs with
  | nil => rfl
  | cons b bs ih => simp [ih]; omega

/-- The bit string of a byte sequence determines it. -/
theorem byteBits_inj {b c : Byte} (h : byteBits b = byteBits c) : b = c := by
  apply BitVec.eq_of_getLsbD_eq
  intro i hi
  have h' := congrArg (fun l => l[7 - i]?) h
  simp [byteBits] at h'
  have : 7 - i < 8 := by omega
  simp [this] at h'
  have e : 7 - (7 - i) = i := by omega
  rw [e] at h'
  simpa [hi] using h'

theorem streamBits_inj {bs cs : List Byte} (h : streamBits bs = streamBits cs) : bs = cs := by
  induction bs generalizing cs with
  | nil =>
    have := congrArg List.length h
    cases cs with
    | nil => rfl
    | cons c cs => simp at this; omega
  | cons b bs ih =>
    cases cs with
    | nil => have := congrArg List.length h; simp at this
    | cons c cs =>
      simp only [streamBits_cons] at h
      obtain ⟨h1, h2⟩ := List.append_inj h (by simp)
      rw [byteBits_inj h1, ih h2]

@[simp] theorem literalBits_nil (t : CodeTable) : literalBits t [] = [] := rfl

@[simp] theorem literalBits_cons (t : CodeTable) (b : Byte) (bs : List Byte) :
    literalBits t (b :: bs) = codeBits (entryAt t b.toNat) ++ literalBits t bs := by simp [literalBits]

@[simp] theorem literalBits_append (t : CodeTable) (bs cs : List Byte) :
    literalBits t (bs ++ cs) = literalBits t bs ++ literalBits t cs := by simp [literalBits]

/-- An accumulator of `nb + k` bits holds the older `nb` bits and then the younger `k`. -/
theorem accBits_append (acc c nb k : Nat) (hc : c < 2 ^ k) :
    accBits ((acc <<< k) ||| c) (nb + k) = accBits acc nb ++ accBits c k := by
  apply List.ext_getElem
  · simp
  · intro j h1 h2
    simp only [accBits_length] at h1
    rw [accBits_getElem, List.getElem_append]
    split
    · rename_i h
      simp only [accBits_length] at h
      rw [accBits_getElem, Nat.testBit_or, Nat.testBit_shiftLeft]
      have e1 : k ≤ nb + k - 1 - j := by omega
      have e2 : nb + k - 1 - j - k = nb - 1 - j := by omega
      have e3 : c.testBit (nb + k - 1 - j) = false :=
        Nat.testBit_lt_two_pow (lt_of_lt_of_le hc (Nat.pow_le_pow_right (by decide) e1))
      simp [e1, e2, e3]
    · rename_i h
      simp only [accBits_length, not_lt] at h
      rw [accBits_getElem, Nat.testBit_or, Nat.testBit_shiftLeft]
      have e1 : ¬ k ≤ nb + k - 1 - j := by omega
      have e2 : nb + k - 1 - j = k - 1 - (j - nb) := by omega
      simp only [accBits_length]
      rw [e2]
      have e3 : ¬ k ≤ k - 1 - (j - nb) := by omega
      simp [e3]

/-- The code of an entry as accumulator bits: `codeField` holds it, 30 bits being enough for a valid entry. -/
theorem accBits_codeField (e : CodeEntry) (h : e.len.toNat ≤ 30) : accBits (codeField e) e.len.toNat = codeBits e := by
  apply List.ext_getElem
  · simp
  · intro j h1 h2
    simp only [accBits_length] at h1
    rw [accBits_getElem, codeBits_getElem, codeField]
    have : e.len.toNat - 1 - j < 30 := by omega
    rw [BitVec.testBit_toNat, BitVec.getLsbD_extractLsb']
    simp [this]

theorem codeField_eq (e : CodeEntry) (h : ValidEntry e) : codeField e = e.code.toNat := by
  obtain ⟨_, h2, h3⟩ := h
  have : e.code.toNat < 2 ^ 30 := lt_of_lt_of_le h3 (Nat.pow_le_pow_right (by decide) h2)
  simp [codeField, BitVec.extractLsb'_toNat]
  omega

/-- The oldest 8 bits of an accumulator, and the rest. -/
theorem accBits_oldest (acc nb : Nat) (h : 8 ≤ nb) :
    accBits acc nb = byteBits (oldestByte acc nb) ++ accBits (acc &&& ones (nb - 8)) (nb - 8) := by
  apply List.ext_getElem
  · simp; omega
  · intro j h1 h2
    simp only [accBits_length] at h1
    rw [accBits_getElem, List.getElem_append]
    split
    · rename_i hj
      simp only [byteBits_length] at hj
      rw [byteBits_getElem, oldestByte, BitVec.getLsbD_ofNat]
      have e1 : 7 - j < 8 := by omega
      have e2 : nb - 8 + (7 - j) = nb - 1 - j := by omega
      have e3 : Nat.testBit 255 (7 - j) = true := by
        have := Nat.testBit_two_pow_sub_one 8 (7 - j)
        simpa [e1] using this
      simp [e1, Nat.testBit_shiftRight, e2, e3]
    · rename_i hj
      simp only [byteBits_length, not_lt] at hj
      simp only [byteBits_length]
      rw [accBits_getElem, ones, Nat.testBit_and, Nat.testBit_two_pow_sub_one]
      have e1 : nb - 8 - 1 - (j - 8) = nb - 1 - j := by omega
      have e2 : nb - 1 - j < nb - 8 := by omega
      simp [e1, e2]

/-- The final byte: the bits left, then ones. -/
theorem byteBits_finalByte (acc nb : Nat) (h : nb ≤ 8) :
    byteBits (finalByte acc nb) = accBits acc nb ++ List.replicate (8 - nb) true := by
  apply List.ext_getElem
  · simp; omega
  · intro j h1 h2
    simp only [byteBits_length] at h1
    rw [byteBits_getElem, List.getElem_append, finalByte, BitVec.getLsbD_ofNat]
    have e1 : 7 - j < 8 := by omega
    have e3 : Nat.testBit 255 (7 - j) = true := by
      have := Nat.testBit_two_pow_sub_one 8 (7 - j)
      simpa [e1] using this
    simp only [e1, decide_true, Bool.true_and, Nat.testBit_and, e3, Bool.and_true, Nat.testBit_or, Nat.testBit_shiftLeft,
      ones, Nat.testBit_two_pow_sub_one]
    split
    · rename_i hj
      simp only [accBits_length] at hj
      rw [accBits_getElem]
      have e4 : 8 - nb ≤ 7 - j := by omega
      have e5 : 7 - j - (8 - nb) = nb - 1 - j := by omega
      have e6 : ¬ 7 - j < 8 - nb := by omega
      simp [e4, e5, e6]
    · rename_i hj
      simp only [accBits_length, not_lt] at hj
      have e4 : 7 - j < 8 - nb := by omega
      simp [e4]

/-! ### Stream bits and the window -/

theorem streamBit_past {ibuf : Memory Byte} {len p : Nat} (h : 8 * len ≤ p) : streamBit ibuf len p = true := by
  simp [streamBit, Nat.not_lt.mpr h]

/-- The real bits of a buffer are the bit string of its bytes. -/
theorem streamBit_eq_getElem (ibuf : Memory Byte) (len p : Nat) (h : p < 8 * len) :
    streamBit ibuf len p = (streamBits (bufferBytes ibuf len))[p]'(by simp [bufferBytes, h]) := by
  have key : ∀ (bs : List Byte) (q : Nat) (hq : q < 8 * bs.length),
      (streamBits bs)[q]'(by simpa using hq) = (bs[q / 8]'(by omega)).getLsbD (7 - q % 8) := by
    intro bs
    induction bs with
    | nil => intro q hq; simp at hq
    | cons b bs ih =>
      intro q hq
      simp only [streamBits_cons, List.getElem_append, byteBits_length]
      split
      · rename_i h8
        have e1 : q / 8 = 0 := by omega
        have e2 : q % 8 = q := by omega
        simp [byteBits_getElem, e1, e2]
      · rename_i h8
        rw [ih (q - 8) (by simp at hq; omega)]
        have e1 : q / 8 = (q - 8) / 8 + 1 := by omega
        have e2 : (q - 8) % 8 = q % 8 := by omega
        simp [e1, e2]
  rw [key (bufferBytes ibuf len) p (by simp [bufferBytes, h])]
  simp [streamBit, h, bufferBytes]

theorem streamBits_bufferBytes (ibuf : Memory Byte) (len : Nat) :
    streamBits (bufferBytes ibuf len) = (List.range (8 * len)).map (streamBit ibuf len) := by
  apply List.ext_getElem
  · simp [bufferBytes]
  · intro p h1 h2
    simp [bufferBytes] at h1
    rw [List.getElem_map, List.getElem_range, streamBit_eq_getElem _ _ _ h1]

theorem streamValue_lt (ibuf : Memory Byte) (len cur k : Nat) : streamValue ibuf len cur k < 2 ^ k := by
  induction k with
  | zero => simp [streamValue]
  | succ k ih =>
    have : (streamBit ibuf len (cur + k)).toNat ≤ 1 := Bool.toNat_le _
    simp only [streamValue, Nat.pow_succ]
    omega

theorem window_lt (ibuf : Memory Byte) (len cur : Nat) : window ibuf len cur < 256 := streamValue_lt ibuf len cur 8

/-- Bit `k - 1 - j` of the value of `k` stream positions is the `j`-th of them. -/
theorem testBit_streamValue (ibuf : Memory Byte) (len cur k j : Nat) (h : j < k) :
    (streamValue ibuf len cur k).testBit (k - 1 - j) = streamBit ibuf len (cur + j) := by
  induction k with
  | zero => omega
  | succ k ih =>
    simp only [streamValue]
    rcases Nat.lt_succ_iff_lt_or_eq.mp h with hj | hj
    · have e : k + 1 - 1 - j = (k - 1 - j) + 1 := by omega
      rw [e, Nat.testBit_succ, ← ih hj]
      congr 1
      have : (streamBit ibuf len (cur + k)).toNat ≤ 1 := Bool.toNat_le _
      omega
    · subst hj
      have e : j + 1 - 1 - j = 0 := by omega
      rw [e]
      cases streamBit ibuf len (cur + j) <;> simp [Nat.testBit_zero]

theorem testBit_window (ibuf : Memory Byte) (len cur j : Nat) (h : j < 8) :
    (window ibuf len cur).testBit (7 - j) = streamBit ibuf len (cur + j) :=
  testBit_streamValue ibuf len cur 8 j h

/-- Two windows are equal when their bits are. -/
theorem window_eq_of_bits {ibuf : Memory Byte} {len cur v : Nat} (hv : v < 256)
    (h : ∀ j, j < 8 → streamBit ibuf len (cur + j) = v.testBit (7 - j)) : window ibuf len cur = v := by
  apply Nat.eq_of_testBit_eq
  intro i
  by_cases hi : i < 8
  · have e : i = 7 - (7 - i) := by omega
    rw [e, testBit_window _ _ _ _ (by omega), h _ (by omega)]
  · rw [Nat.testBit_lt_two_pow (lt_of_lt_of_le (window_lt ibuf len cur) (Nat.pow_le_pow_right (n := 2) (by decide) (by omega : 8 ≤ i))),
      Nat.testBit_lt_two_pow (lt_of_lt_of_le hv (Nat.pow_le_pow_right (n := 2) (by decide) (by omega : 8 ≤ i)))]

/-- The window is all ones exactly when every real bit in it is 1 (R86 (b)). -/
theorem window_eq_ones_iff (ibuf : Memory Byte) (len cur : Nat) :
    window ibuf len cur = 0xFF ↔ ∀ p, cur ≤ p → p < cur + 8 → p < 8 * len → streamBit ibuf len p = true := by
  have h255 : ∀ j, j < 8 → Nat.testBit 255 (7 - j) = true := by decide
  constructor
  · intro h p h1 h2 _
    have := testBit_window ibuf len cur (p - cur) (by omega)
    rw [h, h255 _ (by omega)] at this
    have e : cur + (p - cur) = p := by omega
    rw [e] at this
    exact this.symm
  · intro h
    apply window_eq_of_bits (by decide)
    intro j hj
    rw [h255 j hj]
    by_cases hp : cur + j < 8 * len
    · exact h _ (by omega) (by omega) hp
    · exact streamBit_past (by omega)

/-- A buffer holds the bytes put into it (R20). -/
theorem bufferBytes_ofList (bs : List Byte) : bufferBytes (Memory.ofList unlistedByte bs) bs.length = bs := by
  apply List.ext_getElem
  · simp [bufferBytes]
  · intro i _ h
    simp [bufferBytes, readByte, Memory.read_ofList, h]

end Sys2Proof.Machine
end

