-- ==== Sys2Proof/Laws/State.lean ====
section
/-! SUPPORT. One lemma per field per update of State, each true by rfl: what an update writes and what it leaves. -/

namespace Sys2Proof.Machine

/-! ### setCmd -/

@[simp] theorem setCmd_table (s : State) (op : BitVec 3) : (s.setCmd op).table = s.table := rfl
@[simp] theorem setCmd_maxLevels (s : State) (op : BitVec 3) : (s.setCmd op).maxLevels = s.maxLevels := rfl
@[simp] theorem setCmd_lenW (s : State) (op : BitVec 3) : (s.setCmd op).lenW = s.lenW := rfl
@[simp] theorem setCmd_tb (s : State) (op : BitVec 3) : (s.setCmd op).tb = s.tb := rfl
@[simp] theorem setCmd_dec (s : State) (op : BitVec 3) : (s.setCmd op).dec = s.dec := rfl
@[simp] theorem setCmd_enc (s : State) (op : BitVec 3) : (s.setCmd op).enc = s.enc := rfl
@[simp] theorem setCmd_res (s : State) (op : BitVec 3) : (s.setCmd op).res = s.res := rfl
@[simp] theorem setCmd_regs (s : State) (op : BitVec 3) :
    (s.setCmd op).regs = { s.regs with cmd := op } := rfl
@[simp] theorem setCmd_ibuf (s : State) (op : BitVec 3) : (s.setCmd op).ibuf = s.ibuf := rfl
@[simp] theorem setCmd_ibufLen (s : State) (op : BitVec 3) : (s.setCmd op).ibufLen = s.ibufLen := rfl
@[simp] theorem setCmd_lit (s : State) (op : BitVec 3) : (s.setCmd op).lit = s.lit := rfl
@[simp] theorem setCmd_litLen (s : State) (op : BitVec 3) : (s.setCmd op).litLen = s.litLen := rfl
@[simp] theorem setCmd_out (s : State) (op : BitVec 3) : (s.setCmd op).out = s.out := rfl
@[simp] theorem setCmd_sink (s : State) (op : BitVec 3) : (s.setCmd op).sink = s.sink := rfl
@[simp] theorem setCmd_host (s : State) (op : BitVec 3) : (s.setCmd op).host = s.host := rfl
@[simp] theorem setCmd_turns (s : State) (op : BitVec 3) : (s.setCmd op).turns = s.turns := rfl
@[simp] theorem setCmd_free (s : State) (op : BitVec 3) : (s.setCmd op).free = s.free := rfl

/-! ### appendOut -/

@[simp] theorem appendOut_table (s : State) (b : Byte) : (s.appendOut b).table = s.table := rfl
@[simp] theorem appendOut_maxLevels (s : State) (b : Byte) : (s.appendOut b).maxLevels = s.maxLevels := rfl
@[simp] theorem appendOut_lenW (s : State) (b : Byte) : (s.appendOut b).lenW = s.lenW := rfl
@[simp] theorem appendOut_tb (s : State) (b : Byte) : (s.appendOut b).tb = s.tb := rfl
@[simp] theorem appendOut_dec (s : State) (b : Byte) : (s.appendOut b).dec = s.dec := rfl
@[simp] theorem appendOut_enc (s : State) (b : Byte) : (s.appendOut b).enc = s.enc := rfl
@[simp] theorem appendOut_res (s : State) (b : Byte) : (s.appendOut b).res = s.res := rfl
@[simp] theorem appendOut_regs (s : State) (b : Byte) : (s.appendOut b).regs = s.regs := rfl
@[simp] theorem appendOut_ibuf (s : State) (b : Byte) : (s.appendOut b).ibuf = s.ibuf := rfl
@[simp] theorem appendOut_ibufLen (s : State) (b : Byte) : (s.appendOut b).ibufLen = s.ibufLen := rfl
@[simp] theorem appendOut_lit (s : State) (b : Byte) : (s.appendOut b).lit = s.lit := rfl
@[simp] theorem appendOut_litLen (s : State) (b : Byte) : (s.appendOut b).litLen = s.litLen := rfl
@[simp] theorem appendOut_out (s : State) (b : Byte) :
    (s.appendOut b).out = s.out ++ [b] := rfl
@[simp] theorem appendOut_sink (s : State) (b : Byte) : (s.appendOut b).sink = s.sink := rfl
@[simp] theorem appendOut_host (s : State) (b : Byte) : (s.appendOut b).host = s.host := rfl
@[simp] theorem appendOut_turns (s : State) (b : Byte) : (s.appendOut b).turns = s.turns := rfl
@[simp] theorem appendOut_free (s : State) (b : Byte) : (s.appendOut b).free = s.free := rfl

/-! ### appendSink -/

@[simp] theorem appendSink_table (s : State) (bs : List Byte) : (s.appendSink bs).table = s.table := rfl
@[simp] theorem appendSink_maxLevels (s : State) (bs : List Byte) : (s.appendSink bs).maxLevels = s.maxLevels := rfl
@[simp] theorem appendSink_lenW (s : State) (bs : List Byte) : (s.appendSink bs).lenW = s.lenW := rfl
@[simp] theorem appendSink_tb (s : State) (bs : List Byte) : (s.appendSink bs).tb = s.tb := rfl
@[simp] theorem appendSink_dec (s : State) (bs : List Byte) : (s.appendSink bs).dec = s.dec := rfl
@[simp] theorem appendSink_enc (s : State) (bs : List Byte) : (s.appendSink bs).enc = s.enc := rfl
@[simp] theorem appendSink_res (s : State) (bs : List Byte) : (s.appendSink bs).res = s.res := rfl
@[simp] theorem appendSink_regs (s : State) (bs : List Byte) : (s.appendSink bs).regs = s.regs := rfl
@[simp] theorem appendSink_ibuf (s : State) (bs : List Byte) : (s.appendSink bs).ibuf = s.ibuf := rfl
@[simp] theorem appendSink_ibufLen (s : State) (bs : List Byte) : (s.appendSink bs).ibufLen = s.ibufLen := rfl
@[simp] theorem appendSink_lit (s : State) (bs : List Byte) : (s.appendSink bs).lit = s.lit := rfl
@[simp] theorem appendSink_litLen (s : State) (bs : List Byte) : (s.appendSink bs).litLen = s.litLen := rfl
@[simp] theorem appendSink_out (s : State) (bs : List Byte) : (s.appendSink bs).out = s.out := rfl
@[simp] theorem appendSink_sink (s : State) (bs : List Byte) :
    (s.appendSink bs).sink = s.sink ++ bs := rfl
@[simp] theorem appendSink_host (s : State) (bs : List Byte) : (s.appendSink bs).host = s.host := rfl
@[simp] theorem appendSink_turns (s : State) (bs : List Byte) : (s.appendSink bs).turns = s.turns := rfl
@[simp] theorem appendSink_free (s : State) (bs : List Byte) : (s.appendSink bs).free = s.free := rfl

/-! ### startDecode -/

@[simp] theorem startDecode_table (s : State) : (startDecode s).table = s.table := rfl
@[simp] theorem startDecode_maxLevels (s : State) : (startDecode s).maxLevels = s.maxLevels := rfl
@[simp] theorem startDecode_lenW (s : State) : (startDecode s).lenW = s.lenW := rfl
@[simp] theorem startDecode_tb (s : State) : (startDecode s).tb = s.tb := rfl
@[simp] theorem startDecode_dec (s : State) :
    (startDecode s).dec = { len := s.regs.argLen, cur := 0, lvl := 0, outcnt := 0, busy := true, done := false, ok := false, cause := .none } := rfl
@[simp] theorem startDecode_enc (s : State) : (startDecode s).enc = s.enc := rfl
@[simp] theorem startDecode_res (s : State) : (startDecode s).res = s.res := rfl
@[simp] theorem startDecode_regs (s : State) : (startDecode s).regs = s.regs := rfl
@[simp] theorem startDecode_ibuf (s : State) : (startDecode s).ibuf = s.ibuf := rfl
@[simp] theorem startDecode_ibufLen (s : State) : (startDecode s).ibufLen = s.ibufLen := rfl
@[simp] theorem startDecode_lit (s : State) : (startDecode s).lit = s.lit := rfl
@[simp] theorem startDecode_litLen (s : State) : (startDecode s).litLen = s.litLen := rfl
@[simp] theorem startDecode_out (s : State) : (startDecode s).out = s.out := rfl
@[simp] theorem startDecode_sink (s : State) : (startDecode s).sink = s.sink := rfl
@[simp] theorem startDecode_host (s : State) : (startDecode s).host = s.host := rfl
@[simp] theorem startDecode_turns (s : State) : (startDecode s).turns = s.turns := rfl
@[simp] theorem startDecode_free (s : State) : (startDecode s).free = s.free := rfl

/-! ### decodeSuccess -/

@[simp] theorem decodeSuccess_table (s : State) : (decodeSuccess s).table = s.table := rfl
@[simp] theorem decodeSuccess_maxLevels (s : State) : (decodeSuccess s).maxLevels = s.maxLevels := rfl
@[simp] theorem decodeSuccess_lenW (s : State) : (decodeSuccess s).lenW = s.lenW := rfl
@[simp] theorem decodeSuccess_tb (s : State) : (decodeSuccess s).tb = s.tb := rfl
@[simp] theorem decodeSuccess_dec (s : State) :
    (decodeSuccess s).dec = { s.dec with busy := false, done := true, ok := true } := rfl
@[simp] theorem decodeSuccess_enc (s : State) : (decodeSuccess s).enc = s.enc := rfl
@[simp] theorem decodeSuccess_res (s : State) : (decodeSuccess s).res = s.res := rfl
@[simp] theorem decodeSuccess_regs (s : State) : (decodeSuccess s).regs = s.regs := rfl
@[simp] theorem decodeSuccess_ibuf (s : State) : (decodeSuccess s).ibuf = s.ibuf := rfl
@[simp] theorem decodeSuccess_ibufLen (s : State) : (decodeSuccess s).ibufLen = s.ibufLen := rfl
@[simp] theorem decodeSuccess_lit (s : State) : (decodeSuccess s).lit = s.lit := rfl
@[simp] theorem decodeSuccess_litLen (s : State) : (decodeSuccess s).litLen = s.litLen := rfl
@[simp] theorem decodeSuccess_out (s : State) : (decodeSuccess s).out = s.out := rfl
@[simp] theorem decodeSuccess_sink (s : State) : (decodeSuccess s).sink = s.sink := rfl
@[simp] theorem decodeSuccess_host (s : State) : (decodeSuccess s).host = s.host := rfl
@[simp] theorem decodeSuccess_turns (s : State) : (decodeSuccess s).turns = s.turns := rfl
@[simp] theorem decodeSuccess_free (s : State) : (decodeSuccess s).free = s.free := rfl

/-! ### decodeFailure -/

@[simp] theorem decodeFailure_table (c : DecodeCause) (s : State) : (decodeFailure c s).table = s.table := rfl
@[simp] theorem decodeFailure_maxLevels (c : DecodeCause) (s : State) : (decodeFailure c s).maxLevels = s.maxLevels := rfl
@[simp] theorem decodeFailure_lenW (c : DecodeCause) (s : State) : (decodeFailure c s).lenW = s.lenW := rfl
@[simp] theorem decodeFailure_tb (c : DecodeCause) (s : State) : (decodeFailure c s).tb = s.tb := rfl
@[simp] theorem decodeFailure_dec (c : DecodeCause) (s : State) :
    (decodeFailure c s).dec = { s.dec with busy := false, done := true, ok := false, cause := c } := rfl
@[simp] theorem decodeFailure_enc (c : DecodeCause) (s : State) : (decodeFailure c s).enc = s.enc := rfl
@[simp] theorem decodeFailure_res (c : DecodeCause) (s : State) : (decodeFailure c s).res = s.res := rfl
@[simp] theorem decodeFailure_regs (c : DecodeCause) (s : State) : (decodeFailure c s).regs = s.regs := rfl
@[simp] theorem decodeFailure_ibuf (c : DecodeCause) (s : State) : (decodeFailure c s).ibuf = s.ibuf := rfl
@[simp] theorem decodeFailure_ibufLen (c : DecodeCause) (s : State) : (decodeFailure c s).ibufLen = s.ibufLen := rfl
@[simp] theorem decodeFailure_lit (c : DecodeCause) (s : State) : (decodeFailure c s).lit = s.lit := rfl
@[simp] theorem decodeFailure_litLen (c : DecodeCause) (s : State) : (decodeFailure c s).litLen = s.litLen := rfl
@[simp] theorem decodeFailure_out (c : DecodeCause) (s : State) : (decodeFailure c s).out = s.out := rfl
@[simp] theorem decodeFailure_sink (c : DecodeCause) (s : State) : (decodeFailure c s).sink = s.sink := rfl
@[simp] theorem decodeFailure_host (c : DecodeCause) (s : State) : (decodeFailure c s).host = s.host := rfl
@[simp] theorem decodeFailure_turns (c : DecodeCause) (s : State) : (decodeFailure c s).turns = s.turns := rfl
@[simp] theorem decodeFailure_free (c : DecodeCause) (s : State) : (decodeFailure c s).free = s.free := rfl

/-! ### startEncode -/

@[simp] theorem startEncode_table (s : State) : (startEncode s).table = s.table := rfl
@[simp] theorem startEncode_maxLevels (s : State) : (startEncode s).maxLevels = s.maxLevels := rfl
@[simp] theorem startEncode_lenW (s : State) : (startEncode s).lenW = s.lenW := rfl
@[simp] theorem startEncode_tb (s : State) : (startEncode s).tb = s.tb := rfl
@[simp] theorem startEncode_dec (s : State) : (startEncode s).dec = s.dec := rfl
@[simp] theorem startEncode_enc (s : State) :
    (startEncode s).enc = { len := s.regs.argLen, idx := 0, acc := 0, nb := 0, cnt := 0, busy := true, done := false } := rfl
@[simp] theorem startEncode_res (s : State) : (startEncode s).res = s.res := rfl
@[simp] theorem startEncode_regs (s : State) : (startEncode s).regs = s.regs := rfl
@[simp] theorem startEncode_ibuf (s : State) : (startEncode s).ibuf = s.ibuf := rfl
@[simp] theorem startEncode_ibufLen (s : State) : (startEncode s).ibufLen = s.ibufLen := rfl
@[simp] theorem startEncode_lit (s : State) : (startEncode s).lit = s.lit := rfl
@[simp] theorem startEncode_litLen (s : State) : (startEncode s).litLen = s.litLen := rfl
@[simp] theorem startEncode_out (s : State) : (startEncode s).out = s.out := rfl
@[simp] theorem startEncode_sink (s : State) : (startEncode s).sink = s.sink := rfl
@[simp] theorem startEncode_host (s : State) : (startEncode s).host = s.host := rfl
@[simp] theorem startEncode_turns (s : State) : (startEncode s).turns = s.turns := rfl
@[simp] theorem startEncode_free (s : State) : (startEncode s).free = s.free := rfl

/-! ### buildFailure -/

@[simp] theorem buildFailure_table (c : BuildCause) (i : Nat) (s : State) : (buildFailure c i s).table = s.table := rfl
@[simp] theorem buildFailure_maxLevels (c : BuildCause) (i : Nat) (s : State) : (buildFailure c i s).maxLevels = s.maxLevels := rfl
@[simp] theorem buildFailure_lenW (c : BuildCause) (i : Nat) (s : State) : (buildFailure c i s).lenW = s.lenW := rfl
@[simp] theorem buildFailure_tb (c : BuildCause) (i : Nat) (s : State) :
    (buildFailure c i s).tb = { ok := false, cause := c, index := BitVec.ofNat 9 i, nlevels := Config.freeNLevels s.free, rom := none, work := none } := rfl
@[simp] theorem buildFailure_dec (c : BuildCause) (i : Nat) (s : State) : (buildFailure c i s).dec = s.dec := rfl
@[simp] theorem buildFailure_enc (c : BuildCause) (i : Nat) (s : State) : (buildFailure c i s).enc = s.enc := rfl
@[simp] theorem buildFailure_res (c : BuildCause) (i : Nat) (s : State) : (buildFailure c i s).res = s.res := rfl
@[simp] theorem buildFailure_regs (c : BuildCause) (i : Nat) (s : State) : (buildFailure c i s).regs = s.regs := rfl
@[simp] theorem buildFailure_ibuf (c : BuildCause) (i : Nat) (s : State) : (buildFailure c i s).ibuf = s.ibuf := rfl
@[simp] theorem buildFailure_ibufLen (c : BuildCause) (i : Nat) (s : State) : (buildFailure c i s).ibufLen = s.ibufLen := rfl
@[simp] theorem buildFailure_lit (c : BuildCause) (i : Nat) (s : State) : (buildFailure c i s).lit = s.lit := rfl
@[simp] theorem buildFailure_litLen (c : BuildCause) (i : Nat) (s : State) : (buildFailure c i s).litLen = s.litLen := rfl
@[simp] theorem buildFailure_out (c : BuildCause) (i : Nat) (s : State) : (buildFailure c i s).out = s.out := rfl
@[simp] theorem buildFailure_sink (c : BuildCause) (i : Nat) (s : State) : (buildFailure c i s).sink = s.sink := rfl
@[simp] theorem buildFailure_host (c : BuildCause) (i : Nat) (s : State) : (buildFailure c i s).host = s.host := rfl
@[simp] theorem buildFailure_turns (c : BuildCause) (i : Nat) (s : State) : (buildFailure c i s).turns = s.turns := rfl
@[simp] theorem buildFailure_free (c : BuildCause) (i : Nat) (s : State) :
    (buildFailure c i s).free = s.free + 1 := rfl

/-! ### buildSuccess -/

@[simp] theorem buildSuccess_table (w : TbWork) (s : State) : (buildSuccess w s).table = s.table := rfl
@[simp] theorem buildSuccess_maxLevels (w : TbWork) (s : State) : (buildSuccess w s).maxLevels = s.maxLevels := rfl
@[simp] theorem buildSuccess_lenW (w : TbWork) (s : State) : (buildSuccess w s).lenW = s.lenW := rfl
@[simp] theorem buildSuccess_tb (w : TbWork) (s : State) :
    (buildSuccess w s).tb = { ok := true, cause := .none, index := 0#9, nlevels := BitVec.ofNat 11 w.n, rom := some { trie := w.trie, code := Memory.restrict Config.nsym s.table }, work := none } := rfl
@[simp] theorem buildSuccess_dec (w : TbWork) (s : State) : (buildSuccess w s).dec = s.dec := rfl
@[simp] theorem buildSuccess_enc (w : TbWork) (s : State) : (buildSuccess w s).enc = s.enc := rfl
@[simp] theorem buildSuccess_res (w : TbWork) (s : State) : (buildSuccess w s).res = s.res := rfl
@[simp] theorem buildSuccess_regs (w : TbWork) (s : State) : (buildSuccess w s).regs = s.regs := rfl
@[simp] theorem buildSuccess_ibuf (w : TbWork) (s : State) : (buildSuccess w s).ibuf = s.ibuf := rfl
@[simp] theorem buildSuccess_ibufLen (w : TbWork) (s : State) : (buildSuccess w s).ibufLen = s.ibufLen := rfl
@[simp] theorem buildSuccess_lit (w : TbWork) (s : State) : (buildSuccess w s).lit = s.lit := rfl
@[simp] theorem buildSuccess_litLen (w : TbWork) (s : State) : (buildSuccess w s).litLen = s.litLen := rfl
@[simp] theorem buildSuccess_out (w : TbWork) (s : State) : (buildSuccess w s).out = s.out := rfl
@[simp] theorem buildSuccess_sink (w : TbWork) (s : State) : (buildSuccess w s).sink = s.sink := rfl
@[simp] theorem buildSuccess_host (w : TbWork) (s : State) : (buildSuccess w s).host = s.host := rfl
@[simp] theorem buildSuccess_turns (w : TbWork) (s : State) : (buildSuccess w s).turns = s.turns := rfl
@[simp] theorem buildSuccess_free (w : TbWork) (s : State) : (buildSuccess w s).free = s.free := rfl

/-! ### putIbuf -/

@[simp] theorem putIbuf_table (bytes : List Byte) (s : State) : (putIbuf bytes s).table = s.table := rfl
@[simp] theorem putIbuf_maxLevels (bytes : List Byte) (s : State) : (putIbuf bytes s).maxLevels = s.maxLevels := rfl
@[simp] theorem putIbuf_lenW (bytes : List Byte) (s : State) : (putIbuf bytes s).lenW = s.lenW := rfl
@[simp] theorem putIbuf_tb (bytes : List Byte) (s : State) : (putIbuf bytes s).tb = s.tb := rfl
@[simp] theorem putIbuf_dec (bytes : List Byte) (s : State) : (putIbuf bytes s).dec = s.dec := rfl
@[simp] theorem putIbuf_enc (bytes : List Byte) (s : State) : (putIbuf bytes s).enc = s.enc := rfl
@[simp] theorem putIbuf_res (bytes : List Byte) (s : State) : (putIbuf bytes s).res = s.res := rfl
@[simp] theorem putIbuf_regs (bytes : List Byte) (s : State) : (putIbuf bytes s).regs = s.regs := rfl
@[simp] theorem putIbuf_ibuf (bytes : List Byte) (s : State) : (putIbuf bytes s).ibuf = Memory.ofList unlistedByte bytes := rfl
@[simp] theorem putIbuf_lit (bytes : List Byte) (s : State) : (putIbuf bytes s).lit = s.lit := rfl
@[simp] theorem putIbuf_ibufLen (bytes : List Byte) (s : State) : (putIbuf bytes s).ibufLen = bytes.length := rfl
@[simp] theorem putIbuf_litLen (bytes : List Byte) (s : State) : (putIbuf bytes s).litLen = s.litLen := rfl
@[simp] theorem putIbuf_out (bytes : List Byte) (s : State) : (putIbuf bytes s).out = s.out := rfl
@[simp] theorem putIbuf_sink (bytes : List Byte) (s : State) : (putIbuf bytes s).sink = s.sink := rfl
@[simp] theorem putIbuf_host (bytes : List Byte) (s : State) : (putIbuf bytes s).host = s.host := rfl
@[simp] theorem putIbuf_turns (bytes : List Byte) (s : State) : (putIbuf bytes s).turns = s.turns := rfl
@[simp] theorem putIbuf_free (bytes : List Byte) (s : State) : (putIbuf bytes s).free = s.free := rfl

/-! ### putLit -/

@[simp] theorem putLit_table (bytes : List Byte) (s : State) : (putLit bytes s).table = s.table := rfl
@[simp] theorem putLit_maxLevels (bytes : List Byte) (s : State) : (putLit bytes s).maxLevels = s.maxLevels := rfl
@[simp] theorem putLit_lenW (bytes : List Byte) (s : State) : (putLit bytes s).lenW = s.lenW := rfl
@[simp] theorem putLit_tb (bytes : List Byte) (s : State) : (putLit bytes s).tb = s.tb := rfl
@[simp] theorem putLit_dec (bytes : List Byte) (s : State) : (putLit bytes s).dec = s.dec := rfl
@[simp] theorem putLit_enc (bytes : List Byte) (s : State) : (putLit bytes s).enc = s.enc := rfl
@[simp] theorem putLit_res (bytes : List Byte) (s : State) : (putLit bytes s).res = s.res := rfl
@[simp] theorem putLit_regs (bytes : List Byte) (s : State) : (putLit bytes s).regs = s.regs := rfl
@[simp] theorem putLit_ibuf (bytes : List Byte) (s : State) : (putLit bytes s).ibuf = s.ibuf := rfl
@[simp] theorem putLit_lit (bytes : List Byte) (s : State) : (putLit bytes s).lit = Memory.ofList unlistedByte bytes := rfl
@[simp] theorem putLit_ibufLen (bytes : List Byte) (s : State) : (putLit bytes s).ibufLen = s.ibufLen := rfl
@[simp] theorem putLit_litLen (bytes : List Byte) (s : State) : (putLit bytes s).litLen = bytes.length := rfl
@[simp] theorem putLit_out (bytes : List Byte) (s : State) : (putLit bytes s).out = s.out := rfl
@[simp] theorem putLit_sink (bytes : List Byte) (s : State) : (putLit bytes s).sink = s.sink := rfl
@[simp] theorem putLit_host (bytes : List Byte) (s : State) : (putLit bytes s).host = s.host := rfl
@[simp] theorem putLit_turns (bytes : List Byte) (s : State) : (putLit bytes s).turns = s.turns := rfl
@[simp] theorem putLit_free (bytes : List Byte) (s : State) : (putLit bytes s).free = s.free := rfl

/-! ### applyReset -/

@[simp] theorem applyReset_table (s : State) : (applyReset s).table = s.table := rfl
@[simp] theorem applyReset_maxLevels (s : State) : (applyReset s).maxLevels = s.maxLevels := rfl
@[simp] theorem applyReset_lenW (s : State) : (applyReset s).lenW = s.lenW := rfl
@[simp] theorem applyReset_tb (s : State) : (applyReset s).tb = s.tb := rfl
@[simp] theorem applyReset_dec (s : State) :
    (applyReset s).dec = Dec.reset := rfl
@[simp] theorem applyReset_enc (s : State) :
    (applyReset s).enc = Enc.reset := rfl
@[simp] theorem applyReset_res (s : State) :
    (applyReset s).res = Res.reset := rfl
@[simp] theorem applyReset_regs (s : State) :
    (applyReset s).regs = Regs.reset := rfl
@[simp] theorem applyReset_ibuf (s : State) : (applyReset s).ibuf = s.ibuf := rfl
@[simp] theorem applyReset_ibufLen (s : State) : (applyReset s).ibufLen = s.ibufLen := rfl
@[simp] theorem applyReset_lit (s : State) : (applyReset s).lit = s.lit := rfl
@[simp] theorem applyReset_litLen (s : State) : (applyReset s).litLen = s.litLen := rfl
@[simp] theorem applyReset_out (s : State) : (applyReset s).out = s.out := rfl
@[simp] theorem applyReset_sink (s : State) : (applyReset s).sink = s.sink := rfl
@[simp] theorem applyReset_host (s : State) : (applyReset s).host = s.host := rfl
@[simp] theorem applyReset_turns (s : State) : (applyReset s).turns = s.turns := rfl
@[simp] theorem applyReset_free (s : State) : (applyReset s).free = s.free := rfl

/-! ### leafEffect -/

@[simp] theorem leafEffect_table (sym : BitVec 9) (bits : BitVec 4) (s : State) : (leafEffect sym bits s).table = s.table := rfl
@[simp] theorem leafEffect_maxLevels (sym : BitVec 9) (bits : BitVec 4) (s : State) : (leafEffect sym bits s).maxLevels = s.maxLevels := rfl
@[simp] theorem leafEffect_lenW (sym : BitVec 9) (bits : BitVec 4) (s : State) : (leafEffect sym bits s).lenW = s.lenW := rfl
@[simp] theorem leafEffect_tb (sym : BitVec 9) (bits : BitVec 4) (s : State) : (leafEffect sym bits s).tb = s.tb := rfl
@[simp] theorem leafEffect_dec (sym : BitVec 9) (bits : BitVec 4) (s : State) :
    (leafEffect sym bits s).dec = { s.dec with outcnt := s.dec.outcnt + 1, cur := s.dec.cur + bits.toNat, lvl := 0 } := rfl
@[simp] theorem leafEffect_enc (sym : BitVec 9) (bits : BitVec 4) (s : State) : (leafEffect sym bits s).enc = s.enc := rfl
@[simp] theorem leafEffect_res (sym : BitVec 9) (bits : BitVec 4) (s : State) : (leafEffect sym bits s).res = s.res := rfl
@[simp] theorem leafEffect_regs (sym : BitVec 9) (bits : BitVec 4) (s : State) : (leafEffect sym bits s).regs = s.regs := rfl
@[simp] theorem leafEffect_ibuf (sym : BitVec 9) (bits : BitVec 4) (s : State) : (leafEffect sym bits s).ibuf = s.ibuf := rfl
@[simp] theorem leafEffect_ibufLen (sym : BitVec 9) (bits : BitVec 4) (s : State) : (leafEffect sym bits s).ibufLen = s.ibufLen := rfl
@[simp] theorem leafEffect_lit (sym : BitVec 9) (bits : BitVec 4) (s : State) : (leafEffect sym bits s).lit = s.lit := rfl
@[simp] theorem leafEffect_litLen (sym : BitVec 9) (bits : BitVec 4) (s : State) : (leafEffect sym bits s).litLen = s.litLen := rfl
@[simp] theorem leafEffect_out (sym : BitVec 9) (bits : BitVec 4) (s : State) :
    (leafEffect sym bits s).out = s.out ++ [leafByte sym] := rfl
@[simp] theorem leafEffect_sink (sym : BitVec 9) (bits : BitVec 4) (s : State) : (leafEffect sym bits s).sink = s.sink := rfl
@[simp] theorem leafEffect_host (sym : BitVec 9) (bits : BitVec 4) (s : State) : (leafEffect sym bits s).host = s.host := rfl
@[simp] theorem leafEffect_turns (sym : BitVec 9) (bits : BitVec 4) (s : State) : (leafEffect sym bits s).turns = s.turns := rfl
@[simp] theorem leafEffect_free (sym : BitVec 9) (bits : BitVec 4) (s : State) : (leafEffect sym bits s).free = s.free := rfl

/-! ### branchEffect -/

@[simp] theorem branchEffect_table (n : BitVec 10) (s : State) : (branchEffect n s).table = s.table := rfl
@[simp] theorem branchEffect_maxLevels (n : BitVec 10) (s : State) : (branchEffect n s).maxLevels = s.maxLevels := rfl
@[simp] theorem branchEffect_lenW (n : BitVec 10) (s : State) : (branchEffect n s).lenW = s.lenW := rfl
@[simp] theorem branchEffect_tb (n : BitVec 10) (s : State) : (branchEffect n s).tb = s.tb := rfl
@[simp] theorem branchEffect_dec (n : BitVec 10) (s : State) :
    (branchEffect n s).dec = { s.dec with lvl := n.toNat, cur := s.dec.cur + 8 } := rfl
@[simp] theorem branchEffect_enc (n : BitVec 10) (s : State) : (branchEffect n s).enc = s.enc := rfl
@[simp] theorem branchEffect_res (n : BitVec 10) (s : State) : (branchEffect n s).res = s.res := rfl
@[simp] theorem branchEffect_regs (n : BitVec 10) (s : State) : (branchEffect n s).regs = s.regs := rfl
@[simp] theorem branchEffect_ibuf (n : BitVec 10) (s : State) : (branchEffect n s).ibuf = s.ibuf := rfl
@[simp] theorem branchEffect_ibufLen (n : BitVec 10) (s : State) : (branchEffect n s).ibufLen = s.ibufLen := rfl
@[simp] theorem branchEffect_lit (n : BitVec 10) (s : State) : (branchEffect n s).lit = s.lit := rfl
@[simp] theorem branchEffect_litLen (n : BitVec 10) (s : State) : (branchEffect n s).litLen = s.litLen := rfl
@[simp] theorem branchEffect_out (n : BitVec 10) (s : State) : (branchEffect n s).out = s.out := rfl
@[simp] theorem branchEffect_sink (n : BitVec 10) (s : State) : (branchEffect n s).sink = s.sink := rfl
@[simp] theorem branchEffect_host (n : BitVec 10) (s : State) : (branchEffect n s).host = s.host := rfl
@[simp] theorem branchEffect_turns (n : BitVec 10) (s : State) : (branchEffect n s).turns = s.turns := rfl
@[simp] theorem branchEffect_free (n : BitVec 10) (s : State) : (branchEffect n s).free = s.free := rfl

/-! ### symEffect -/

@[simp] theorem symEffect_table (r : Rom) (b : Byte) (s : State) : (symEffect r b s).table = s.table := rfl
@[simp] theorem symEffect_maxLevels (r : Rom) (b : Byte) (s : State) : (symEffect r b s).maxLevels = s.maxLevels := rfl
@[simp] theorem symEffect_lenW (r : Rom) (b : Byte) (s : State) : (symEffect r b s).lenW = s.lenW := rfl
@[simp] theorem symEffect_tb (r : Rom) (b : Byte) (s : State) : (symEffect r b s).tb = s.tb := rfl
@[simp] theorem symEffect_dec (r : Rom) (b : Byte) (s : State) : (symEffect r b s).dec = s.dec := rfl
@[simp] theorem symEffect_enc (r : Rom) (b : Byte) (s : State) :
    (symEffect r b s).enc = let d := packCode (entryAt r.code b.toNat) s.enc.acc s.enc.nb
      { s.enc with acc := d.acc, nb := d.nb, cnt := s.enc.cnt + d.bytes.length, idx := s.enc.idx + 1 } := rfl
@[simp] theorem symEffect_res (r : Rom) (b : Byte) (s : State) : (symEffect r b s).res = s.res := rfl
@[simp] theorem symEffect_regs (r : Rom) (b : Byte) (s : State) : (symEffect r b s).regs = s.regs := rfl
@[simp] theorem symEffect_ibuf (r : Rom) (b : Byte) (s : State) : (symEffect r b s).ibuf = s.ibuf := rfl
@[simp] theorem symEffect_ibufLen (r : Rom) (b : Byte) (s : State) : (symEffect r b s).ibufLen = s.ibufLen := rfl
@[simp] theorem symEffect_lit (r : Rom) (b : Byte) (s : State) : (symEffect r b s).lit = s.lit := rfl
@[simp] theorem symEffect_litLen (r : Rom) (b : Byte) (s : State) : (symEffect r b s).litLen = s.litLen := rfl
@[simp] theorem symEffect_out (r : Rom) (b : Byte) (s : State) : (symEffect r b s).out = s.out := rfl
@[simp] theorem symEffect_sink (r : Rom) (b : Byte) (s : State) :
    (symEffect r b s).sink = s.sink ++ (packCode (entryAt r.code b.toNat) s.enc.acc s.enc.nb).bytes := rfl
@[simp] theorem symEffect_host (r : Rom) (b : Byte) (s : State) : (symEffect r b s).host = s.host := rfl
@[simp] theorem symEffect_turns (r : Rom) (b : Byte) (s : State) : (symEffect r b s).turns = s.turns := rfl
@[simp] theorem symEffect_free (r : Rom) (b : Byte) (s : State) : (symEffect r b s).free = s.free := rfl

/-! ### flushEffect -/

@[simp] theorem flushEffect_table (s : State) : (flushEffect s).table = s.table := rfl
@[simp] theorem flushEffect_maxLevels (s : State) : (flushEffect s).maxLevels = s.maxLevels := rfl
@[simp] theorem flushEffect_lenW (s : State) : (flushEffect s).lenW = s.lenW := rfl
@[simp] theorem flushEffect_tb (s : State) : (flushEffect s).tb = s.tb := rfl
@[simp] theorem flushEffect_dec (s : State) : (flushEffect s).dec = s.dec := rfl
@[simp] theorem flushEffect_enc (s : State) :
    (flushEffect s).enc = { s.enc with cnt := s.enc.cnt + (flushBytes s.enc).length, acc := 0, nb := 0, busy := false, done := true } := rfl
@[simp] theorem flushEffect_res (s : State) : (flushEffect s).res = s.res := rfl
@[simp] theorem flushEffect_regs (s : State) : (flushEffect s).regs = s.regs := rfl
@[simp] theorem flushEffect_ibuf (s : State) : (flushEffect s).ibuf = s.ibuf := rfl
@[simp] theorem flushEffect_ibufLen (s : State) : (flushEffect s).ibufLen = s.ibufLen := rfl
@[simp] theorem flushEffect_lit (s : State) : (flushEffect s).lit = s.lit := rfl
@[simp] theorem flushEffect_litLen (s : State) : (flushEffect s).litLen = s.litLen := rfl
@[simp] theorem flushEffect_out (s : State) : (flushEffect s).out = s.out := rfl
@[simp] theorem flushEffect_sink (s : State) :
    (flushEffect s).sink = s.sink ++ flushBytes s.enc := rfl
@[simp] theorem flushEffect_host (s : State) : (flushEffect s).host = s.host := rfl
@[simp] theorem flushEffect_turns (s : State) : (flushEffect s).turns = s.turns := rfl
@[simp] theorem flushEffect_free (s : State) : (flushEffect s).free = s.free := rfl

/-! ### sizeEffect -/

@[simp] theorem sizeEffect_table (r : Rom) (s : State) : (sizeEffect r s).table = s.table := rfl
@[simp] theorem sizeEffect_maxLevels (r : Rom) (s : State) : (sizeEffect r s).maxLevels = s.maxLevels := rfl
@[simp] theorem sizeEffect_lenW (r : Rom) (s : State) : (sizeEffect r s).lenW = s.lenW := rfl
@[simp] theorem sizeEffect_tb (r : Rom) (s : State) : (sizeEffect r s).tb = s.tb := rfl
@[simp] theorem sizeEffect_dec (r : Rom) (s : State) : (sizeEffect r s).dec = s.dec := rfl
@[simp] theorem sizeEffect_enc (r : Rom) (s : State) : (sizeEffect r s).enc = s.enc := rfl
@[simp] theorem sizeEffect_res (r : Rom) (s : State) :
    (sizeEffect r s).res = { s.res with sbits := sumLengths r.code s.lit s.regs.argLen, sbytes := ceil8 (sumLengths r.code s.lit s.regs.argLen) } := rfl
@[simp] theorem sizeEffect_regs (r : Rom) (s : State) : (sizeEffect r s).regs = s.regs := rfl
@[simp] theorem sizeEffect_ibuf (r : Rom) (s : State) : (sizeEffect r s).ibuf = s.ibuf := rfl
@[simp] theorem sizeEffect_ibufLen (r : Rom) (s : State) : (sizeEffect r s).ibufLen = s.ibufLen := rfl
@[simp] theorem sizeEffect_lit (r : Rom) (s : State) : (sizeEffect r s).lit = s.lit := rfl
@[simp] theorem sizeEffect_litLen (r : Rom) (s : State) : (sizeEffect r s).litLen = s.litLen := rfl
@[simp] theorem sizeEffect_out (r : Rom) (s : State) : (sizeEffect r s).out = s.out := rfl
@[simp] theorem sizeEffect_sink (r : Rom) (s : State) : (sizeEffect r s).sink = s.sink := rfl
@[simp] theorem sizeEffect_host (r : Rom) (s : State) : (sizeEffect r s).host = s.host := rfl
@[simp] theorem sizeEffect_turns (r : Rom) (s : State) : (sizeEffect r s).turns = s.turns := rfl
@[simp] theorem sizeEffect_free (r : Rom) (s : State) : (sizeEffect r s).free = s.free := rfl

/-! ### getcodeEffect -/

@[simp] theorem getcodeEffect_table (r : Rom) (s : State) : (getcodeEffect r s).table = s.table := rfl
@[simp] theorem getcodeEffect_maxLevels (r : Rom) (s : State) : (getcodeEffect r s).maxLevels = s.maxLevels := rfl
@[simp] theorem getcodeEffect_lenW (r : Rom) (s : State) : (getcodeEffect r s).lenW = s.lenW := rfl
@[simp] theorem getcodeEffect_tb (r : Rom) (s : State) : (getcodeEffect r s).tb = s.tb := rfl
@[simp] theorem getcodeEffect_dec (r : Rom) (s : State) : (getcodeEffect r s).dec = s.dec := rfl
@[simp] theorem getcodeEffect_enc (r : Rom) (s : State) : (getcodeEffect r s).enc = s.enc := rfl
@[simp] theorem getcodeEffect_res (r : Rom) (s : State) :
    (getcodeEffect r s).res = { s.res with gcode := (entryAt r.code s.regs.argByte.toNat).code, glen := (entryAt r.code s.regs.argByte.toNat).len } := rfl
@[simp] theorem getcodeEffect_regs (r : Rom) (s : State) : (getcodeEffect r s).regs = s.regs := rfl
@[simp] theorem getcodeEffect_ibuf (r : Rom) (s : State) : (getcodeEffect r s).ibuf = s.ibuf := rfl
@[simp] theorem getcodeEffect_ibufLen (r : Rom) (s : State) : (getcodeEffect r s).ibufLen = s.ibufLen := rfl
@[simp] theorem getcodeEffect_lit (r : Rom) (s : State) : (getcodeEffect r s).lit = s.lit := rfl
@[simp] theorem getcodeEffect_litLen (r : Rom) (s : State) : (getcodeEffect r s).litLen = s.litLen := rfl
@[simp] theorem getcodeEffect_out (r : Rom) (s : State) : (getcodeEffect r s).out = s.out := rfl
@[simp] theorem getcodeEffect_sink (r : Rom) (s : State) : (getcodeEffect r s).sink = s.sink := rfl
@[simp] theorem getcodeEffect_host (r : Rom) (s : State) : (getcodeEffect r s).host = s.host := rfl
@[simp] theorem getcodeEffect_turns (r : Rom) (s : State) : (getcodeEffect r s).turns = s.turns := rfl
@[simp] theorem getcodeEffect_free (r : Rom) (s : State) : (getcodeEffect r s).free = s.free := rfl

/-! ### endEffect: the fields it leaves -/

@[simp] theorem endEffect_table (s : State) : (endEffect s).table = s.table := by unfold endEffect; split <;> rfl
@[simp] theorem endEffect_maxLevels (s : State) : (endEffect s).maxLevels = s.maxLevels := by unfold endEffect; split <;> rfl
@[simp] theorem endEffect_lenW (s : State) : (endEffect s).lenW = s.lenW := by unfold endEffect; split <;> rfl
@[simp] theorem endEffect_tb (s : State) : (endEffect s).tb = s.tb := by unfold endEffect; split <;> rfl
@[simp] theorem endEffect_enc (s : State) : (endEffect s).enc = s.enc := by unfold endEffect; split <;> rfl
@[simp] theorem endEffect_res (s : State) : (endEffect s).res = s.res := by unfold endEffect; split <;> rfl
@[simp] theorem endEffect_regs (s : State) : (endEffect s).regs = s.regs := by unfold endEffect; split <;> rfl
@[simp] theorem endEffect_ibuf (s : State) : (endEffect s).ibuf = s.ibuf := by unfold endEffect; split <;> rfl
@[simp] theorem endEffect_ibufLen (s : State) : (endEffect s).ibufLen = s.ibufLen := by unfold endEffect; split <;> rfl
@[simp] theorem endEffect_lit (s : State) : (endEffect s).lit = s.lit := by unfold endEffect; split <;> rfl
@[simp] theorem endEffect_litLen (s : State) : (endEffect s).litLen = s.litLen := by unfold endEffect; split <;> rfl
@[simp] theorem endEffect_out (s : State) : (endEffect s).out = s.out := by unfold endEffect; split <;> rfl
@[simp] theorem endEffect_sink (s : State) : (endEffect s).sink = s.sink := by unfold endEffect; split <;> rfl
@[simp] theorem endEffect_host (s : State) : (endEffect s).host = s.host := by unfold endEffect; split <;> rfl
@[simp] theorem endEffect_turns (s : State) : (endEffect s).turns = s.turns := by unfold endEffect; split <;> rfl
@[simp] theorem endEffect_free (s : State) : (endEffect s).free = s.free := by unfold endEffect; split <;> rfl

/-! ### tailEffect: the fields it leaves -/

@[simp] theorem tailEffect_table (s : State) : (tailEffect s).table = s.table := by unfold tailEffect; (repeat' split) <;> rfl
@[simp] theorem tailEffect_maxLevels (s : State) : (tailEffect s).maxLevels = s.maxLevels := by unfold tailEffect; (repeat' split) <;> rfl
@[simp] theorem tailEffect_lenW (s : State) : (tailEffect s).lenW = s.lenW := by unfold tailEffect; (repeat' split) <;> rfl
@[simp] theorem tailEffect_tb (s : State) : (tailEffect s).tb = s.tb := by unfold tailEffect; (repeat' split) <;> rfl
@[simp] theorem tailEffect_enc (s : State) : (tailEffect s).enc = s.enc := by unfold tailEffect; (repeat' split) <;> rfl
@[simp] theorem tailEffect_res (s : State) : (tailEffect s).res = s.res := by unfold tailEffect; (repeat' split) <;> rfl
@[simp] theorem tailEffect_regs (s : State) : (tailEffect s).regs = s.regs := by unfold tailEffect; (repeat' split) <;> rfl
@[simp] theorem tailEffect_ibuf (s : State) : (tailEffect s).ibuf = s.ibuf := by unfold tailEffect; (repeat' split) <;> rfl
@[simp] theorem tailEffect_ibufLen (s : State) : (tailEffect s).ibufLen = s.ibufLen := by unfold tailEffect; (repeat' split) <;> rfl
@[simp] theorem tailEffect_lit (s : State) : (tailEffect s).lit = s.lit := by unfold tailEffect; (repeat' split) <;> rfl
@[simp] theorem tailEffect_litLen (s : State) : (tailEffect s).litLen = s.litLen := by unfold tailEffect; (repeat' split) <;> rfl
@[simp] theorem tailEffect_out (s : State) : (tailEffect s).out = s.out := by unfold tailEffect; (repeat' split) <;> rfl
@[simp] theorem tailEffect_sink (s : State) : (tailEffect s).sink = s.sink := by unfold tailEffect; (repeat' split) <;> rfl
@[simp] theorem tailEffect_host (s : State) : (tailEffect s).host = s.host := by unfold tailEffect; (repeat' split) <;> rfl
@[simp] theorem tailEffect_turns (s : State) : (tailEffect s).turns = s.turns := by unfold tailEffect; (repeat' split) <;> rfl
@[simp] theorem tailEffect_free (s : State) : (tailEffect s).free = s.free := by unfold tailEffect; (repeat' split) <;> rfl

/-! ### nodeEffect: the fields it leaves -/

@[simp] theorem nodeEffect_table (node : Node) (s : State) : (nodeEffect node s).table = s.table := by unfold nodeEffect; (repeat' split) <;> simp
@[simp] theorem nodeEffect_maxLevels (node : Node) (s : State) : (nodeEffect node s).maxLevels = s.maxLevels := by unfold nodeEffect; (repeat' split) <;> simp
@[simp] theorem nodeEffect_lenW (node : Node) (s : State) : (nodeEffect node s).lenW = s.lenW := by unfold nodeEffect; (repeat' split) <;> simp
@[simp] theorem nodeEffect_tb (node : Node) (s : State) : (nodeEffect node s).tb = s.tb := by unfold nodeEffect; (repeat' split) <;> simp
@[simp] theorem nodeEffect_enc (node : Node) (s : State) : (nodeEffect node s).enc = s.enc := by unfold nodeEffect; (repeat' split) <;> simp
@[simp] theorem nodeEffect_res (node : Node) (s : State) : (nodeEffect node s).res = s.res := by unfold nodeEffect; (repeat' split) <;> simp
@[simp] theorem nodeEffect_regs (node : Node) (s : State) : (nodeEffect node s).regs = s.regs := by unfold nodeEffect; (repeat' split) <;> simp
@[simp] theorem nodeEffect_ibuf (node : Node) (s : State) : (nodeEffect node s).ibuf = s.ibuf := by unfold nodeEffect; (repeat' split) <;> simp
@[simp] theorem nodeEffect_ibufLen (node : Node) (s : State) : (nodeEffect node s).ibufLen = s.ibufLen := by unfold nodeEffect; (repeat' split) <;> simp
@[simp] theorem nodeEffect_lit (node : Node) (s : State) : (nodeEffect node s).lit = s.lit := by unfold nodeEffect; (repeat' split) <;> simp
@[simp] theorem nodeEffect_litLen (node : Node) (s : State) : (nodeEffect node s).litLen = s.litLen := by unfold nodeEffect; (repeat' split) <;> simp
@[simp] theorem nodeEffect_sink (node : Node) (s : State) : (nodeEffect node s).sink = s.sink := by unfold nodeEffect; (repeat' split) <;> simp
@[simp] theorem nodeEffect_host (node : Node) (s : State) : (nodeEffect node s).host = s.host := by unfold nodeEffect; (repeat' split) <;> simp
@[simp] theorem nodeEffect_turns (node : Node) (s : State) : (nodeEffect node s).turns = s.turns := by unfold nodeEffect; (repeat' split) <;> simp
@[simp] theorem nodeEffect_free (node : Node) (s : State) : (nodeEffect node s).free = s.free := by unfold nodeEffect; (repeat' split) <;> simp

end Sys2Proof.Machine
end

