-- ==== Sys2Proof/Laws/Ops.lean ====
section
/-! SUPPORT. What each shared operation can do, said once: reaching the images, commands, running a node word, the outcomes of DEC.STEP (spec/41_decoder.md R88; spec/60_exceptions.md R141). -/

namespace Sys2Proof.Machine

open Host (Outcome)

theorem withRom_some {s : State} {r : Rom} (h : s.tb.rom = some r) (f : Rom → Result) : withRom s f = f r := by
  simp [withRom, h]

theorem withRom_none {s : State} (h : s.tb.rom = none) (f : Rom → Result) : withRom s f = .refused .noInstance := by
  simp [withRom, h]

/-- A meaning that went on had an image. -/
theorem withRom_next {s t : State} {f : Rom → Result} (h : withRom s f = .next t) :
    ∃ r, s.tb.rom = some r ∧ f r = .next t := by
  cases hr : s.tb.rom with
  | none => simp [withRom, hr] at h
  | some r => exact ⟨r, rfl, by simpa [withRom, hr] using h⟩

theorem withRom_ne_fault {s : State} {f : Rom → Result} (e : Fault) (h : ∀ r, s.tb.rom = some r → f r ≠ .fault e) :
    withRom s f ≠ .fault e := by
  cases hr : s.tb.rom with
  | none => simp [withRom, hr]
  | some r => simpa [withRom, hr] using h r hr

theorem idleCommand_next {s t : State} {op : BitVec 3} (h : idleCommand op s = .next t) : t = s.setCmd op := by
  obtain ⟨_, _, h⟩ := withRom_next h
  cases h
  rfl

theorem decoderCommand_next {s t : State} {op : BitVec 3} {f : State → State} (h : decoderCommand op s f = .next t) :
    s.dec.busy = false ∧ (∃ r, s.tb.rom = some r) ∧ t = f (s.setCmd op) := by
  obtain ⟨r, hr, h⟩ := withRom_next h
  by_cases hb : s.dec.busy = true
  · simp [State.decIdle, hb] at h
  · simp only [State.decIdle, Bool.not_eq_true] at h hb
    simp only [hb, Bool.not_false, if_true] at h
    cases h
    exact ⟨hb, ⟨r, hr⟩, rfl⟩

theorem encoderCommand_next {s t : State} {op : BitVec 3} {f : Rom → State → State} (h : encoderCommand op s f = .next t) :
    s.enc.busy = false ∧ ∃ r, s.tb.rom = some r ∧ t = f r (s.setCmd op) := by
  obtain ⟨r, hr, h⟩ := withRom_next h
  by_cases hb : s.enc.busy = true
  · simp [State.encIdle, hb] at h
  · simp only [State.encIdle, Bool.not_eq_true] at h hb
    simp only [hb, Bool.not_false, if_true] at h
    cases h
    exact ⟨hb, r, hr, rfl⟩

/-! ### The outcomes of the decoder's tests -/

theorem endEffect_cases (s : State) :
    (s.dec.lvl = 0 ∧ endEffect s = decodeSuccess s) ∨ (s.dec.lvl ≠ 0 ∧ endEffect s = decodeFailure .truncated s) := by
  unfold endEffect
  split
  · exact .inl ⟨by assumption, rfl⟩
  · exact .inr ⟨by assumption, rfl⟩

theorem tailEffect_cases (s : State) :
    (s.dec.lvl = 0 ∧ s.key = 0xFF ∧ tailEffect s = decodeSuccess s) ∨
    (s.dec.lvl ≠ 0 ∧ tailEffect s = decodeFailure .truncated s) ∨
    (s.dec.lvl = 0 ∧ s.key ≠ 0xFF ∧ tailEffect s = decodeFailure .badPadding s) := by
  unfold tailEffect
  by_cases h1 : s.dec.lvl = 0 <;> by_cases h2 : s.key = 0xFF <;> simp [h1, h2]

/-- Everything tests 2 to 7 of R88 can do. -/
theorem nodeEffect_cases (node : Node) (s : State) :
    (node = .invalid ∧ nodeEffect node s = decodeFailure .badNode s) ∨
    (∃ sym bits, node = .leaf sym bits ∧ bits.toNat ≤ s.dec.rem ∧ sym.toNat = Config.eos ∧
      nodeEffect node s = decodeFailure .eosDecoded s) ∨
    (∃ sym bits, node = .leaf sym bits ∧ bits.toNat ≤ s.dec.rem ∧ sym.toNat ≠ Config.eos ∧
      nodeEffect node s = leafEffect sym bits s) ∨
    (∃ next, node = .branch next ∧ 8 ≤ s.dec.rem ∧ nodeEffect node s = branchEffect next s) ∨
    (fallsToTail node s.dec.rem = true ∧ (s.dec.rem < 8 ∨ ∃ sym bits, node = .leaf sym bits ∧ s.dec.rem < bits.toNat) ∧
      nodeEffect node s = tailEffect s) ∨
    (node = .empty ∧ 8 ≤ s.dec.rem ∧ nodeEffect node s = decodeFailure .invalidCode s) := by
  cases node with
  | invalid => exact .inl ⟨rfl, rfl⟩
  | leaf sym bits =>
    by_cases hb : bits.toNat ≤ s.dec.rem
    · by_cases he : sym.toNat = Config.eos
      · exact .inr (.inl ⟨sym, bits, rfl, hb, he, by simp [nodeEffect, hb, he]⟩)
      · exact .inr (.inr (.inl ⟨sym, bits, rfl, hb, he, by simp [nodeEffect, hb, he]⟩))
    · refine .inr (.inr (.inr (.inr (.inl ⟨?_, .inr ⟨sym, bits, rfl, by omega⟩, by simp [nodeEffect, hb]⟩))))
      simp only [fallsToTail, decide_eq_true_eq]; omega
  | branch next =>
    by_cases hb : 8 ≤ s.dec.rem
    · exact .inr (.inr (.inr (.inl ⟨next, rfl, hb, by simp [nodeEffect, hb]⟩)))
    · refine .inr (.inr (.inr (.inr (.inl ⟨?_, .inl (by omega), by simp [nodeEffect, hb]⟩))))
      simp only [fallsToTail, decide_eq_true_eq]; omega
  | empty =>
    by_cases hb : s.dec.rem < 8
    · exact .inr (.inr (.inr (.inr (.inl ⟨rfl, .inl hb, by simp [nodeEffect, hb]⟩))))
    · exact .inr (.inr (.inr (.inr (.inr ⟨rfl, by omega, by simp [nodeEffect, hb]⟩))))

/-- DEC.STEP going on: DEC.END with no real bit left, else the node at the walk position is run. -/
theorem execDecStep_next {s t : State} (h : execDecStep s = .next t) :
    ∃ r, s.tb.rom = some r ∧
      ((s.dec.rem = 0 ∧ t = endEffect s) ∨ (s.dec.rem ≠ 0 ∧ s.dec.lvl < s.nlevels ∧ t = nodeEffect (nodeAt r s) s)) := by
  obtain ⟨r, hr, h⟩ := withRom_next h
  refine ⟨r, hr, ?_⟩
  by_cases h0 : s.dec.rem = 0
  · simp only [h0, if_true] at h
    cases h
    exact .inl ⟨h0, rfl⟩
  · simp only [h0, if_false, withNode] at h
    split at h
    · cases h
      exact .inr ⟨h0, by assumption, rfl⟩
    · cases h

/-- What one DEC.STEP does to the state: it ends the operation with the flags of a success or of a failure, or it emits a leaf's
byte, or it descends. -/
theorem execDecStep_outcome {s t : State} (h : execDecStep s = .next t) :
    t = decodeSuccess s ∨ (∃ c, c ≠ DecodeCause.none ∧ t = decodeFailure c s) ∨
    (∃ r sym bits, s.tb.rom = some r ∧ s.dec.lvl < s.nlevels ∧ nodeAt r s = .leaf sym bits ∧ s.dec.rem ≠ 0 ∧
      bits.toNat ≤ s.dec.rem ∧ sym.toNat ≠ Config.eos ∧ t = leafEffect sym bits s) ∨
    (∃ r next, s.tb.rom = some r ∧ s.dec.lvl < s.nlevels ∧ nodeAt r s = .branch next ∧ 8 ≤ s.dec.rem ∧ t = branchEffect next s) := by
  obtain ⟨r, hr, ⟨_, rfl⟩ | ⟨h0, hl, rfl⟩⟩ := execDecStep_next h
  · rcases endEffect_cases s with ⟨_, h⟩ | ⟨_, h⟩
    · exact .inl h
    · exact .inr (.inl ⟨_, by decide, h⟩)
  · rcases nodeEffect_cases (nodeAt r s) s with ⟨_, h⟩ | ⟨_, _, _, _, _, h⟩ | ⟨sym, bits, hn, hb, he, h⟩ | ⟨n, hn, h8, h⟩ | ⟨_, _, h⟩ | ⟨_, _, h⟩
    · exact .inr (.inl ⟨_, by decide, h⟩)
    · exact .inr (.inl ⟨_, by decide, h⟩)
    · exact .inr (.inr (.inl ⟨r, sym, bits, hr, hl, hn, h0, hb, he, h⟩))
    · exact .inr (.inr (.inr ⟨r, n, hr, hl, hn, h8, h⟩))
    · rw [h]
      rcases tailEffect_cases s with ⟨_, _, h⟩ | ⟨_, h⟩ | ⟨_, _, h⟩
      · exact .inl h
      · exact .inr (.inl ⟨_, by decide, h⟩)
      · exact .inr (.inl ⟨_, by decide, h⟩)
    · exact .inr (.inl ⟨_, by decide, h⟩)

/-- DEC.STEP goes on whenever the level exists, or no real bit is left. -/
theorem execDecStep_total {s : State} {r : Rom} (hr : s.tb.rom = some r) (h : s.dec.rem = 0 ∨ s.dec.lvl < s.nlevels) :
    ∃ t, execDecStep s = .next t := by
  rw [execDecStep, withRom_some hr]
  by_cases h0 : s.dec.rem = 0
  · exact ⟨endEffect s, by simp only [h0, if_true]⟩
  · have hl := h.resolve_left h0
    exact ⟨nodeEffect (nodeAt r s) s, by simp only [h0, if_false, withNode, hl, if_true]⟩

/-! ### Node words -/

/-- What a decoded LEAF can be (R56). -/
theorem nodeDecode_leaf {nlevels : Nat} {w : NodeWord} {sym : BitVec 9} {bits : BitVec 4}
    (h : nodeDecode nlevels w = .leaf sym bits) :
    sym = w.extractLsb' 4 9 ∧ bits = w.extractLsb' 0 4 ∧ w.extractLsb' 13 3 = 0b010#3 ∧
      sym.toNat ≤ 256 ∧ 1 ≤ bits.toNat ∧ bits.toNat ≤ 8 := by
  unfold nodeDecode at h
  split at h
  · cases h
  split at h
  · rename_i ht
    simp only at h
    split at h
    · rename_i hc
      cases h
      refine ⟨rfl, rfl, ?_, hc⟩
      have h1 := congrArg BitVec.toNat ht.1
      have h2 := congrArg BitVec.toNat ht.2
      apply BitVec.eq_of_toNat_eq
      simp only [BitVec.extractLsb'_toNat, BitVec.toNat_ofNat, Nat.shiftRight_eq_div_pow] at h1 h2 ⊢
      omega
    · cases h
  split at h
  · simp only at h
    split at h <;> cases h
  · cases h

/-- What a decoded BRANCH can be (R57). -/
theorem nodeDecode_branch {nlevels : Nat} {w : NodeWord} {next : BitVec 10} (h : nodeDecode nlevels w = .branch next) :
    next = w.extractLsb' 0 10 ∧ w.extractLsb' 10 6 = 0b100000#6 ∧ 1 ≤ next.toNat ∧ next.toNat < nlevels := by
  unfold nodeDecode at h
  split at h
  · cases h
  split at h
  · simp only at h
    split at h <;> cases h
  split at h
  · rename_i ht
    simp only at h
    split at h
    · rename_i hc
      cases h
      refine ⟨rfl, ?_, hc⟩
      have h1 := congrArg BitVec.toNat ht.1
      have h2 := congrArg BitVec.toNat ht.2
      apply BitVec.eq_of_toNat_eq
      simp only [BitVec.extractLsb'_toNat, BitVec.toNat_ofNat, Nat.shiftRight_eq_div_pow] at h1 h2 ⊢
      omega
    · cases h
  · cases h

/-- Only the zero word is EMPTY (R55). -/
theorem nodeDecode_empty {nlevels : Nat} {w : NodeWord} : nodeDecode nlevels w = .empty ↔ w = emptyWord := by
  constructor
  · intro h
    unfold nodeDecode at h
    split at h
    · assumption
    split at h
    · simp only at h
      split at h <;> cases h
    split at h
    · simp only at h
      split at h <;> cases h
    · cases h
  · rintro rfl
    rfl

@[simp] theorem eos_ofNat_toNat : (BitVec.ofNat 9 Config.eos).toNat = 256 := rfl

/-- Running the instruction a node word decodes to is running its node. -/
theorem exec_decodeN {s : State} {r : Rom} (hr : s.tb.rom = some r) (h0 : s.dec.rem ≠ 0) (nlevels : Nat) (w : NodeWord) :
    exec (decodeN nlevels w) s = .next (nodeEffect (nodeDecode nlevels w) s) := by
  have run : ∀ node, runNode node s = .next (nodeEffect node s) := by
    intro node
    rw [runNode, withRom_some hr]
    simp only [h0, if_false]
  unfold decodeN
  cases nodeDecode nlevels w with
  | empty => exact run _
  | leaf sym bits =>
    by_cases he : sym.toNat = Config.eos
    · have : sym = BitVec.ofNat 9 Config.eos := BitVec.eq_of_toNat_eq (by rw [he]; rfl)
      simp only [he, if_true]
      rw [this]
      exact run _
    · simp only [he, if_false]
      exact run _
  | branch next => exact run _
  | invalid => exact run _

end Sys2Proof.Machine
end

