-- ==== Sys2Proof/Laws/Step.lean ====
section
/-! SUPPORT. Runs of the machine, step by step, and what each agent's turn runs (spec/10_state.md R12; spec/42_encoder.md R110). -/

namespace Sys2Proof.Machine

/-- A run of any machine whose first step goes on. -/
theorem machine_run_succ (M : Host.Core) {s t : M.State} (h : M.step s = .next t) (k : Nat) :
    M.run (k + 1) s = M.run k t := by
  simp only [Host.Core.run, h]

/-- A run of no step. -/
theorem core_run_zero (s : State) : Sys2Proof.core.run 0 s = .next s := rfl

/-- A run whose first step goes on. -/
theorem core_run_succ {s t : State} (h : step s = .next t) (k : Nat) :
    Sys2Proof.core.run (k + 1) s = Sys2Proof.core.run k t := by
  have h' : Sys2Proof.core.step s = .next t := h
  exact machine_run_succ _ h' k

/-- What a step does when its turn runs an instruction. -/
theorem step_of_run {s t : State} {i : Instr} (h : nextAction s = .run i t) : step s = exec i t := by
  simp only [step, h]

/-- What a step does when its turn is a move that is no instruction. -/
theorem step_of_quiet {s t : State} (h : nextAction s = .quiet t) : step s = .next t := by
  simp only [step, h]

/-- The encoder's turn with a literal byte left. -/
theorem encoderTurn_sym {s : State} (hb : s.enc.busy = true) (hi : s.enc.idx < s.enc.len) :
    encoderTurn s = .run (.encSym (readByte s.lit s.enc.idx)) s := by
  simp only [encoderTurn, hb, hi, if_true, decodeL]

/-- The encoder's turn with no literal byte left. -/
theorem encoderTurn_flush {s : State} (hb : s.enc.busy = true) (hi : ¬ s.enc.idx < s.enc.len) :
    encoderTurn s = .run .encFlush s := by
  simp only [encoderTurn, hb, hi, if_true, if_false]

/-- ENC.SYM on an instance. -/
theorem execEncSym_next {s : State} {r : Rom} (hr : s.tb.rom = some r) (hi : s.enc.idx < s.enc.len) (b : Byte) :
    execEncSym b s = .next (symEffect r b s) := by
  rw [execEncSym, withRom_some hr]
  simp only [hi, if_true]

/-- ENC.FLUSH on an instance. -/
theorem execEncFlush_next {s : State} {r : Rom} (hr : s.tb.rom = some r) (hi : ¬ s.enc.idx < s.enc.len) :
    execEncFlush s = .next (flushEffect s) := by
  rw [execEncFlush, withRom_some hr]
  simp only [hi, if_false]

/-! ### One agent's turn, with its instruction run -/

/-- What a turn of agent `a` comes to. -/
def turnResult (a : Agent) (s : State) : Result :=
  match agentTurn a s with
  | .run i t => exec i t
  | .quiet t => .next t
  | .fault f => .fault f
  | .refuse r => .refused r

/-- A step is a turn of the default agent, or of the first scheduled one, taken off the schedule. -/
theorem step_eq_turn (s : State) :
    (s.turns = [] ∧ step s = turnResult (defaultAgent s) s) ∨
    (∃ a ts, s.turns = a :: ts ∧ step s = turnResult a { s with turns := ts }) := by
  unfold step nextAction turnResult
  cases s.turns with
  | nil => exact .inl ⟨rfl, rfl⟩
  | cons a ts => exact .inr ⟨a, ts, rfl, rfl⟩

/-- A step that goes on is some agent's turn, from the state or from the state with a shorter schedule. -/
theorem step_next {s t : State} (h : step s = .next t) :
    ∃ a ts, turnResult a { s with turns := ts } = .next t := by
  rcases step_eq_turn s with ⟨ht, he⟩ | ⟨a, ts, _, he⟩
  · refine ⟨defaultAgent s, [], ?_⟩
    have : { s with turns := [] } = s := by rw [← ht]
    rw [this, ← he, h]
  · exact ⟨a, ts, by rw [← he, h]⟩

/-- The decoder's turn. -/
theorem turnResult_dec (s : State) : turnResult .dec s = if s.dec.busy then execDecStep s else .next s := by
  unfold turnResult agentTurn decoderTurn
  cases hb : s.dec.busy with
  | false => rfl
  | true =>
    simp only [if_true]
    cases hr : s.tb.rom with
    | none => rw [execDecStep, withRom_none hr]
    | some r =>
      rw [execDecStep, withRom_some hr]
      by_cases h0 : s.dec.rem = 0
      · simp only [h0, if_true]
        show execDecEnd s = _
        rw [execDecEnd, withRom_some hr]
        simp only [h0, if_true]
      · by_cases hl : s.dec.lvl < s.nlevels
        · simp only [h0, hl, if_true, if_false, withNode]
          exact exec_decodeN hr h0 _ _
        · simp only [h0, hl, if_false, withNode]

/-- The encoder's turn. -/
theorem turnResult_enc {s : State} {r : Rom} (hr : s.tb.rom = some r) :
    turnResult .enc s =
      .next (if s.enc.busy then (if s.enc.idx < s.enc.len then symEffect r (readByte s.lit s.enc.idx) s else flushEffect s) else s) := by
  unfold turnResult
  show (match encoderTurn s with | .run i t => exec i t | .quiet t => .next t | .fault f => .fault f | .refuse r => .refused r) = _
  cases hb : s.enc.busy with
  | false => simp only [encoderTurn, hb]; rfl
  | true =>
    by_cases hi : s.enc.idx < s.enc.len
    · rw [encoderTurn_sym hb hi]
      simp only [hi, if_true]
      exact execEncSym_next hr hi _
    · rw [encoderTurn_flush hb hi]
      simp only [hi, if_true, if_false]
      exact execEncFlush_next hr hi

/-- The encoder's turn with no image. -/
theorem turnResult_enc_none {s : State} (hr : s.tb.rom = none) :
    turnResult .enc s = if s.enc.busy then .refused .noInstance else .next s := by
  unfold turnResult
  show (match encoderTurn s with | .run i t => exec i t | .quiet t => .next t | .fault f => .fault f | .refuse r => .refused r) = _
  cases hb : s.enc.busy with
  | false => simp only [encoderTurn, hb]; rfl
  | true =>
    by_cases hi : s.enc.idx < s.enc.len
    · rw [encoderTurn_sym hb hi]
      show execEncSym _ s = _
      rw [execEncSym, withRom_none hr]
      rfl
    · rw [encoderTurn_flush hb hi]
      show execEncFlush s = _
      rw [execEncFlush, withRom_none hr]
      rfl

/-- What a command that goes on does (R59, R85, R110, R116, R118). -/
theorem exec_decodeC_next {s t : State} {op : BitVec 3} (h : exec (decodeC op) s = .next t) :
    ∃ r, s.tb.rom = some r ∧
      (t = s.setCmd op ∨
       (op = 1#3 ∧ s.dec.busy = false ∧ t = startDecode (s.setCmd op)) ∨
       (s.enc.busy = false ∧ ((op = 2#3 ∧ t = startEncode (s.setCmd op)) ∨ (op = 3#3 ∧ t = sizeEffect r (s.setCmd op)) ∨
         (op = 4#3 ∧ t = getcodeEffect r (s.setCmd op))))) := by
  have all : ∀ op : BitVec 3, op = 0#3 ∨ op = 1#3 ∨ op = 2#3 ∨ op = 3#3 ∨ op = 4#3 ∨ op = 5#3 ∨ op = 6#3 ∨ op = 7#3 := by decide
  have idle : ∀ op, idleCommand op s = .next t → ∃ r, s.tb.rom = some r ∧ t = s.setCmd op := by
    intro op h
    have := idleCommand_next h
    obtain ⟨r, hr, _⟩ := withRom_next h
    exact ⟨r, hr, this⟩
  rcases all op with rfl | rfl | rfl | rfl | rfl | rfl | rfl | rfl
  · obtain ⟨r, hr, h⟩ := idle _ h; exact ⟨r, hr, .inl h⟩
  · obtain ⟨hb, ⟨r, hr⟩, h⟩ := decoderCommand_next h
    exact ⟨r, hr, .inr (.inl ⟨rfl, hb, h⟩)⟩
  · obtain ⟨hb, r, hr, h⟩ := encoderCommand_next h
    exact ⟨r, hr, .inr (.inr ⟨hb, .inl ⟨rfl, h⟩⟩)⟩
  · obtain ⟨hb, r, hr, h⟩ := encoderCommand_next h
    exact ⟨r, hr, .inr (.inr ⟨hb, .inr (.inl ⟨rfl, h⟩)⟩)⟩
  · obtain ⟨hb, r, hr, h⟩ := encoderCommand_next h
    exact ⟨r, hr, .inr (.inr ⟨hb, .inr (.inr ⟨rfl, h⟩)⟩)⟩
  · obtain ⟨r, hr, h⟩ := idle _ h; exact ⟨r, hr, .inl h⟩
  · obtain ⟨r, hr, h⟩ := idle _ h; exact ⟨r, hr, .inl h⟩
  · obtain ⟨r, hr, h⟩ := idle _ h; exact ⟨r, hr, .inl h⟩

/-- What a host move is, once made: an instruction run, or a change of the state. -/
def moveResult (m : HostMove) (s : State) : Result :=
  match hostAction m s with
  | .run i t => exec i t
  | .quiet t => .next t
  | .fault f => .fault f
  | .refuse r => .refused r

/-- The host's turn: nothing, or its oldest pending move. -/
theorem turnResult_host (s : State) :
    (s.host = [] ∧ turnResult .host s = .next s) ∨
    (∃ m rest, s.host = m :: rest ∧ hostMayMove m s = false ∧ turnResult .host s = .next s) ∨
    (∃ m rest, s.host = m :: rest ∧ hostMayMove m s = true ∧ turnResult .host s = moveResult m { s with host := rest }) := by
  unfold turnResult
  show _ ∨ _
  cases hh : s.host with
  | nil => exact .inl ⟨rfl, by simp only [agentTurn, hostTurn, hh]⟩
  | cons m rest =>
    right
    cases hm : hostMayMove m s with
    | false => exact .inl ⟨m, rest, rfl, hm, by simp [agentTurn, hostTurn, hh, hm]⟩
    | true => exact .inr ⟨m, rest, rfl, hm, by simp [agentTurn, hostTurn, hh, hm, moveResult]⟩

/-- A step with the host scheduled and a move pending: the move is made, or it waits while a duty forbids it (log 5). -/
theorem step_hostMove {s : State} {m : HostMove} {ms : List HostMove} {ts : List Agent} (h1 : s.turns = .host :: ts)
    (h2 : s.host = m :: ms) :
    step s = if hostMayMove m { s with turns := ts } then moveResult m { s with turns := ts, host := ms }
             else .next { s with turns := ts } := by
  have e : step s = turnResult .host { s with turns := ts } := by
    rcases step_eq_turn s with ⟨h, _⟩ | ⟨a, ts', h, e⟩
    · rw [h1] at h; cases h
    · rw [h1] at h; cases h; exact e
  have hh : ({ s with turns := ts } : State).host = m :: ms := h2
  rcases turnResult_host { s with turns := ts } with ⟨h, _⟩ | ⟨_, _, h, hm, e'⟩ | ⟨_, _, h, hm, e'⟩
  · rw [hh] at h; cases h
  · rw [hh] at h; cases h
    rw [e, e', hm]; rfl
  · rw [hh] at h; cases h
    rw [e, e', hm]; rfl

/-- The host may start DECODE: the decoder is idle and IBUF holds the bytes named (R166 (a), (d)). -/
theorem hostMayMove_decode (s : State) :
    hostMayMove (.writeCmd 1#3) s = true ↔ s.dec.busy = false ∧ s.regs.argLen ≤ s.ibufLen := by
  simp [hostMayMove, State.decIdle, lengthIsTrue]

/-- The host may start ENCODE: the encoder is idle and LIT holds the bytes named (R166 (a), (d)). -/
theorem hostMayMove_encode (s : State) :
    hostMayMove (.writeCmd 2#3) s = true ↔ s.enc.busy = false ∧ s.regs.argLen ≤ s.litLen := by
  simp [hostMayMove, State.encIdle, lengthIsTrue]

/-- The same for SIZE. -/
theorem hostMayMove_size (s : State) :
    hostMayMove (.writeCmd 3#3) s = true ↔ s.enc.busy = false ∧ s.regs.argLen ≤ s.litLen := by
  simp [hostMayMove, State.encIdle, lengthIsTrue]

/-- GETCODE takes no length. -/
theorem hostMayMove_getcode (s : State) : hostMayMove (.writeCmd 4#3) s = true ↔ s.enc.busy = false := by
  simp [hostMayMove, State.encIdle]

end Sys2Proof.Machine
end

