-- ==== Sys2Proof/Laws/Builder.lean ====
section
/-! SUPPORT. The tree builder: what its meanings write, its checks said without loops, and the composition of insertions (spec/40_tree_builder.md R71 to R79). -/

namespace Sys2Proof.Machine

open Sys2Proof.Safety

/-! ### Frames -/

/-- Recording how a build ended writes the build record, the images and the model's counter only. -/
theorem recordBuild_frame (s : State) (e : Except (BuildCause × Nat) TbWork) :
    recordBuild s e = { s with tb := (recordBuild s e).tb, free := (recordBuild s e).free } := by
  cases e <;> rfl

/-- How a build ended is recorded alike from any image under construction. -/
theorem recordBuild_work (s : State) (t : Tb) (e : Except (BuildCause × Nat) TbWork) :
    recordBuild { s with tb := t } e = recordBuild s e := by
  cases e <;> rfl

theorem execTbValidate_writes {s t : State} (h : execTbValidate s = .next t) : t = { s with tb := t.tb, free := t.free } := by
  unfold execTbValidate at h
  split at h
  · split at h
    · split at h <;> cases h <;> rfl
    · cases h
  · cases h

theorem execTbInsert_writes {s t : State} {len : BitVec 5} {code : BitVec 30} (h : execTbInsert len code s = .next t) :
    t = { s with tb := t.tb, free := t.free } := by
  unfold execTbInsert at h
  split at h
  · cases h
  · split at h
    · split at h <;> cases h <;> rfl
    · cases h

theorem execTbBuild_writes {s t : State} (h : execTbBuild s = .next t) : t = { s with tb := t.tb, free := t.free } := by
  unfold execTbBuild at h
  split at h
  · cases h
    exact recordBuild_frame _ _
  · split at h
    · split at h
      · cases h
        exact recordBuild_frame _ _
      · cases h
    · cases h

/-- A format T word is TB.INSERT or is refused (R51). -/
theorem decodeT_ok {w : BitVec 40} {i : Instr} (h : decodeT w = .ok i) : ∃ len code, i = .tbInsert len code := by
  unfold decodeT at h
  simp only at h
  split at h
  · cases h
  · split at h
    · cases h
    · cases h
      exact ⟨_, _, rfl⟩

/-- TB's turn writes the build record, the images and the model's counter only. -/
theorem turnResult_tb_writes {s t : State} (h : turnResult .tb s = .next t) : t = { s with tb := t.tb, free := t.free } := by
  unfold turnResult at h
  simp only [agentTurn, builderTurn] at h
  cases hw : s.tb.work with
  | none => simp only [hw] at h; cases h; rfl
  | some w =>
    simp only [hw] at h
    by_cases hn : w.next < Config.nsym
    · simp only [hn, if_true] at h
      cases hd : decodeT (entryWord (entryAt s.table w.next)) with
      | error e => simp only [hd] at h; cases h; rfl
      | ok i =>
        simp only [hd] at h
        obtain ⟨_, _, rfl⟩ := decodeT_ok hd
        exact execTbInsert_writes h
    · simp only [hn, if_false] at h
      exact execTbBuild_writes h

/-! ### The checks (R71) -/

theorem checkFields_none {len code : Nat} : checkFields len code = none ↔ 1 ≤ len ∧ len ≤ 30 ∧ code < 2 ^ len := by
  unfold checkFields
  rw [Nat.shiftRight_eq_div_pow]
  by_cases h1 : len < Config.minLen ∨ Config.maxLen < len
  · simp only [h1, if_true]
    simp only [Config.minLen, Config.maxLen] at h1
    constructor
    · intro h; cases h
    · intro h; omega
  · simp only [h1, if_false]
    simp only [Config.minLen, Config.maxLen] at h1
    by_cases h2 : code / 2 ^ len = 0
    · simp only [h2, ne_eq, not_true_eq_false, if_false, true_iff]
      exact ⟨by omega, by omega, (Nat.div_eq_zero_iff_lt (Nat.two_pow_pos _)).mp h2⟩
    · simp only [h2, ne_eq, not_false_eq_true, if_true]
      constructor
      · intro h; cases h
      · intro h; exact absurd ((Nat.div_eq_zero_iff_lt (Nat.two_pow_pos _)).mpr h.2.2) h2

theorem checkEntry_none {t : CodeTable} {i : Nat} : checkEntry t i = none ↔ ValidEntry (entryAt t i) :=
  checkFields_none

/-- TB.VALIDATE finds nothing exactly in a valid table (R52). -/
theorem validateTable_none {t : CodeTable} : validateTable t = none ↔ ValidTable t := by
  unfold validateTable ValidTable
  rw [List.findSome?_eq_none_iff]
  constructor
  · intro h i hi
    have := h i (List.mem_range.mpr hi)
    rw [Option.map_eq_none_iff] at this
    exact checkEntry_none.mp this
  · intro h i hi
    rw [Option.map_eq_none_iff]
    exact checkEntry_none.mpr (h i (List.mem_range.mp hi))

/-- A valid entry, decoded from its word, is TB.INSERT of its fields (R51). -/
theorem decodeT_entryWord {e : CodeEntry} (h : ValidEntry e) :
    decodeT (entryWord e) = .ok (.tbInsert (e.len.setWidth 5) (e.code.setWidth 30)) := by
  obtain ⟨h1, h2, h3⟩ := h
  have hcat : (entryWord e).toNat = e.len.toNat * 2 ^ 32 + e.code.toNat := by
    show (e.len ++ e.code).toNat = _
    rw [BitVec.toNat_append, ← Nat.shiftLeft_add_eq_or_of_lt e.code.isLt, Nat.shiftLeft_eq]
  have hl := e.len.isLt
  have hc := e.code.isLt
  have e1 : (entryWord e).extractLsb' 32 8 = e.len := by
    apply BitVec.eq_of_toNat_eq
    rw [BitVec.extractLsb'_toNat, hcat, Nat.shiftRight_eq_div_pow]
    omega
  have e2 : (entryWord e).extractLsb' 0 32 = e.code := by
    apply BitVec.eq_of_toNat_eq
    rw [BitVec.extractLsb'_toNat, hcat, Nat.shiftRight_eq_div_pow]
    omega
  unfold decodeT
  simp only [e1, e2]
  have c1 : ¬ (e.len.toNat < Config.minLen ∨ Config.maxLen < e.len.toNat) := by
    simp only [Config.minLen]
    omega
  have c2 : e.code.toNat >>> e.len.toNat = 0 := by
    rw [Nat.shiftRight_eq_div_pow]
    exact Nat.div_eq_of_lt h3
  simp only [c1, c2, if_false, ne_eq, not_true_eq_false]

/-- The fields of TB.INSERT hold a valid entry whole. -/
theorem entry_fields_toNat {e : CodeEntry} (h : ValidEntry e) :
    (e.len.setWidth 5).toNat = e.len.toNat ∧ (e.code.setWidth 30).toNat = e.code.toNat := by
  obtain ⟨_, h2, h3⟩ := h
  have : e.code.toNat < 2 ^ 30 := lt_of_lt_of_le h3 (Nat.pow_le_pow_right (by decide) h2)
  simp only [Config.maxLen] at h2
  constructor
  · rw [BitVec.toNat_setWidth]; omega
  · rw [BitVec.toNat_setWidth]; omega

/-! ### Insertions in sequence (R74) -/

theorem insertNext_next {maxLevels len code : Nat} {w w' : TbWork} (h : insertNext maxLevels len code w = .ok w') :
    w'.next = w.next + 1 := by
  unfold insertNext at h
  split at h
  · cases h
  · split at h
    · cases h
    · cases h
      rfl

/-- Inserting `a` entries and then `b` more is inserting `a + b`. -/
theorem insertMany_add (maxLevels : Nat) (t : CodeTable) (a b : Nat) (w : TbWork) :
    insertMany maxLevels t (a + b) w =
      match insertMany maxLevels t a w with
      | .ok w' => insertMany maxLevels t b w'
      | .error e => .error e := by
  induction a generalizing w with
  | zero => simp only [Nat.zero_add, insertMany]
  | succ a ih =>
    rw [Nat.succ_add]
    simp only [insertMany]
    cases insertNext maxLevels (entryAt t w.next).len.toNat (entryAt t w.next).code.toNat w with
    | error c => rfl
    | ok w' => exact ih w'

/-- After `k` insertions the next entry is `k` further. -/
theorem insertMany_next {maxLevels : Nat} {t : CodeTable} {k : Nat} {w w' : TbWork}
    (h : insertMany maxLevels t k w = .ok w') : w'.next = w.next + k := by
  induction k generalizing w with
  | zero => cases h; rfl
  | succ k ih =>
    simp only [insertMany] at h
    split at h
    · cases h
    · rename_i w1 h1
      rw [ih h, insertNext_next h1]
      omega

/-! ### The canonical form and the level count of an image under construction -/

/-- What an insertion keeps: the canonical form, at least one level, no more levels than MAX_LEVELS. -/
theorem descend_keeps {maxLevels code : Nat} (fuel : Nat) {d d' : Descent} (h : descend maxLevels code fuel d = .ok d')
    (hw : Memory.wf emptyWord d.trie = true) (hn : d.n ≤ maxLevels) :
    Memory.wf emptyWord d'.trie = true ∧ d.n ≤ d'.n ∧ d'.n ≤ maxLevels := by
  induction fuel generalizing d with
  | zero => cases h; exact ⟨hw, le_refl _, hn⟩
  | succ fuel ih =>
    simp only [descend] at h
    split at h
    · cases h; exact ⟨hw, le_refl _, hn⟩
    · split at h
      · rename_i next _
        exact ih (d := ⟨d.trie, d.n, next.toNat, d.r - 8⟩) h hw hn
      · split at h
        · cases h
        · rename_i hlt
          obtain ⟨a, b, c⟩ := ih h (wf_setTrieWord (Memory.wf_clear hw _ _) _ _ _) (by simp only [allocLevel]; omega)
          simp only [allocLevel] at b
          exact ⟨a, by omega, c⟩
      · cases h
      · cases h

theorem fill_keeps {leaf : NodeWord} {lvl : Nat} (count : Nat) {k : Nat} {trie trie' : Memory NodeWord}
    (h : fill leaf lvl count k trie = .ok trie') (hw : Memory.wf emptyWord trie = true) :
    Memory.wf emptyWord trie' = true := by
  induction count generalizing k trie with
  | zero => cases h; exact hw
  | succ count ih =>
    simp only [fill] at h
    split at h
    · cases h
    · exact ih h (wf_setTrieWord hw _ _ _)

theorem insertNext_keeps {maxLevels len code : Nat} {w w' : TbWork} (h : insertNext maxLevels len code w = .ok w')
    (hw : Memory.wf emptyWord w.trie = true) (hn : w.n ≤ maxLevels) :
    Memory.wf emptyWord w'.trie = true ∧ w.n ≤ w'.n ∧ w'.n ≤ maxLevels := by
  unfold insertNext at h
  split at h
  · cases h
  · unfold insertCode at h
    cases hd : descend maxLevels code Config.maxDepth ⟨w.trie, w.n, 0, len⟩ with
    | error c => simp only [hd] at h; cases h
    | ok d =>
      simp only [hd] at h
      obtain ⟨a, b, c⟩ := descend_keeps _ hd hw hn
      cases hf : fill (leafWord w.next d.r) d.lvl (fillSize d.r) (fillBase code d.r) d.trie with
      | error c => simp only [hf] at h; cases h
      | ok trie' =>
        simp only [hf] at h
        cases h
        exact ⟨fill_keeps _ hf a, b, c⟩

theorem insertMany_keeps {maxLevels : Nat} {t : CodeTable} {k : Nat} {w w' : TbWork}
    (h : insertMany maxLevels t k w = .ok w') (hw : Memory.wf emptyWord w.trie = true) (hn : w.n ≤ maxLevels) :
    Memory.wf emptyWord w'.trie = true ∧ w.n ≤ w'.n ∧ w'.n ≤ maxLevels := by
  induction k generalizing w with
  | zero => cases h; exact ⟨hw, le_refl _, hn⟩
  | succ k ih =>
    simp only [insertMany] at h
    split at h
    · cases h
    · rename_i w1 h1
      obtain ⟨a, b, c⟩ := insertNext_keeps h1 hw hn
      obtain ⟨a', b', c'⟩ := ih h a c
      exact ⟨a', by omega, c'⟩

/-- An insertion of a valid entry that fails does so with NOT_PREFIX_FREE or LEVEL_OVERFLOW (R143). -/
theorem insertCode_error {maxLevels code len sym : Nat} {trie : Memory NodeWord} {n : Nat} {c : BuildCause}
    (h : insertCode maxLevels code len sym trie n = .error c) : c = .notPrefixFree ∨ c = .levelOverflow := by
  have hd : ∀ fuel d c, descend maxLevels code fuel d = .error c → c = .notPrefixFree ∨ c = .levelOverflow := by
    intro fuel
    induction fuel with
    | zero => intro d c h; cases h
    | succ fuel ih =>
      intro d c h
      simp only [descend] at h
      split at h
      · cases h
      · split at h
        · exact ih _ _ h
        · split at h
          · cases h; exact .inr rfl
          · exact ih _ _ h
        · cases h; exact .inl rfl
        · cases h; exact .inl rfl
  have hf : ∀ count leaf lvl k trie c, fill leaf lvl count k trie = .error c → c = .notPrefixFree := by
    intro count
    induction count with
    | zero => intro leaf lvl k trie c h; cases h
    | succ count ih =>
      intro leaf lvl k trie c h
      simp only [fill] at h
      split at h
      · cases h; rfl
      · exact ih _ _ _ _ _ h
  unfold insertCode at h
  split at h
  · rename_i c' hc
    cases h
    exact hd _ _ _ hc
  · split at h
    · rename_i c' hc
      cases h
      exact .inl (hf _ _ _ _ _ _ hc)
    · cases h

/-- A failing run of insertions of valid entries names the entry that failed, with NOT_PREFIX_FREE or LEVEL_OVERFLOW (R143). -/
theorem insertMany_error {maxLevels k i : Nat} {t : CodeTable} {w : TbWork} {c : BuildCause}
    (h : insertMany maxLevels t k w = .error (c, i))
    (hv : ∀ j, w.next ≤ j → j < w.next + k → ValidEntry (entryAt t j)) :
    (c = .notPrefixFree ∨ c = .levelOverflow) ∧ w.next ≤ i ∧ i < w.next + k := by
  induction k generalizing w with
  | zero => cases h
  | succ k ih =>
    simp only [insertMany] at h
    split at h
    · rename_i c' hc
      cases h
      unfold insertNext at hc
      rw [checkFields_none.mpr (hv w.next (le_refl _) (by omega))] at hc
      simp only at hc
      split at hc
      · cases hc
        exact ⟨insertCode_error (by assumption), le_refl _, by omega⟩
      · cases hc
    · rename_i w' hw'
      have hn := insertNext_next hw'
      obtain ⟨a, b, c⟩ := ih h (fun j h1 h2 => hv j (by omega) (by omega))
      exact ⟨a, by omega, by omega⟩

/-- What TB.VALIDATE reports: an index of the table and the cause its entry fails with (R71). -/
theorem validateTable_some {t : CodeTable} {c : BuildCause} {i : Nat} (h : validateTable t = some (c, i)) :
    i < Config.nsym ∧ checkEntry t i = some c := by
  unfold validateTable at h
  rw [List.findSome?_eq_some_iff] at h
  obtain ⟨l1, a, l2, h1, h2, _⟩ := h
  simp only [Option.map_eq_some_iff, Prod.mk.injEq] at h2
  obtain ⟨c', hc, rfl, rfl⟩ := h2
  have : a ∈ List.range Config.nsym := by rw [h1]; simp
  exact ⟨List.mem_range.mp this, hc⟩

/-- The cause an entry's fields fail with is one of the two of R71. -/
theorem checkFields_some {len code : Nat} {c : BuildCause} (h : checkFields len code = some c) :
    c = .badLength ∨ c = .badCode := by
  unfold checkFields at h
  split at h
  · cases h
    exact .inl rfl
  · split at h
    · cases h
      exact .inr rfl
    · cases h

/-! ### What a built instance is -/

/-- A built instance: the image its build made, the code ROM that is its table, NLEVELS (R74). -/
theorem built_image {s : State} (h : Built s) :
    ∃ w, buildTable s.maxLevels s.table = .ok w ∧ s.tb.ok = true ∧ s.tb.work = none ∧
      s.tb.rom = some { trie := w.trie, code := Memory.restrict Config.nsym s.table } ∧ s.tb.nlevels = BitVec.ofNat 11 w.n := by
  obtain ⟨_, h⟩ := h
  cases hb : buildTable s.maxLevels s.table with
  | error e => simp only [hb] at h
  | ok w =>
    simp only [hb] at h
    exact ⟨w, rfl, by rw [h]; rfl, by rw [h]; rfl, by rw [h]; rfl, by rw [h]; rfl⟩

/-- A build that succeeds has validated the table and inserted its 257 entries. -/
theorem buildTable_ok {maxLevels : Nat} {t : CodeTable} {w : TbWork} (h : buildTable maxLevels t = .ok w) :
    ValidTable t ∧ insertMany maxLevels t Config.nsym emptyWork = .ok w := by
  unfold buildTable at h
  split at h
  · cases h
  · rename_i hv
    exact ⟨validateTable_none.mp hv, h⟩

end Sys2Proof.Machine
end

