-- ==== Sys2Proof/Laws/Codes.lean ====
section
/-! SUPPORT. The words TB writes, read back (spec/30_encoding.md R56, R57), and the prefix relation of codes as arithmetic (R52). -/

namespace Sys2Proof.Machine

open Sys2Proof.Safety

theorem branchWord_toNat {m : Nat} (h : m < 1024) : (branchWord m).toNat = 0x8000 + m := by
  have e : 0x8000 ||| m = 0x8000 + m := by
    have := Nat.two_pow_add_eq_or_of_lt (i := 15) (b := m) (by omega) 1
    simpa using this.symm
  simp only [branchWord, e, BitVec.toNat_ofNat]
  omega

theorem leafWord_toNat {sym bits : Nat} (hs : sym < 512) (hb : bits < 16) :
    (leafWord sym bits).toNat = 0x4000 + 16 * sym + bits := by
  have e1 : 0x4000 ||| (sym <<< 4) = 0x4000 + 16 * sym := by
    have := Nat.two_pow_add_eq_or_of_lt (i := 14) (b := sym <<< 4) (by rw [Nat.shiftLeft_eq]; omega) 1
    rw [show (16384 : Nat) = 2 ^ 14 * 1 from rfl, ← this, Nat.shiftLeft_eq]
    omega
  have e2 : (0x4000 + 16 * sym) ||| bits = 0x4000 + 16 * sym + bits := by
    have := Nat.two_pow_add_eq_or_of_lt (i := 4) (b := bits) (by omega) (0x400 + sym)
    have e : 2 ^ 4 * (0x400 + sym) = 0x4000 + 16 * sym := by omega
    rw [e] at this
    exact this.symm
  simp only [leafWord, e1, e2, BitVec.toNat_ofNat]
  omega

/-- A BRANCH word of an existing level reads back as that branch (R57). -/
theorem nodeDecode_branchWord {nlevels m : Nat} (h1 : 1 ≤ m) (h2 : m < nlevels) (h3 : m < 1024) :
    nodeDecode nlevels (branchWord m) = .branch (BitVec.ofNat 10 m) := by
  have hn := branchWord_toNat h3
  have c0 : ¬ branchWord m = 0x0000#16 := by
    intro h
    rw [h] at hn
    simp only [BitVec.toNat_ofNat] at hn
    omega
  have c1 : ¬ ((branchWord m).extractLsb' 14 2 = 0b01#2 ∧ (branchWord m).extractLsb' 13 1 = 0#1) := by
    rintro ⟨h, _⟩
    have := congrArg BitVec.toNat h
    rw [BitVec.extractLsb'_toNat, hn, Nat.shiftRight_eq_div_pow] at this
    simp only [BitVec.toNat_ofNat] at this
    omega
  have c2 : (branchWord m).extractLsb' 14 2 = 0b10#2 ∧ (branchWord m).extractLsb' 10 4 = 0#4 := by
    constructor
    · apply BitVec.eq_of_toNat_eq
      rw [BitVec.extractLsb'_toNat, hn, Nat.shiftRight_eq_div_pow]
      simp only [BitVec.toNat_ofNat]
      omega
    · apply BitVec.eq_of_toNat_eq
      rw [BitVec.extractLsb'_toNat, hn, Nat.shiftRight_eq_div_pow]
      simp only [BitVec.toNat_ofNat]
      omega
  have c3 : (branchWord m).extractLsb' 0 10 = BitVec.ofNat 10 m := by
    apply BitVec.eq_of_toNat_eq
    rw [BitVec.extractLsb'_toNat, hn, Nat.shiftRight_eq_div_pow]
    simp only [BitVec.toNat_ofNat]
    omega
  have c4 : 1 ≤ (BitVec.ofNat 10 m).toNat ∧ (BitVec.ofNat 10 m).toNat < nlevels := by
    simp only [BitVec.toNat_ofNat]
    omega
  unfold nodeDecode
  rw [if_neg c0, if_neg c1, if_pos c2]
  simp only [c3]
  rw [if_pos c4]

/-- A LEAF word of legal fields reads back as that leaf (R56). -/
theorem nodeDecode_leafWord {nlevels sym bits : Nat} (h1 : sym ≤ 256) (h2 : 1 ≤ bits) (h3 : bits ≤ 8) :
    nodeDecode nlevels (leafWord sym bits) = .leaf (BitVec.ofNat 9 sym) (BitVec.ofNat 4 bits) := by
  have hn := leafWord_toNat (sym := sym) (bits := bits) (by omega) (by omega)
  have c0 : ¬ leafWord sym bits = 0x0000#16 := by
    intro h
    rw [h] at hn
    simp only [BitVec.toNat_ofNat] at hn
    omega
  have c1 : (leafWord sym bits).extractLsb' 14 2 = 0b01#2 ∧ (leafWord sym bits).extractLsb' 13 1 = 0#1 := by
    constructor
    · apply BitVec.eq_of_toNat_eq
      rw [BitVec.extractLsb'_toNat, hn, Nat.shiftRight_eq_div_pow]
      simp only [BitVec.toNat_ofNat]
      omega
    · apply BitVec.eq_of_toNat_eq
      rw [BitVec.extractLsb'_toNat, hn, Nat.shiftRight_eq_div_pow]
      simp only [BitVec.toNat_ofNat]
      omega
  have c2 : (leafWord sym bits).extractLsb' 4 9 = BitVec.ofNat 9 sym := by
    apply BitVec.eq_of_toNat_eq
    rw [BitVec.extractLsb'_toNat, hn, Nat.shiftRight_eq_div_pow]
    simp only [BitVec.toNat_ofNat]
    omega
  have c3 : (leafWord sym bits).extractLsb' 0 4 = BitVec.ofNat 4 bits := by
    apply BitVec.eq_of_toNat_eq
    rw [BitVec.extractLsb'_toNat, hn, Nat.shiftRight_eq_div_pow]
    simp only [BitVec.toNat_ofNat]
    omega
  have c4 : (BitVec.ofNat 9 sym).toNat ≤ Config.eos ∧ 1 ≤ (BitVec.ofNat 4 bits).toNat ∧ (BitVec.ofNat 4 bits).toNat ≤ 8 := by
    simp only [BitVec.toNat_ofNat, Config.eos]
    omega
  unfold nodeDecode
  rw [if_neg c0, if_pos c1]
  simp only [c2, c3]
  rw [if_pos c4]

/-- A code begins another exactly when it is what the other's first bits spell (R52). -/
theorem codeBits_prefix_iff {e f : CodeEntry} (he : e.code.toNat < 2 ^ e.len.toNat) (hf : f.code.toNat < 2 ^ f.len.toNat) :
    codeBits e <+: codeBits f ↔
      e.len.toNat ≤ f.len.toNat ∧ f.code.toNat / 2 ^ (f.len.toNat - e.len.toNat) = e.code.toNat := by
  constructor
  · intro h
    have hl : e.len.toNat ≤ f.len.toNat := by simpa using h.length_le
    refine ⟨hl, ?_⟩
    rw [← Nat.shiftRight_eq_div_pow]
    apply Nat.eq_of_testBit_eq
    intro i
    rw [Nat.testBit_shiftRight]
    by_cases hi : i < e.len.toNat
    · have hg := h.getElem (i := e.len.toNat - 1 - i) (by simp only [codeBits_length]; omega)
      rw [codeBits_getElem, codeBits_getElem] at hg
      have e1 : e.len.toNat - 1 - (e.len.toNat - 1 - i) = i := by omega
      have e2 : f.len.toNat - 1 - (e.len.toNat - 1 - i) = f.len.toNat - e.len.toNat + i := by omega
      rw [e1, e2] at hg
      exact hg.symm
    · rw [Nat.testBit_lt_two_pow (lt_of_lt_of_le he (Nat.pow_le_pow_right (by decide) (by omega))),
        Nat.testBit_lt_two_pow (lt_of_lt_of_le hf (Nat.pow_le_pow_right (by decide) (by omega)))]
  · rintro ⟨hl, hc⟩
    rw [List.prefix_iff_eq_take]
    apply List.ext_getElem
    · simp only [List.length_take, codeBits_length]
      omega
    · intro j h1 h2
      simp only [codeBits_length] at h1
      rw [List.getElem_take, codeBits_getElem, codeBits_getElem]
      show e.code.toNat.testBit _ = f.code.toNat.testBit _
      rw [← hc, ← Nat.shiftRight_eq_div_pow, Nat.testBit_shiftRight]
      congr 1
      omega

end Sys2Proof.Machine
end

