-- ==== Sys2Proof/Laws/Decoder.lean ====
section
/-! SUPPORT. A DEC.STEP inside a walk: what it keeps, how far it moves, and what it writes (spec/41_decoder.md R88, R97). -/

namespace Sys2Proof.Machine

open Host (Outcome)

/-- A walk position inside the image and the buffer (R11, R36). -/
def OnWalk (s : State) : Prop := s.dec.lvl < s.nlevels ∧ s.dec.cur ≤ 8 * s.dec.len

/-- A DEC.STEP writes the decoder's registers and appends to OUT, and nothing else. -/
theorem execDecStep_writes {s t : State} (h : execDecStep s = .next t) : t = { s with dec := t.dec, out := t.out } := by
  rcases execDecStep_outcome h with rfl | ⟨c, _, rfl⟩ | ⟨_, _, _, _, _, _, _, _, _, rfl⟩ | ⟨_, _, _, _, _, _, rfl⟩ <;> rfl

/-- A DEC.STEP on a walk goes on; either the operation has ended, with the cursor where it was, or the cursor has advanced and the
walk position is again inside the image and the buffer. -/
theorem execDecStep_onWalk {s : State} {r : Rom} (hr : s.tb.rom = some r) (hw : OnWalk s) (hb : s.dec.busy = true) :
    ∃ t, execDecStep s = .next t ∧
      ((t.dec.busy = false ∧ t.dec.done = true ∧ t.dec.cur = s.dec.cur) ∨
       (t.dec.busy = true ∧ s.dec.cur < t.dec.cur ∧ t.dec.len = s.dec.len ∧ OnWalk t)) := by
  obtain ⟨hl, hc⟩ := hw
  obtain ⟨t, ht⟩ := execDecStep_total hr (.inr hl)
  refine ⟨t, ht, ?_⟩
  have hrem : s.dec.rem = 8 * s.dec.len - s.dec.cur := rfl
  rcases execDecStep_outcome ht with rfl | ⟨c, _, rfl⟩ | ⟨_, sym, bits, _, _, hn, _, hbr, _, rfl⟩ | ⟨_, next, _, _, hn, h8, rfl⟩
  · exact .inl ⟨rfl, rfl, rfl⟩
  · exact .inl ⟨rfl, rfl, rfl⟩
  · obtain ⟨_, _, _, _, h1, _⟩ := nodeDecode_leaf hn
    refine .inr ⟨hb, ?_, rfl, ?_, ?_⟩
    · show s.dec.cur < s.dec.cur + bits.toNat
      omega
    · exact Nat.lt_of_le_of_lt (Nat.zero_le _) hl
    · show s.dec.cur + bits.toNat ≤ 8 * s.dec.len
      omega
  · obtain ⟨_, _, _, h2⟩ := nodeDecode_branch hn
    refine .inr ⟨hb, ?_, rfl, h2, ?_⟩
    · show s.dec.cur < s.dec.cur + 8
      omega
    · show s.dec.cur + 8 ≤ 8 * s.dec.len
      omega

/-- One more DEC.STEP of a run. -/
theorem decodeRun_succ {s t : State} (h : execDecStep s = .next t) (k : Nat) :
    decodeRun (k + 1) s = if t.dec.busy then decodeRun k t else .next t := by
  simp only [decodeRun, h]

/-- A run of DEC.STEP writes the decoder's registers and appends to OUT, and nothing else. -/
theorem decodeRun_writes {k : Nat} {s t : State} (h : decodeRun k s = .next t) : t = { s with dec := t.dec, out := t.out } := by
  induction k generalizing s with
  | zero => cases h; rfl
  | succ k ih =>
    cases hs : execDecStep s with
    | fault f => simp only [decodeRun, hs] at h; cases h
    | refused f => simp only [decodeRun, hs] at h; cases h
    | next u =>
      rw [decodeRun_succ hs] at h
      have hu := execDecStep_writes hs
      split at h
      · have := ih h
        rw [this, hu]
      · cases h
        exact hu

end Sys2Proof.Machine
end

