-- ==== Sys2Proof/Laws/Encoder.lean ====
section
/-! SUPPORT. ENC.SYM's append and drain said without the loop, and what a run of ENC.SYM keeps (spec/42_encoder.md R112, R114). -/

namespace Sys2Proof.Machine

open Sys2Proof.Safety

/-- The drain: the bytes followed by the bits left are the bits there were, and less than a byte is left. -/
theorem drain_spec (fuel acc nb : Nat) (hf : nb < 8 * fuel + 8) (ha : acc < 2 ^ nb) :
    8 * (drain fuel acc nb).bytes.length + (drain fuel acc nb).nb = nb ∧ (drain fuel acc nb).nb ≤ 7 ∧
    (drain fuel acc nb).acc < 2 ^ (drain fuel acc nb).nb ∧
    streamBits (drain fuel acc nb).bytes ++ accBits (drain fuel acc nb).acc (drain fuel acc nb).nb = accBits acc nb := by
  induction fuel generalizing acc nb with
  | zero => exact ⟨by simp [drain], by simp only [drain]; omega, ha, by simp [drain]⟩
  | succ fuel ih =>
    by_cases h8 : 8 ≤ nb
    · have hm : acc &&& ones (nb - 8) < 2 ^ (nb - 8) := by
        have := Nat.two_pow_pos (nb - 8)
        exact lt_of_le_of_lt Nat.and_le_right (by simp only [ones]; omega)
      obtain ⟨h1, h2, h3, h4⟩ := ih (acc &&& ones (nb - 8)) (nb - 8) (by omega) hm
      simp only [drain, h8, if_true]
      refine ⟨by simp only [List.length_cons]; omega, h2, h3, ?_⟩
      rw [streamBits_cons, List.append_assoc, h4, ← accBits_oldest _ _ h8]
    · simp only [drain, h8, if_false]
      exact ⟨by simp, by omega, ha, by simp⟩

/-- ENC.SYM on the accumulator: the bytes emitted followed by the bits left are the bits held followed by the code's. -/
theorem packCode_spec (e : CodeEntry) (acc nb : Nat) (he : ValidEntry e) (ha : acc < 2 ^ nb) :
    8 * (packCode e acc nb).bytes.length + (packCode e acc nb).nb = nb + e.len.toNat ∧ (packCode e acc nb).nb ≤ 7 ∧
    (packCode e acc nb).acc < 2 ^ (packCode e acc nb).nb ∧
    streamBits (packCode e acc nb).bytes ++ accBits (packCode e acc nb).acc (packCode e acc nb).nb
      = accBits acc nb ++ codeBits e := by
  have hc : codeField e < 2 ^ e.len.toNat := by rw [codeField_eq e he]; exact he.2.2
  have hlt : (acc <<< e.len.toNat ||| codeField e) < 2 ^ (nb + e.len.toNat) := by
    apply Nat.or_lt_two_pow
    · rw [Nat.shiftLeft_eq, Nat.pow_add]
      exact Nat.mul_lt_mul_of_pos_right ha (Nat.two_pow_pos _)
    · exact lt_of_lt_of_le hc (Nat.pow_le_pow_right (by decide) (by omega))
  obtain ⟨h1, h2, h3, h4⟩ := drain_spec (nb + e.len.toNat) _ _ (by omega) hlt
  refine ⟨h1, h2, h3, ?_⟩
  rw [← accBits_codeField e he.2.1, ← accBits_append _ _ _ _ hc]
  exact h4

/-- A run of ENC.SYM changes SINK and the encoder's registers only, and moves on by its length. -/
theorem symRun_frame (r : Rom) (k : Nat) (s : State) :
    symRun r k s = { s with enc := (symRun r k s).enc, sink := (symRun r k s).sink } ∧
    (symRun r k s).enc.len = s.enc.len ∧ (symRun r k s).enc.idx = s.enc.idx + k ∧
    (symRun r k s).enc.busy = s.enc.busy ∧ (symRun r k s).enc.done = s.enc.done := by
  induction k generalizing s with
  | zero => exact ⟨rfl, rfl, rfl, rfl, rfl⟩
  | succ k ih =>
    obtain ⟨h1, h2, h3, h4, h5⟩ := ih (symEffect r (readByte s.lit s.enc.idx) s)
    refine ⟨?_, h2, ?_, h4, h5⟩
    · simp only [symRun]
      rw [h1]
      rfl
    · show (symRun r k (symEffect r (readByte s.lit s.enc.idx) s)).enc.idx = _
      rw [h3]
      show s.enc.idx + 1 + k = _
      omega

/-- SIZE's sum over the literal's bytes (R116). -/
theorem sumLengths_eq (code : CodeTable) (lit : Memory Byte) (n : Nat) :
    sumLengths code lit n = ((bufferBytes lit n).map fun b => (entryAt code b.toNat).len.toNat).sum := by
  induction n with
  | zero => rfl
  | succ n ih => simp only [sumLengths, ih]; simp [bufferBytes, List.range_succ]

end Sys2Proof.Machine
end

