-- ==== Sys2Proof/Laws/PerInstr.lean ====
section
/-! SUPPORT. The per-instruction family Format: the encoding of an instruction has the format that its row of spec/opcode_table.json names, and an instruction has an encoding exactly when its row gives one (spec/30_encoding.md R50). -/

namespace Sys2Proof.Laws.Format

open Sys2Proof

/-- The formats of R50, and none. -/
inductive Kind where
  | t
  | s
  | n
  | c
  | l
  | noFormat
  deriving DecidableEq, Repr

/-- The "format" column of spec/opcode_table.json; TB.VALIDATE's word is the whole table, so it encodes nothing of its own. -/
def ofInstr : Instr → Kind
  | .nop | .decode | .encode | .size | .getcode | .reserved5 | .reserved6 | .reserved7 => .c
  | .nEmpty | .nLeafEos _ | .nLeaf _ _ | .nBranch _ | .nInvalid _ => .n
  | .tbInsert _ _ => .t
  | .encSym _ => .l
  | .sCode _ => .s
  | .tbValidate | .tbBuild | .decStart | .decStep | .decEnd | .decTail | .encStart | .encFlush => .noFormat

/-- The format of an encoded word. -/
def ofUnit : Option CodeUnit → Kind
  | some (.t _) => .t
  | some (.s _) => .s
  | some (.n _) => .n
  | some (.c _) => .c
  | some (.l _) => .l
  | none => .noFormat

/-- The encoding has the format of the instruction's row. -/
def Statement (i : Instr) : Prop := ∀ ctx : DecodeCtx, ofUnit (Sys2Proof.encode ctx i) = ofInstr i

theorem nop : Statement .nop := fun _ => rfl
theorem decode : Statement .decode := fun _ => rfl
theorem encode : Statement .encode := fun _ => rfl
theorem size : Statement .size := fun _ => rfl
theorem getcode : Statement .getcode := fun _ => rfl
theorem reserved5 : Statement .reserved5 := fun _ => rfl
theorem reserved6 : Statement .reserved6 := fun _ => rfl
theorem reserved7 : Statement .reserved7 := fun _ => rfl
theorem nEmpty : Statement .nEmpty := fun _ => rfl
theorem nLeafEos (bits : BitVec 4) : Statement (.nLeafEos bits) := fun _ => rfl
theorem nLeaf (sym : BitVec 9) (bits : BitVec 4) : Statement (.nLeaf sym bits) := fun _ => rfl
theorem nBranch (next : BitVec 10) : Statement (.nBranch next) := fun _ => rfl
theorem nInvalid (w : NodeWord) : Statement (.nInvalid w) := fun _ => rfl
theorem tbInsert (len : BitVec 5) (code : BitVec 30) : Statement (.tbInsert len code) := fun _ => rfl
theorem tbValidate : Statement .tbValidate := fun _ => rfl
theorem tbBuild : Statement .tbBuild := fun _ => rfl
theorem encSym (b : Byte) : Statement (.encSym b) := fun _ => rfl
theorem sCode (sym : BitVec 9) : Statement (.sCode sym) := fun _ => rfl
theorem decStart : Statement .decStart := fun _ => rfl
theorem decStep : Statement .decStep := fun _ => rfl
theorem decEnd : Statement .decEnd := fun _ => rfl
theorem decTail : Statement .decTail := fun _ => rfl
theorem encStart : Statement .encStart := fun _ => rfl
theorem encFlush : Statement .encFlush := fun _ => rfl

end Sys2Proof.Laws.Format
end

