-- ==== Sys2Proof/Tests/Slice0.lean ====
section
/-! SUPPORT. The model's own tests. Expected values are those of spec/95_test_vectors.md (section named at each test) or the worked examples of the rules. -/

namespace Sys2Proof.Tests

open Sys2Proof Sys2Proof.Machine Sys2Proof.Safety

/-- The state an instruction goes on in, if it does. -/
def after (o : Result) : Option State :=
  match o with
  | .next t => some t
  | .fault _ => none
  | .refused _ => none

/-- What an instruction is refused with, if it is. -/
def refusal (o : Result) : Option Refusal :=
  match o with
  | .refused r => some r
  | .next _ => none
  | .fault _ => none

/-! ### WellFormed refuses an ill-formed term of each check -/

theorem test_wf_leafEos_bits : WellFormed.instr ⟨28, []⟩ (.nLeafEos 9#4) = false := by decide
theorem test_wf_leaf_sym : WellFormed.instr ⟨28, []⟩ (.nLeaf 256#9 5#4) = false := by decide
theorem test_wf_leaf_bits : WellFormed.instr ⟨28, []⟩ (.nLeaf 3#9 0#4) = false := by decide
theorem test_wf_branch_root : WellFormed.instr ⟨28, []⟩ (.nBranch 0#10) = false := by decide
theorem test_wf_branch_past_last : WellFormed.instr ⟨28, []⟩ (.nBranch 28#10) = false := by decide
theorem test_wf_invalid_but_legal : WellFormed.instr ⟨28, []⟩ (.nInvalid 0x4035#16) = false := by decide
theorem test_wf_insert_len : WellFormed.instr ⟨28, []⟩ (.tbInsert 31#5 0#30) = false := by decide
theorem test_wf_insert_code : WellFormed.instr ⟨28, []⟩ (.tbInsert 5#5 0x20#30) = false := by decide
theorem test_wf_sCode_sym : WellFormed.instr ⟨28, []⟩ (.sCode 257#9) = false := by decide

/-! ### Decoding: words written out from the spec's encodings (R51, R53 to R59; section 4.4) -/

theorem test_dec_nop : decodeC 0b000#3 = .nop := by decide
theorem test_dec_decode : decodeC 0b001#3 = .decode := by decide
theorem test_dec_encode : decodeC 0b010#3 = .encode := by decide
theorem test_dec_size : decodeC 0b011#3 = .size := by decide
theorem test_dec_getcode : decodeC 0b100#3 = .getcode := by decide
theorem test_dec_reserved5 : decodeC 0b101#3 = .reserved5 := by decide
theorem test_dec_reserved6 : decodeC 0b110#3 = .reserved6 := by decide
theorem test_dec_reserved7 : decodeC 0b111#3 = .reserved7 := by decide
theorem test_dec_nEmpty : decodeN 28 0b0000000000000000#16 = .nEmpty := by decide
theorem test_dec_nLeaf : decodeN 28 0b0100000000110101#16 = .nLeaf 3#9 5#4 := by decide
theorem test_dec_nLeafEos : decodeN 28 0b0101000000000110#16 = .nLeafEos 6#4 := by decide
theorem test_dec_nBranch : decodeN 28 0b1000000000011011#16 = .nBranch 27#10 := by decide
theorem test_dec_branch_past_last : decodeN 28 0x801C#16 = .nInvalid 0x801C#16 := by decide
theorem test_dec_sym_257 : decodeN 28 0x5015#16 = .nInvalid 0x5015#16 := by decide
theorem test_dec_bit13 : decodeN 28 0x6015#16 = .nInvalid 0x6015#16 := by decide
theorem test_dec_tag11 : decodeN 28 0xFFFF#16 = .nInvalid 0xFFFF#16 := by decide
theorem test_dec_tag00_low : decodeN 28 0x0001#16 = .nInvalid 0x0001#16 := by decide
theorem test_dec_encSym : decodeL 0b11010000#8 = .encSym 208#8 := by decide
theorem test_dec_tbInsert :
    (decodeT 0b0000101000000000000000000000001110000000#40).toOption = some (.tbInsert 10#5 0x380#30) := by decide
theorem test_dec_tbInsert_len31 : (decodeT 0x1F00000000#40).toOption = none := by decide
theorem test_dec_sCode :
    (decodeS [(80, ⟨10#8, 0x380#32⟩)]
      [true, true, true, false, false, false, false, false, false, false, true]).toOption
      = some (.sCode 80#9, [true]) := by decide
theorem test_table_word_command : decodeTableWord 8 3 = some .size := by decide
theorem test_table_word_node : decodeTableWord 16 0x5006 = some (.nLeafEos 6#4) := by decide
theorem test_table_word_entry : decodeTableWord 40 0x0A00000380 = some (.tbInsert 10#5 0x380#30) := by decide

/-! ### A demonstration instance: the words of the image of section 2.3 that the tests reach, NLEVELS = 28 -/

/-- `ROM[0][1F]`, `ROM[0][E0]`, `ROM[0][FF]`, `ROM[1][3F]`, `ROM[27][FF]`. -/
def demoRom : Rom :=
  { trie := [(0x1F, 0x4035#16), (0xDF, 0x44F8#16), (0xE0, 0x8001#16), (0xFF, 0x8019#16), (0x13F, 0x4502#16), (27 * 256 + 0xFF, 0x5006#16)],
    code := [(3, ⟨5#8, 0x03#32⟩), (80, ⟨10#8, 0x380#32⟩), (208, ⟨20#8, 0xF8000#32⟩), (255, ⟨30#8, 0x3FFFFFFE#32⟩)] }

/-- The instance, idle, with the table entries of its code ROM. -/
def demo : State :=
  { State.reset with
    table := demoRom.code,
    tb := { ok := true, cause := .none, index := 0#9, nlevels := 28#11, rom := some demoRom, work := none } }

/-- The instance in a DECODE of `bytes` at a walk position. -/
def walking (bytes : List Byte) (lvl cur : Nat) : State :=
  { demo with ibuf := Memory.ofList unlistedByte bytes, ibufLen := bytes.length,
              dec := { Dec.reset with len := bytes.length, lvl := lvl, cur := cur, busy := true } }

/-- The instance in an ENCODE of `bytes`, `idx` of them taken, with bits held. -/
def packing (bytes : List Byte) (idx acc nb cnt : Nat) : State :=
  { demo with lit := Memory.ofList unlistedByte bytes, litLen := bytes.length,
              enc := { Enc.reset with len := bytes.length, idx := idx, acc := acc, nb := nb, cnt := cnt, busy := true } }

/-! ### The meanings -/

theorem test_nop : (after (exec .nop { demo with regs := { demo.regs with cmd := 3#3 } })).map (fun t => t.regs.cmd) = some 0#3 := by decide
theorem test_reserved5 : after (exec .reserved5 demo) = some { demo with regs := { demo.regs with cmd := 5#3 } } := by decide
theorem test_reserved6 : after (exec .reserved6 demo) = some { demo with regs := { demo.regs with cmd := 6#3 } } := by decide
theorem test_reserved7 : after (exec .reserved7 demo) = some { demo with regs := { demo.regs with cmd := 7#3 } } := by decide
theorem test_nop_no_instance : refusal (exec .nop State.reset) = some .noInstance := by decide

/-- R87: `len` = 2 gives `(dlvl, dcur) = (0, 0)`, `rem` = 16. -/
theorem test_decode : (after (exec .decode { demo with regs := { demo.regs with argLen := 2 } })).map
    (fun t => (t.regs.cmd, t.dec.lvl, t.dec.cur, t.dec.rem, t.dec.status)) = some (1#3, 0, 0, 16, 1) := by decide
theorem test_decode_busy : refusal (exec .decode (walking [0x1F#8] 0 0)) = some .unitBusy := by decide
theorem test_decStart : (after (exec .decStart { walking [0x1F#8] 1 8 with out := [0xAA#8] })).map
    (fun t => (t.dec.lvl, t.dec.cur, t.dec.len, t.out)) = some (0, 0, 0, [0xAA#8]) := by decide
theorem test_encode : (after (exec .encode { demo with regs := { demo.regs with argLen := 2 } })).map
    (fun t => (t.regs.cmd, t.enc.len, t.enc.status)) = some (2#3, 2, 1) := by decide
theorem test_encStart : (after (exec .encStart { packing [3#8] 1 3 5 0 with sink := [0xAA#8] })).map
    (fun t => (t.enc.idx, t.enc.acc, t.enc.nb, t.sink)) = some (0, 0, 0, [0xAA#8]) := by decide

/-- R116: literal `[3, 208]`: 25 bits, 4 bytes. -/
theorem test_size : (after (exec .size { demo with lit := Memory.ofList unlistedByte [3#8, 208#8], regs := { demo.regs with argLen := 2 } })).map
    (fun t => (t.res.sbits, t.res.sbytes)) = some (25, 4) := by decide
theorem test_size_empty : (after (exec .size demo)).map (fun t => (t.res.sbits, t.res.sbytes)) = some (0, 0) := by decide
/-- Section 5.3. -/
theorem test_getcode : (after (exec .getcode { demo with regs := { demo.regs with argByte := 0x50#8 } })).map
    (fun t => (t.res.gcode, t.res.glen)) = some (0x380#32, 10#8) := by decide

/-- R90: `IBUF = [0x1F]`: append 0x03, position (0, 5). -/
theorem test_nLeaf : (after (exec (.nLeaf 3#9 5#4) (walking [0x1F#8] 0 0))).map
    (fun t => (t.out, t.dec.lvl, t.dec.cur, t.dec.outcnt)) = some ([0x03#8], 0, 5, 1) := by decide
/-- R93: a leaf of 8 bits with 3 real bits `110` left: BAD_PADDING. -/
theorem test_nLeaf_tail : (after (exec (.nLeaf 79#9 8#4) (walking [0x1E#8] 0 5))).map
    (fun t => (t.out, t.dec.cur, t.dec.status)) = some ([], 5, 2 + 8 * 2) := by decide
/-- R91: the EOS leaf at (27, 24) of `FF FF FF FF`. -/
theorem test_nLeafEos : (after (exec (.nLeafEos 6#4) (walking [0xFF#8, 0xFF#8, 0xFF#8, 0xFF#8] 27 24))).map
    (fun t => (t.out, t.dec.lvl, t.dec.cur, t.dec.status)) = some ([], 27, 24, 2 + 8 * 3) := by decide
/-- R92: `E0 3F`: (1, 8). -/
theorem test_nBranch : (after (exec (.nBranch 1#10) (walking [0xE0#8, 0x3F#8] 0 0))).map
    (fun t => (t.dec.lvl, t.dec.cur, t.dec.busy)) = some (1, 8, true) := by decide
/-- R93: a branch with 3 real bits `111` left at the root: done-ok. -/
theorem test_nBranch_tail : (after (exec (.nBranch 25#10) (walking [0x1F#8] 0 5))).map
    (fun t => (t.dec.lvl, t.dec.cur, t.dec.status)) = some (0, 5, 2 + 4) := by decide
/-- R94: `F2 00`. -/
theorem test_nEmpty : (after (exec .nEmpty (walking [0xF2#8, 0x00#8] 0 0))).map
    (fun t => (t.dec.cur, t.dec.status)) = some (0, 2 + 8 * 4) := by decide
/-- R143: an Invalid word at `rem < 8` reports BAD_NODE. -/
theorem test_nInvalid : (after (exec (.nInvalid 0xFFFF#16) (walking [0x1F#8] 0 5))).map
    (fun t => t.dec.status) = some (2 + 8 * 5) := by decide
/-- R89: `FF`: TRUNCATED at (25, 8). -/
theorem test_decEnd : (after (exec .decEnd (walking [0xFF#8] 25 8))).map
    (fun t => (t.dec.lvl, t.dec.cur, t.dec.status)) = some (25, 8, 2 + 8 * 1) := by decide
theorem test_decEnd_root : (after (exec .decEnd (walking [0xC0#8] 0 8))).map (fun t => t.dec.status) = some (2 + 4) := by decide
/-- Section 4.2, `1F C0 00`: at (20, 21) with 3 real bits left: TRUNCATED. -/
theorem test_decTail : (after (exec .decTail (walking [0x1F#8, 0xC0#8, 0x00#8] 20 21))).map
    (fun t => t.dec.status) = some (2 + 8 * 1) := by decide
theorem test_decTail_not_selected : refusal (exec .decTail (walking [0x1F#8] 0 0)) = some .stepNotSelected := by decide
/-- Section 4.2, trace of `E0 3F`, step 2. -/
theorem test_decStep : (after (exec .decStep (walking [0xE0#8, 0x3F#8] 1 8))).map
    (fun t => (t.out, t.dec.lvl, t.dec.cur)) = some ([0x50#8], 0, 10) := by decide
theorem test_step_fetches_the_node : (after (step (walking [0xE0#8, 0x3F#8] 0 0))).map
    (fun t => (t.dec.lvl, t.dec.cur)) = some (1, 8) := by decide
/-- R98, R99: the 10-bit code of symbol 80 in two steps. -/
theorem test_sCode : (after (exec (.sCode 80#9) (walking [0xE0#8, 0x3F#8] 0 0))).map
    (fun t => (t.out, t.dec.lvl, t.dec.cur)) = some ([0x50#8], 0, 10) := by decide

/-- R112: `eacc` = 3, `enb` = 5, symbol 208: emits 1F C0 00 and leaves one 0 bit. -/
theorem test_encSym : (after (exec (.encSym 208#8) (packing [3#8, 208#8] 1 3 5 0))).map
    (fun t => (t.sink, t.enc.acc, t.enc.nb, t.enc.cnt)) = some ([0x1F#8, 0xC0#8, 0x00#8], 0, 1, 3) := by decide
/-- Section 5.2: `enb` = 7 and a 30-bit code: four bytes, 5 bits left. -/
theorem test_encSym_corner : (after (exec (.encSym 255#8) (packing [16#8, 255#8] 1 0x40 7 0))).map
    (fun t => (t.sink, t.enc.acc, t.enc.nb)) = some ([0x81#8, 0xFF#8, 0xFF#8, 0xFF#8], 0x1E, 5) := by decide
/-- R113: `eacc` = 0, `enb` = 1: append 7F. -/
theorem test_encFlush : (after (exec .encFlush (packing [3#8, 208#8] 2 0 1 3))).map
    (fun t => (t.sink, t.enc.nb, t.enc.cnt, t.enc.status)) = some ([0x7F#8], 0, 4, 2) := by decide
theorem test_encFlush_nothing_left : (after (exec .encFlush (packing [48#8] 1 0 0 1))).map
    (fun t => (t.sink, t.enc.cnt)) = some ([], 1) := by decide

/-! ### The window (section 4.3) -/

theorem test_window_padded : window (Memory.ofList unlistedByte [0x1F#8]) 1 5 = 0xFF := by decide
theorem test_window_straddles : window (Memory.ofList unlistedByte [0x07#8, 0xD7#8]) 2 5 = 0xFA := by decide
theorem test_window_last_bit : window (Memory.ofList unlistedByte [0xA5#8, 0x3C#8]) 2 15 = 0x7F := by decide

/-! ### The tree builder (section 2.3, worked insertions; section 3) -/

/-- An instance with an image of `n` levels under construction, entry `next` in turn. -/
def building (trie : Memory NodeWord) (n next : Nat) : State :=
  { State.reset with tb := { Tb.unbuilt with work := some { trie := trie, n := n, next := next } } }

/-- Entry 48 (0xC0, 8): one slot of the root. -/
theorem test_tbInsert_root : (after (exec (.tbInsert 8#5 0xC0#30) (building [] 1 48))).map
    (fun t => t.tb.work) = some (some { trie := [(0xC0, 0x4308#16)], n := 1, next := 49 }) := by decide
/-- Entry 255 (0x3FFFFFFE, 30) on an image of 25 levels: levels 25 to 27, leaf words 4FF6 at F8..FB. -/
theorem test_tbInsert_deep : (after (exec (.tbInsert 30#5 0x3FFFFFFE#30) (building [] 25 255))).map (fun t => t.tb.work)
    = some (some { n := 28, next := 256, trie := [(0xFF, 0x8019#16), (25 * 256 + 0xFF, 0x801A#16), (26 * 256 + 0xFF, 0x801B#16),
        (27 * 256 + 0xF8, 0x4FF6#16), (27 * 256 + 0xF9, 0x4FF6#16), (27 * 256 + 0xFA, 0x4FF6#16), (27 * 256 + 0xFB, 0x4FF6#16)] }) := by
  decide +kernel
/-- Section 3, row 8: `lengths[5]` = 0. Here entry 0 of the unsupplied table fails first. -/
theorem test_tbValidate : (after (exec .tbValidate State.reset)).map (fun t => t.tb.status) = some 2 := by decide +kernel
theorem test_tbBuild_bad_length : (after (exec .tbBuild State.reset)).map (fun t => (t.tb.status, t.tb.rom)) = some (2, none) := by
  decide +kernel
theorem test_tbBuild_once : refusal (exec .tbBuild demo) = some .buildRunsOnce := by decide

/-! ### The host's interface -/

theorem test_reset_idles : after (step State.reset) = some State.reset := by decide
theorem test_host_command : (after (step { demo with host := [.writeCmd 3#3] })).map (fun t => (t.regs.cmd, t.host)) = some (3#3, []) := by decide
/-- spec/95_test_vectors.md program P2, move 3: the first byte of a buffer of two may be decoded alone. -/
theorem test_host_shorter_length :
    (after (step { demo with ibuf := [(0, 0x1F#8), (1, 0x01#8)], ibufLen := 2, regs := { demo.regs with argLen := 1 }, host := [.writeCmd 1#3] })).map
      (fun t => (t.dec.busy, t.dec.len, t.host)) = some (true, 1, []) := by decide
/-- R166 (d): a length past the bytes of the buffer is no move of the host's. -/
theorem test_host_length_past_the_buffer :
    (after (step { demo with ibuf := [(0, 0x1F#8)], ibufLen := 1, regs := { demo.regs with argLen := 2 }, host := [.writeCmd 1#3] })).map
      (fun t => (t.dec.busy, t.host)) = some (false, [.writeCmd 1#3]) := by decide
theorem test_host_waits : after (step { walking [0x1F#8] 0 0 with host := [.setIbuf []], turns := [.host] })
    = some { walking [0x1F#8] 0 0 with host := [.setIbuf []], turns := [] } := by decide
theorem test_placed_command_runs :
    (after (step (State.reset.withFetchWord 8 4))).map (fun t => t.regs.cmd) = some 4#3 := by decide
theorem test_placed_node_runs :
    (after (step (State.reset.withFetchWord 16 0x4035))).map (fun t => (t.out, t.dec.cur)) = some ([3#8], 5) := by decide
theorem test_placed_branch_runs :
    (after (step (State.reset.withFetchWord 16 0x83FF))).map (fun t => (t.dec.lvl, t.dec.cur)) = some (1023, 8) := by decide
theorem test_placed_literal_runs :
    (after (step (State.reset.withFetchWord 8 80))).map (fun t => t.enc.idx) = some 1 := by decide
theorem test_placed_entry_runs :
    (after (step (State.reset.withFetchWord 40 0x0800000080))).map (fun t => t.tb.work)
      = some (some { trie := [(0x80, 0x4008#16)], n := 1, next := 1 }) := by decide

end Sys2Proof.Tests
end

