-- ==== Sys2Proof/Tests/Witness.lean ====
section
/-! SUPPORT. A small table, built: the instance that the witnesses of the statements about a built instance use (a choice of the tests: 255 codes of 8 bits and two of 16 bits below the window `0xFF`). -/

namespace Sys2Proof.Tests

open Sys2Proof Sys2Proof.Machine Sys2Proof.Safety

/-- `n` cells from index `a` on. -/
def cells {α : Type} (f : Nat → α) (a n : Nat) : Memory α := (List.range' a n).map fun k => (k, f k)

theorem read_cells {α : Type} (d : α) (f : Nat → α) (rest : Memory α) (n : Nat) :
    ∀ a i, a ≤ i → i < a + n → Memory.read d (cells f a n ++ rest) i = f i := by
  induction n with
  | zero => intro a i h1 h2; omega
  | succ n ih =>
    intro a i h1 h2
    simp only [cells, List.range'_succ, List.map_cons, List.cons_append, Memory.read]
    split
    · rename_i h; rw [h]
    · exact ih (a + 1) i (by omega) (by omega)

theorem read_past_cells {α : Type} (d : α) (f : Nat → α) (rest : Memory α) (n : Nat) :
    ∀ a i, a + n ≤ i → Memory.read d (cells f a n ++ rest) i = Memory.read d rest i := by
  induction n with
  | zero => intro a i h; rfl
  | succ n ih =>
    intro a i h
    simp only [cells, List.range'_succ, List.map_cons, List.cons_append, Memory.read]
    rw [if_neg (by omega)]
    exact ih (a + 1) i (by omega)

theorem write_past_cells {α : Type} [DecidableEq α] (d : α) (f : Nat → α) (rest : Memory α) (v : α) (n : Nat) :
    ∀ a i, a + n ≤ i → Memory.write d (cells f a n ++ rest) i v = cells f a n ++ Memory.write d rest i v := by
  induction n with
  | zero => intro a i h; rfl
  | succ n ih =>
    intro a i h
    simp only [cells, List.range'_succ, List.map_cons, List.cons_append, Memory.write]
    rw [if_neg (by omega), if_neg (by omega)]
    congr 1
    exact ih (a + 1) i (by omega)

/-- The witness table: codes of 8 bits for the symbols 0 to 254, of 16 bits for 255 and EOS. -/
def wTable : CodeTable := cells (fun i => ⟨8#8, BitVec.ofNat 32 i⟩) 0 255 ++ [(255, ⟨16#8, 0xFF00#32⟩), (256, ⟨16#8, 0xFF01#32⟩)]

theorem wTable_low {i : Nat} (h : i < 255) : entryAt wTable i = ⟨8#8, BitVec.ofNat 32 i⟩ :=
  read_cells _ _ _ 255 0 i (Nat.zero_le _) (by omega)
theorem wTable_255 : entryAt wTable 255 = ⟨16#8, 0xFF00#32⟩ := read_past_cells _ _ _ 255 0 255 (by omega)
theorem wTable_256 : entryAt wTable 256 = ⟨16#8, 0xFF01#32⟩ := (read_past_cells _ _ _ 255 0 256 (by omega)).trans rfl

theorem wTable_wellFormed : WellFormedTable wTable := by
  have val : ValidTable wTable := by
    intro i hi
    have hi : i < 257 := hi
    rcases Nat.lt_trichotomy i 255 with h | rfl | h
    · rw [wTable_low h]
      simp [ValidEntry, Config.maxLen]
      omega
    · rw [wTable_255]; simp [ValidEntry, Config.maxLen]
    · have : i = 256 := by omega
      rw [this, wTable_256]; simp [ValidEntry, Config.maxLen]
  refine ⟨val, ?_⟩
  intro i j hi hj hij h
  rw [codeBits_prefix_iff (val i hi).2.2 (val j hj).2.2] at h
  have hi : i < 257 := hi
  have hj : j < 257 := hj
  have cases : ∀ i, i < 257 → (i < 255 ∧ entryAt wTable i = ⟨8#8, BitVec.ofNat 32 i⟩) ∨
      (i = 255 ∧ entryAt wTable i = ⟨16#8, 0xFF00#32⟩) ∨ (i = 256 ∧ entryAt wTable i = ⟨16#8, 0xFF01#32⟩) := by
    intro i hi
    rcases Nat.lt_trichotomy i 255 with h | rfl | h
    · exact .inl ⟨h, wTable_low h⟩
    · exact .inr (.inl ⟨rfl, wTable_255⟩)
    · have : i = 256 := by omega
      exact .inr (.inr ⟨this, by rw [this, wTable_256]⟩)
  rcases cases i hi with ⟨a, e⟩ | ⟨a, e⟩ | ⟨a, e⟩ <;> rcases cases j hj with ⟨b, f⟩ | ⟨b, f⟩ | ⟨b, f⟩ <;>
    rw [e, f] at h <;> simp at h <;> omega

theorem wTable_safe : RoundTripSafe wTable := by
  refine ⟨wTable_wellFormed, ?_⟩
  intro i hi h
  have hi : i < 257 := hi
  rcases Nat.lt_trichotomy i 255 with a | rfl | a
  · rw [wTable_low a] at h
    simp at h
  · rw [wTable_255] at h
    simp at h
  · have : i = 256 := by omega
    rw [this, wTable_256] at h
    simp at h

/-- The image after the first `n` insertions, `n ≤ 255`. -/
def wLeaves (n : Nat) : Memory NodeWord := cells (fun k => leafWord k 8) 0 n

theorem w_insert {i : Nat} (h : i < 255) :
    insertNext 1024 (entryAt wTable i).len.toNat (entryAt wTable i).code.toNat ⟨wLeaves i, 1, i⟩ = .ok ⟨wLeaves (i + 1), 1, i + 1⟩ := by
  rw [wTable_low h]
  have hc : (BitVec.ofNat 32 i).toNat = i := by simp; omega
  simp only [hc]
  have hk : checkFields 8 i = none := checkFields_none.mpr ⟨by omega, by omega, by omega⟩
  have hb : fillBase i 8 = i := by
    simp only [fillBase, ones, Nat.sub_self, Nat.shiftLeft_zero]
    rw [Nat.and_two_pow_sub_one_eq_mod]
    omega
  have hr : trieWord (wLeaves i) 0 i = emptyWord := by
    have := read_past_cells emptyWord (fun k => leafWord k 8) [] i 0 i (by omega)
    simpa [trieWord, wLeaves] using this
  have hw : setTrieWord (wLeaves i) 0 i (leafWord i 8) = wLeaves (i + 1) := by
    have := write_past_cells emptyWord (fun k => leafWord k 8) [] (leafWord i 8) i 0 i (by omega)
    have hne : leafWord i 8 ≠ emptyWord := by
      intro h0
      have := leafWord_toNat (sym := i) (bits := 8) (by omega) (by omega)
      rw [h0] at this
      simp [emptyWord] at this
    simp only [List.append_nil, Memory.write, hne, if_false] at this
    simp only [setTrieWord, wLeaves, Nat.zero_mul, Nat.zero_add, this]
    simp [cells, List.range'_concat]
  unfold insertNext
  rw [show (8#8).toNat = 8 from rfl, hk]
  unfold insertCode
  simp only [descend, le_refl, if_true, fillSize, Nat.sub_self, Nat.pow_zero, hb, fill, hr, ne_eq, not_true_eq_false, if_false, hw]

theorem w_inserts (k i : Nat) (h : i + k ≤ 255) :
    insertMany 1024 wTable k ⟨wLeaves i, 1, i⟩ = .ok ⟨wLeaves (i + k), 1, i + k⟩ := by
  induction k generalizing i with
  | zero => rfl
  | succ k ih =>
    simp only [insertMany]
    rw [w_insert (by omega)]
    simp only
    rw [ih (i + 1) (by omega)]
    rw [show i + 1 + k = i + (k + 1) by omega]

/-- The witness image. -/
def wTrie : Memory NodeWord := wLeaves 255 ++ [(255, 0x8001#16), (256, leafWord 255 8), (257, leafWord 256 8)]
theorem w_last : (insertMany 1024 wTable 2 ⟨wLeaves 255, 1, 255⟩).toOption = some ⟨wTrie, 2, 257⟩ := by decide +kernel

theorem w_inserted : insertMany 1024 wTable Config.nsym emptyWork = .ok ⟨wTrie, 2, 257⟩ := by
  rw [show Config.nsym = 255 + 2 from rfl, insertMany_add]
  rw [show emptyWork = ⟨wLeaves 0, 1, 0⟩ from rfl, w_inserts 255 0 (by omega)]
  simp only [Nat.zero_add]
  have h := w_last
  cases hl : insertMany 1024 wTable 2 ⟨wLeaves 255, 1, 255⟩ with
  | error e =>
    rw [hl] at h
    cases h
  | ok w =>
    rw [hl] at h
    simp only [Except.toOption, Option.some.injEq] at h
    rw [h]

theorem w_build : buildTable 1024 wTable = .ok ⟨wTrie, 2, 257⟩ := by
  unfold buildTable
  rw [validateTable_none.mpr wTable_wellFormed.1]
  exact w_inserted

/-- The images of the witness instance. -/
def wRom : Rom := { trie := wTrie, code := Memory.restrict Config.nsym wTable }

/-- The witness instance, built and idle. -/
def wBuilt : State :=
  { State.reset with
    table := wTable,
    tb := { ok := true, cause := .none, index := 0#9, nlevels := 2#11, rom := some wRom, work := none } }

theorem built_of_table {s : State} (h1 : s.table = wTable) (h2 : s.maxLevels = 1024) (h3 : s.tb = wBuilt.tb) : Built s := by
  refine ⟨by simp [State.levelsInRange, h2], ?_⟩
  rw [h1, h2, w_build]
  simp only [buildSuccess, h1]
  exact h3

theorem wBuilt_built : Built wBuilt := built_of_table rfl rfl rfl

/-! ### The image, node by node -/

theorem wNode_leaf {k : Nat} (h : k < 255) : nodeIn wRom 2 0 k = .leaf (BitVec.ofNat 9 k) 8#4 := by
  have : trieWord wTrie 0 k = leafWord k 8 := by
    have := read_cells emptyWord (fun k => leafWord k 8) [(255, 0x8001#16), (256, leafWord 255 8), (257, leafWord 256 8)] 255 0 k
      (Nat.zero_le _) (by omega)
    simpa [trieWord, wTrie, wLeaves] using this
  show nodeDecode 2 (trieWord wTrie 0 k) = _
  rw [this, nodeDecode_leafWord (by omega) (by decide) (by decide)]

theorem wNode_past {l k : Nat} (h : 255 ≤ l * 256 + k) :
    nodeIn wRom 2 l k = nodeDecode 2 (Memory.read emptyWord [(255, 0x8001#16), (256, leafWord 255 8), (257, leafWord 256 8)] (l * 256 + k)) := by
  show nodeDecode 2 (Memory.read emptyWord wTrie (l * 256 + k)) = _
  congr 1
  exact read_past_cells emptyWord (fun k => leafWord k 8) _ 255 0 _ (by omega)

theorem wNode_branch : nodeIn wRom 2 0 255 = .branch 1#10 := (wNode_past (by decide)).trans (by decide)
theorem wNode_10 : nodeIn wRom 2 1 0 = .leaf 255#9 8#4 := (wNode_past (by decide)).trans (by decide)
theorem wNode_11 : nodeIn wRom 2 1 1 = .leaf 256#9 8#4 := (wNode_past (by decide)).trans (by decide)

theorem wNode_empty {k : Nat} (h : 2 ≤ k) : nodeIn wRom 2 1 k = .empty := by
  rw [wNode_past (by omega)]
  have h1 : ¬ 255 = 1 * 256 + k := by omega
  have h2 : ¬ 256 = 1 * 256 + k := by omega
  have h3 : ¬ 257 = 1 * 256 + k := by omega
  simp only [Memory.read, h1, h2, h3, if_false]
  rfl

/-- Every slot of the image. -/
theorem wNode_cases {l k : Nat} (hl : l < 2) (hk : k < 256) :
    (l = 0 ∧ k < 255 ∧ nodeIn wRom 2 l k = .leaf (BitVec.ofNat 9 k) 8#4) ∨
    (l = 0 ∧ k = 255 ∧ nodeIn wRom 2 l k = .branch 1#10) ∨
    (l = 1 ∧ k = 0 ∧ nodeIn wRom 2 l k = .leaf 255#9 8#4) ∨
    (l = 1 ∧ k = 1 ∧ nodeIn wRom 2 l k = .leaf 256#9 8#4) ∨
    (l = 1 ∧ 2 ≤ k ∧ nodeIn wRom 2 l k = .empty) := by
  obtain rfl | rfl : l = 0 ∨ l = 1 := by omega
  · by_cases h : k < 255
    · exact .inl ⟨rfl, h, wNode_leaf h⟩
    · have : k = 255 := by omega
      subst this
      exact .inr (.inl ⟨rfl, rfl, wNode_branch⟩)
  · by_cases h0 : k = 0
    · subst h0; exact .inr (.inr (.inl ⟨rfl, rfl, wNode_10⟩))
    · by_cases h1 : k = 1
      · subst h1; exact .inr (.inr (.inr (.inl ⟨rfl, rfl, wNode_11⟩)))
      · exact .inr (.inr (.inr (.inr ⟨rfl, by omega, wNode_empty (by omega)⟩)))

theorem wNode_isBranch {l k : Nat} {n : BitVec 10} (hl : l < 2) (hk : k < 256) (h : nodeIn wRom 2 l k = .branch n) :
    l = 0 ∧ k = 255 ∧ n = 1#10 := by
  rcases wNode_cases hl hk with ⟨_, _, e⟩ | ⟨a, b, e⟩ | ⟨_, _, e⟩ | ⟨_, _, e⟩ | ⟨_, _, e⟩ <;> rw [e] at h <;> cases h
  exact ⟨a, b, rfl⟩

theorem wLevel_1 (c : Nat) (hc : c / 256 % 256 = 255) : pathLevel wTrie c 16 1 = 1 ∧ pathKey c 16 0 = 255 := by
  have hk : pathKey c 16 0 = 255 := by
    show (c >>> (16 - 8 * (0 + 1))) &&& 0xFF = 255
    rw [show (0xFF : Nat) = 2 ^ 8 - 1 from rfl, Nat.and_two_pow_sub_one_eq_mod, Nat.shiftRight_eq_div_pow]
    exact hc
  refine ⟨?_, hk⟩
  show ((trieWord wTrie 0 (pathKey c 16 0)).extractLsb' 0 10).toNat = 1
  rw [hk]
  have : trieWord wTrie 0 255 = 0x8001#16 :=
    (read_past_cells emptyWord (fun k => leafWord k 8) [(255, 0x8001#16), (256, leafWord 255 8), (257, leafWord 256 8)] 255 0 255 (by decide)).trans rfl
  rw [this]
  rfl

/-- Full fill of a code of 16 bits, of which one window is below the root, and of a code of 8 bits. -/
theorem fullFill_16 {r : Rom} {n c sym : Nat} (hc : c < 2 ^ 32)
    (h1 : nodeIn r n 0 (pathKey c 16 0) = .branch (BitVec.ofNat 10 (pathLevel r.trie c 16 1)))
    (h2 : nodeIn r n (pathLevel r.trie c 16 1) (c % 256) = .leaf (BitVec.ofNat 9 sym) 8#4) :
    FullFill r n ⟨16#8, BitVec.ofNat 32 c⟩ sym := by
  have e1 : (16#8).toNat = 16 := by decide
  have e2 : (BitVec.ofNat 32 c).toNat = c := by rw [BitVec.toNat_ofNat]; omega
  have e3 : pathDepth 16 = 1 := by decide
  have e4 : pathRest 16 = 8 := by decide
  have e5 : ones 8 = 2 ^ 8 - 1 := by decide
  unfold FullFill
  simp only [e1, e2, e3, e4, e5, Nat.and_two_pow_sub_one_eq_mod, Nat.sub_self, Nat.shiftRight_zero]
  refine ⟨?_, ?_⟩
  · intro j hj
    obtain rfl : j = 0 := by omega
    exact h1
  · intro k _ he
    rw [he]
    exact h2

theorem fullFill_8 {r : Rom} {n c sym : Nat} (hc : c < 2 ^ 8) (h : nodeIn r n 0 c = .leaf (BitVec.ofNat 9 sym) 8#4) :
    FullFill r n ⟨8#8, BitVec.ofNat 32 c⟩ sym := by
  have e1 : (8#8).toNat = 8 := by decide
  have e2 : (BitVec.ofNat 32 c).toNat = c := by rw [BitVec.toNat_ofNat]; omega
  have e3 : pathDepth 8 = 0 := by decide
  have e4 : pathRest 8 = 8 := by decide
  have e5 : ones 8 = 2 ^ 8 - 1 := by decide
  unfold FullFill
  simp only [e1, e2, e3, e4, e5, Nat.and_two_pow_sub_one_eq_mod, Nat.sub_self, Nat.shiftRight_zero]
  refine ⟨fun j hj => by omega, ?_⟩
  intro k _ he
  have : k = c := by omega
  rw [this]
  exact h

/-- The slot where a symbol's leaf stands is one that item 4 of R81 names. -/
theorem named_16 {t : CodeTable} {trie : Memory NodeWord} {l k c sym : Nat} (he : entryAt t sym = ⟨16#8, BitVec.ofNat 32 c⟩)
    (hc : c < 2 ^ 32) (hl : l = pathLevel trie c 16 1) (hk : k = c % 256) :
    l = pathLevel trie (entryAt t sym).code.toNat (entryAt t sym).len.toNat (pathDepth (entryAt t sym).len.toNat) ∧
      k >>> (8 - pathRest (entryAt t sym).len.toNat) = (entryAt t sym).code.toNat &&& ones (pathRest (entryAt t sym).len.toNat) := by
  have e1 : (16#8).toNat = 16 := by decide
  have e2 : (BitVec.ofNat 32 c).toNat = c := by rw [BitVec.toNat_ofNat]; omega
  have e3 : pathDepth 16 = 1 := by decide
  have e4 : pathRest 16 = 8 := by decide
  have e5 : ones 8 = 2 ^ 8 - 1 := by decide
  rw [he]
  simp only [e1, e2, e3, e4, e5, Nat.and_two_pow_sub_one_eq_mod, Nat.sub_self, Nat.shiftRight_zero]
  exact ⟨hl, hk⟩

theorem named_8 {t : CodeTable} {trie : Memory NodeWord} {l k c sym : Nat} (he : entryAt t sym = ⟨8#8, BitVec.ofNat 32 c⟩)
    (hc : c < 2 ^ 8) (hl : l = 0) (hk : k = c) :
    l = pathLevel trie (entryAt t sym).code.toNat (entryAt t sym).len.toNat (pathDepth (entryAt t sym).len.toNat) ∧
      k >>> (8 - pathRest (entryAt t sym).len.toNat) = (entryAt t sym).code.toNat &&& ones (pathRest (entryAt t sym).len.toNat) := by
  have e1 : (8#8).toNat = 8 := by decide
  have e2 : (BitVec.ofNat 32 c).toNat = c := by rw [BitVec.toNat_ofNat]; omega
  have e3 : pathDepth 8 = 0 := by decide
  have e4 : pathRest 8 = 8 := by decide
  have e5 : ones 8 = 2 ^ 8 - 1 := by decide
  rw [he]
  simp only [e1, e2, e3, e4, e5, Nat.and_two_pow_sub_one_eq_mod, Nat.sub_self, Nat.shiftRight_zero]
  exact ⟨hl, by omega⟩

/-- The image is well formed for its table. -/
theorem wRom_wf : WfRom wRom 2 wTable := by
  refine ⟨?_, ⟨?_, ?_, ?_, ?_⟩, ?_, ?_⟩
  · intro l k hl hk
    rcases wNode_cases hl hk with ⟨_, _, e⟩ | ⟨_, _, e⟩ | ⟨_, _, e⟩ | ⟨_, _, e⟩ | ⟨_, _, e⟩ <;> rw [e] <;> intro h <;> cases h
  · intro n h1 h2
    obtain rfl : n = 1 := by omega
    exact ⟨0, 255, by decide, by decide, wNode_branch⟩
  · intro l k l' k' n hl hl' hk hk' h h'
    obtain ⟨a, b, _⟩ := wNode_isBranch hl hk h
    obtain ⟨a', b', _⟩ := wNode_isBranch hl' hk' h'
    omega
  · intro l k n h
    obtain ⟨_, _, h1, _⟩ := nodeDecode_branch h
    intro h0
    rw [h0] at h1
    simp at h1
  · intro k0 k1 k2 k3 n1 n2 n3 n4 h0 h1 _ _ e1 e2
    obtain ⟨_, _, rfl⟩ := wNode_isBranch (by decide) h0 e1
    obtain ⟨h, _⟩ := wNode_isBranch (l := 1) (by decide) h1 e2
    omega
  · intro sym hs
    have hs : sym < 257 := hs
    rcases Nat.lt_trichotomy sym 255 with h | rfl | h
    · rw [wTable_low h]
      exact fullFill_8 (by omega) (wNode_leaf h)
    · obtain ⟨hl, hk⟩ := wLevel_1 0xFF00 (by decide)
      rw [wTable_255]
      refine fullFill_16 (c := 0xFF00) (by decide) ?_ ?_
      · rw [hk, show pathLevel wRom.trie 0xFF00 16 1 = 1 from hl]
        exact wNode_branch
      · rw [show pathLevel wRom.trie 0xFF00 16 1 = 1 from hl]
        exact wNode_10
    · obtain rfl : sym = 256 := by omega
      obtain ⟨hl, hk⟩ := wLevel_1 0xFF01 (by decide)
      rw [wTable_256]
      refine fullFill_16 (c := 0xFF01) (by decide) ?_ ?_
      · rw [hk, show pathLevel wRom.trie 0xFF01 16 1 = 1 from hl]
        exact wNode_branch
      · rw [show pathLevel wRom.trie 0xFF01 16 1 = 1 from hl]
        exact wNode_11
  · intro l k hl hk hne
    rcases wNode_cases hl hk with ⟨a, b, _⟩ | ⟨a, b, _⟩ | ⟨a, b, _⟩ | ⟨a, b, _⟩ | ⟨_, _, e⟩
    · exact ⟨k, Nat.lt_trans b (by decide), .inr (named_8 (wTable_low b) (by omega) a rfl)⟩
    · refine ⟨255, by decide, .inl ⟨0, ?_, ?_, ?_⟩⟩
      · rw [wTable_255]; decide
      · exact a
      · rw [wTable_255]; exact b.trans (wLevel_1 0xFF00 (by decide)).2.symm
    · exact ⟨255, by decide, .inr (named_16 (c := 0xFF00) wTable_255 (by decide) (a.trans (wLevel_1 0xFF00 (by decide)).1.symm) b)⟩
    · exact ⟨256, by decide, .inr (named_16 (c := 0xFF01) wTable_256 (by decide) (a.trans (wLevel_1 0xFF01 (by decide)).1.symm) b)⟩
    · exact absurd (nodeDecode_empty.mp e) hne

/-! ### States that satisfy the invariant -/

/-- The witness instance in a DECODE and an ENCODE at once, each of one byte. -/
def wBusy : State :=
  { wBuilt with
    ibuf := [(0, 0x41#8)], lit := [(0, 0x41#8)], ibufLen := 1, litLen := 1,
    dec := { Dec.reset with len := 1, busy := true }, enc := { Enc.reset with len := 1, busy := true } }

theorem wBuilt_tb {s : State} (h1 : s.table = wTable) (h2 : s.maxLevels = 1024) (h3 : s.tb = wBuilt.tb) : TbInv s := by
  refine ⟨by simp [State.levelsInRange, h2], by rw [h3]; rfl, fun _ => built_of_table h1 h2 h3, ?_⟩
  intro w hw
  rw [h3] at hw
  cases hw

theorem wBuilt_mem {s : State} (h1 : s.table = wTable) (h3 : s.tb = wBuilt.tb) (h4 : Memory.wf unlistedByte s.ibuf = true)
    (h5 : Memory.wf unlistedByte s.lit = true) : MemInv s := by
  have ht : Memory.wf CodeEntry.zero wTable = true := by decide +kernel
  refine ⟨h4, h5, by rw [h1]; exact ht, ?_, ?_⟩
  · intro r hr
    rw [h3, show wBuilt.tb.rom = some wRom from rfl, Option.some.injEq] at hr
    rw [← hr]
    have hc : Memory.wf CodeEntry.zero (Memory.restrict Config.nsym wTable) = true := Memory.wf_restrict ht _
    exact ⟨(by decide +kernel : Memory.wf emptyWord wTrie = true), hc⟩
  · intro w hw
    rw [h3] at hw
    cases hw

theorem wBusy_inv : Inv wBusy := by
  refine ⟨wBuilt_tb rfl rfl rfl, wBuilt_mem rfl rfl (by decide) (by decide), ?_, ?_, ?_, ?_, ?_⟩
  · refine ⟨by decide, by decide, by decide, ?_⟩
    show (if true = true then (0 : Nat) < 2 else _)
    simp
  · exact ⟨by decide, by decide, by decide, by decide, by decide, fun h => by cases h⟩
  · exact ⟨by decide, by decide, by decide⟩
  · exact ⟨fun _ => by decide, fun _ => by decide⟩
  · exact ⟨fun _ => ⟨rfl, rfl, rfl⟩, fun h => (by cases h), fun _ => rfl⟩

/-! ### Reset, the idle machine, a step -/

theorem witness_ResetSetsRunTimeRegistersOnly : ∃ s : State, ∃ ms ts, s.turns = .host :: ts ∧ s.host = .reset :: ms ∧ s.dec.busy = true :=
  ⟨{ walking [0x1F#8] 0 0 with host := [.reset], turns := [.host] }, [], [], by decide⟩

theorem witness_IdleMachineHoldsItsState : demo.turns = [] ∧ demo.host = [] ∧ demo.dec.busy = false ∧ demo.enc.busy = false ∧
    demo.tb.work = none := by decide

/-- One state for each clause: a command over a buffer of just the bytes named, a node word, the end of the buffer, a literal byte, none left, a table
entry, one that does not decode, the end of the table, a scheduled turn. -/
theorem witness_StepRunsTheDecodedWord :
    (let s := { demo with host := [HostMove.writeCmd 1#3], ibufLen := 2, regs := { demo.regs with argLen := 2 } };
      s.turns = [] ∧ s.dec.busy = false ∧ s.enc.busy = false ∧ s.tb.work = none ∧ s.host = [.writeCmd 1#3] ∧ s.regs.argLen ≤ s.ibufLen) ∧
    (let s := { demo with host := [HostMove.writeCmd 3#3], litLen := 2, regs := { demo.regs with argLen := 2 } };
      s.host = [.writeCmd 3#3] ∧ s.regs.argLen ≤ s.litLen) ∧
    (let s := walking [0x1F#8] 0 0;
      s.turns = [] ∧ s.dec.busy = true ∧ s.tb.rom = some demoRom ∧ s.dec.rem ≠ 0 ∧ s.dec.lvl < s.nlevels) ∧
    (let s := walking [0x1F#8] 0 8;
      s.turns = [] ∧ s.dec.busy = true ∧ s.tb.rom = some demoRom ∧ s.dec.rem = 0) ∧
    (let s := packing [3#8, 208#8] 1 3 5 0;
      s.turns = [] ∧ s.dec.busy = false ∧ s.enc.busy = true ∧ s.enc.idx < s.enc.len) ∧
    (let s := packing [3#8, 208#8] 2 0 1 3;
      s.turns = [] ∧ s.dec.busy = false ∧ s.enc.busy = true ∧ s.enc.idx = s.enc.len) ∧
    (let s := { building [] 1 48 with table := [(48, ⟨8#8, 0xC0#32⟩)] };
      s.turns = [] ∧ s.dec.busy = false ∧ s.enc.busy = false ∧ s.tb.work = some ⟨[], 1, 48⟩ ∧
        (decodeT (entryWord (entryAt s.table 48))).toOption = some (.tbInsert 8#5 0xC0#30)) ∧
    (let s := { building [] 1 256 with table := [(256, ⟨31#8, 0#32⟩)] };
      s.tb.work = some ⟨[], 1, 256⟩ ∧ (decodeT (entryWord (entryAt s.table 256))).toOption = none) ∧
    (let s := { building [] 1 0 with table := [(0, ⟨1#8, 2#32⟩)] };
      s.tb.work = some ⟨[], 1, 0⟩ ∧ (decodeT (entryWord (entryAt s.table 0))).toOption = none) ∧
    (building [] 1 257).tb.work = some ⟨[], 1, 257⟩ ∧
    { demo with turns := [Agent.enc, .dec] }.turns = [.enc, .dec] := by decide

/-! ### The host's moves -/

/-- An instance with both units idle, one with neither, no instance, a fresh one and one that is not. -/
theorem witness_HostMovesWriteWhatTheyName :
    (let s := { demo with turns := [Agent.host], host := [HostMove.writeArgLen (2 ^ 32)], sink := [1#8], out := [2#8] };
      s.turns = [.host] ∧ s.host = [.writeArgLen (2 ^ 32)] ∧ s.tb.rom = some demoRom ∧ s.dec.busy = false ∧ s.enc.busy = false ∧
        s.tb.fresh = false) ∧
    (State.reset.tb.rom = none ∧ State.reset.tb.fresh = true) ∧
    (walking [0x1F#8] 0 0).dec.busy = true ∧ (packing [3#8] 0 0 0 0).enc.busy = true := by decide

/-- A busy decoder, a busy encoder, and lengths one past the buffers. -/
theorem witness_ForbiddenHostMovesWait :
    ({ walking [0x1F#8] 0 0 with turns := [Agent.host], host := [HostMove.setOut []] }.dec.busy = true) ∧
    ({ packing [3#8] 0 0 0 0 with turns := [Agent.host], host := [HostMove.writeCmd 4#3] }.enc.busy = true) ∧
    (let s := { demo with turns := [Agent.host], host := [HostMove.writeCmd 2#3], litLen := 1, ibufLen := 1, regs := { demo.regs with argLen := 2 } };
      s.ibufLen < s.regs.argLen ∧ s.litLen < s.regs.argLen) := by decide

/-! ### Commands -/

theorem witness_commands : demo.tb.rom = some demoRom ∧ demo.dec.busy = false ∧ demo.enc.busy = false ∧ demo.turns = [] := by decide

theorem witness_commands_on_a_busy_unit :
    ((walking [0x1F#8] 0 0).tb.rom = some demoRom ∧ (walking [0x1F#8] 0 0).dec.busy = true) ∧
    ((packing [3#8] 0 0 0 0).tb.rom = some demoRom ∧ (packing [3#8] 0 0 0 0).enc.busy = true) ∧
    State.reset.tb.rom = none := by decide

theorem wRom_code_valid : ValidTable wRom.code := by
  intro i hi
  unfold wRom
  rw [entryAt_restrict wTable hi]
  exact wTable_wellFormed.1 i hi

/-- The longest literal a register can name, and the empty one. -/
theorem witness_SizeSumsTheCodeLengths :
    wBuilt.tb.rom = some wRom ∧ wBuilt.enc.busy = false ∧ ValidTable wRom.code ∧ wBuilt.regs.argLen = 0 ∧
      2 ^ wBuilt.lenW - 1 < 2 ^ wBuilt.lenW := ⟨rfl, rfl, wRom_code_valid, rfl, by decide⟩

theorem witness_GetcodeAnswersTheSuppliedPair : Built wBuilt ∧ wBuilt.enc.busy = false := ⟨wBuilt_built, rfl⟩

/-! ### The decoder -/

/-- At the root and below it. -/
theorem witness_DecEndJudgesTheLevel :
    ((walking [0xC0#8] 0 8).tb.rom = some demoRom ∧ (walking [0xC0#8] 0 8).dec.rem = 0 ∧ (walking [0xC0#8] 0 8).dec.lvl = 0) ∧
    ((walking [0xFF#8] 25 8).tb.rom = some demoRom ∧ (walking [0xFF#8] 25 8).dec.rem = 0 ∧ (walking [0xFF#8] 25 8).dec.lvl ≠ 0) := by decide

/-- The greatest byte symbol with the last real bits, and symbol 0. -/
theorem witness_LeafEmitsItsByte :
    (walking [0x1F#8] 0 0).tb.rom = some demoRom ∧ (255#9).toNat ≤ 255 ∧ (0#9).toNat ≤ 255 ∧ 1 ≤ (8#4).toNat ∧
      (8#4).toNat ≤ (walking [0x1F#8] 0 0).dec.rem ∧ 1 ≤ (1#4).toNat ∧ (1#4).toNat ≤ (walking [0x1F#8] 0 7).dec.rem := by decide

/-- With its bits real, and with one bit too few. -/
theorem witness_EosLeafFails :
    (let s := walking [0xFF#8, 0xFF#8, 0xFF#8, 0xFF#8] 27 24;
      s.tb.rom = some demoRom ∧ 1 ≤ (6#4).toNat ∧ (6#4).toNat ≤ s.dec.rem) ∧
    (let s := walking [0xFF#8, 0xFF#8, 0xFF#8, 0xFF#8] 27 27;
      s.tb.rom = some demoRom ∧ 1 ≤ s.dec.rem ∧ s.dec.rem ≤ 7 ∧ s.dec.rem < (6#4).toNat) := by decide

/-- With 8 bits left, with 7 and with 1. -/
theorem witness_words_with_8_real_bits :
    (walking [0xE0#8] 0 0).tb.rom = some demoRom ∧ 8 ≤ (walking [0xE0#8] 0 0).dec.rem ∧
    (walking [0xE0#8] 0 1).dec.rem = 7 ∧ (walking [0xE0#8] 0 7).dec.rem = 1 := by decide

/-- What a tail asks, at the root with 3 ones left, below the root, and at the root with a 0 among the bits left; 1 and 7 bits left. -/
theorem witness_TailJudgesThePadding :
    (let s := walking [0x1F#8] 0 5;
      1 ≤ s.dec.rem ∧ s.dec.rem ≤ 7 ∧ s.dec.lvl < s.nlevels ∧ nodeAt demoRom s = .branch 25#10 ∧ s.dec.lvl = 0 ∧
        (List.range 8).all (fun p => decide (p < s.dec.cur) || streamBit s.ibuf s.dec.len p) = true) ∧
    (let s := walking [0x1F#8, 0xC0#8, 0x00#8] 20 21;
      1 ≤ s.dec.rem ∧ s.dec.rem ≤ 7 ∧ s.dec.lvl < s.nlevels ∧ nodeAt demoRom s = .empty ∧ s.dec.lvl ≠ 0) ∧
    (let s := walking [0x1E#8] 0 5;
      1 ≤ s.dec.rem ∧ s.dec.rem ≤ 7 ∧ s.dec.lvl < s.nlevels ∧ nodeAt demoRom s = .leaf 79#9 8#4 ∧ s.dec.rem < (8#4).toNat ∧ s.dec.lvl = 0 ∧
        s.dec.cur ≤ 7 ∧ 7 < 8 * s.dec.len ∧ streamBit s.ibuf s.dec.len 7 = false) ∧
    (walking [0x1F#8] 0 7).dec.rem = 1 ∧ (walking [0x1F#8] 0 1).dec.rem = 7 := by decide

theorem witness_WordsWithoutRealBitsAreTails :
    (walking [0x1E#8] 0 5).tb.rom = some demoRom ∧ 1 ≤ (walking [0x1E#8] 0 5).dec.rem ∧ (walking [0x1E#8] 0 5).dec.rem ≤ 7 ∧
      (walking [0x1E#8] 0 5).dec.rem < (8#4).toNat := by decide

/-- A position for each test of R88: the node there and the real bits left. -/
theorem witness_DecStepTakesTheFirstTest :
    (walking [0xC0#8] 0 8).dec.rem = 0 ∧
    (let s := { walking [0x00#8] 0 0 with tb := { demo.tb with rom := some ⟨[(0, 0x4000#16)], []⟩ } };
      s.dec.rem ≠ 0 ∧ nodeAt ⟨[(0, 0x4000#16)], []⟩ s = .invalid) ∧
    (let s := walking [0xFF#8, 0xFF#8, 0xFF#8, 0xFF#8] 27 24;
      nodeAt demoRom s = .leaf 256#9 6#4 ∧ (6#4).toNat ≤ s.dec.rem ∧ (256#9).toNat = 256) ∧
    (let s := walking [0x1F#8] 0 0;
      nodeAt demoRom s = .leaf 3#9 5#4 ∧ (5#4).toNat ≤ s.dec.rem ∧ (3#9).toNat ≠ 256) ∧
    (let s := walking [0xE0#8] 0 0;
      nodeAt demoRom s = .branch 1#10 ∧ 8 ≤ s.dec.rem) ∧
    (let s := walking [0x1E#8] 0 5;
      nodeAt demoRom s = .leaf 79#9 8#4 ∧ s.dec.rem ≠ 0 ∧ s.dec.rem < (8#4).toNat) ∧
    (let s := walking [0x1F#8] 0 5;
      nodeAt demoRom s = .branch 25#10 ∧ s.dec.rem ≠ 0 ∧ s.dec.rem < 8) ∧
    (let s := walking [0x1F#8, 0xC0#8, 0x00#8] 20 21;
      nodeAt demoRom s = .empty ∧ s.dec.rem ≠ 0 ∧ s.dec.rem < 8) ∧
    (let s := walking [0xF2#8, 0x00#8] 0 0;
      nodeAt demoRom s = .empty ∧ 8 ≤ s.dec.rem) := by decide

theorem witness_DecoderTurnIsDecStep : (walking [0x1F#8] 0 0).turns = [] ∧ (walking [0x1F#8] 0 0).dec.busy = true := by decide

/-- The first and the last cursor of a buffer. -/
theorem witness_WindowIsTheShiftedBytePair : (0 : Nat) ≤ 8 * 2 ∧ (16 : Nat) = 8 * 2 := by decide

theorem witness_FailingStepWritesFlagsOnly :
    (after (exec .decStep (walking [0xF2#8, 0x00#8] 0 0))).map (fun t => (t.dec.busy, t.dec.ok)) = some (false, false) := by decide

theorem witness_DecodeAppendsWhatItCounts :
    (after (exec .decStep (walking [0x1F#8] 0 0))).isSome = true ∧
    (after (decodeWhole { demo with ibuf := [(0, 0x1F#8)], regs := { demo.regs with argLen := 1 } })).map (fun t => t.dec.outcnt) = some 1 := by
  decide

theorem witness_DecodeTerminates :
    demo.tb.rom = some demoRom ∧ 0 < demo.nlevels ∧
    (walking [0x1F#8] 0 0).dec.cur ≤ 8 * (walking [0x1F#8] 0 0).dec.len ∧
    (after (exec .decStep (walking [0x1F#8] 0 0))).map (fun t => t.dec.busy) = some true := by decide

theorem witness_MachineRunsDecode : (after (decodeRun 2 (walking [0x1F#8] 0 0))).isSome = true := by decide

theorem witness_EmptyInputDecodesToNothing : demo.tb.rom = some demoRom ∧ demo.dec.busy = false ∧ demo.regs.argLen = 0 := by decide

theorem witness_DecodeComputesDecodeSpec :
    wBuilt.tb.rom = some wRom ∧ 0 < wBuilt.nlevels ∧ WellFormedTable wBuilt.table ∧ WfRom wRom wBuilt.nlevels wBuilt.table :=
  ⟨rfl, by decide, wTable_wellFormed, wRom_wf⟩

/-- A byte's code at the cursor, and the EOS code. -/
theorem witness_CodeAtTheCursorIsRead :
    (let s := { wBusy with ibuf := [(0, 0x41#8)] };
      Built s ∧ s.dec.busy = true ∧ s.dec.lvl = 0 ∧ codeStands s.table s (65#9).toNat = true ∧ (65#9).toNat < 256) ∧
    (let s := { wBusy with ibuf := [(0, 0xFF#8), (1, 0x01#8)], dec := { wBusy.dec with len := 2 } };
      Built s ∧ s.dec.busy = true ∧ s.dec.lvl = 0 ∧ codeStands s.table s (256#9).toNat = true ∧ (256#9).toNat = 256) := by
  refine ⟨⟨built_of_table rfl rfl rfl, rfl, rfl, ?_, by decide⟩, ⟨built_of_table rfl rfl rfl, rfl, rfl, ?_, by decide⟩⟩
  · unfold codeStands
    simp only [show (65#9).toNat = 65 from rfl]
    rw [show entryAt wBusy.table 65 = ⟨8#8, BitVec.ofNat 32 65⟩ from wTable_low (by decide)]
    decide
  · unfold codeStands
    simp only [show (256#9).toNat = 256 from rfl]
    rw [show entryAt wBusy.table 256 = ⟨16#8, 0xFF01#32⟩ from wTable_256]
    decide

/-! ### The encoder -/

/-- With 7 bits held, the most there can be, and a code of 30 bits. -/
theorem witness_EncSymPacksTheCode :
    let s := packing [16#8, 255#8] 1 0x40 7 0
    s.tb.rom = some demoRom ∧ s.enc.idx < s.enc.len ∧ s.enc.nb ≤ 7 ∧ s.enc.acc < 2 ^ s.enc.nb ∧
      1 ≤ (entryAt demoRom.code 255).len.toNat ∧ (entryAt demoRom.code 255).len.toNat ≤ 30 ∧
      (entryAt demoRom.code 255).code.toNat < 2 ^ (entryAt demoRom.code 255).len.toNat := by decide

/-- With no bit, 1 bit and 7 bits left. -/
theorem witness_EncFlushPadsWithOnes :
    (let s := packing [48#8] 1 0 0 1;
      s.tb.rom = some demoRom ∧ s.enc.idx = s.enc.len ∧ s.enc.nb = 0 ∧ s.enc.acc < 2 ^ s.enc.nb) ∧
    (let s := packing [48#8] 1 0 1 1;
      s.enc.idx = s.enc.len ∧ 0 < s.enc.nb ∧ s.enc.nb ≤ 7 ∧ s.enc.acc < 2 ^ s.enc.nb) ∧
    (let s := packing [48#8] 1 0x7F 7 1;
      s.enc.idx = s.enc.len ∧ 0 < s.enc.nb ∧ s.enc.nb ≤ 7 ∧ s.enc.acc < 2 ^ s.enc.nb) := by decide

theorem witness_MachineRunsEncode :
    let s := packing [3#8, 208#8] 0 0 0 0
    s.turns = [] ∧ s.dec.busy = false ∧ s.enc.busy = true ∧ s.tb.rom = some demoRom ∧ s.enc.idx ≤ s.enc.len := by decide

/-- A valid code ROM, an idle encoder, a literal of two bytes and the empty literal. -/
theorem witness_valid_code_rom :
    wBuilt.tb.rom = some wRom ∧ ValidTable wRom.code ∧ wBuilt.enc.busy = false ∧ wBuilt.regs.argLen = 0 ∧
      2 ≤ { wBuilt with regs := { wBuilt.regs with argLen := 2 } }.regs.argLen := ⟨rfl, wRom_code_valid, rfl, rfl, by decide⟩

/-! ### The laws -/

theorem witness_DecodeOfEncodeIsTheLiteral : Built wBuilt ∧ RoundTripSafe wBuilt.table := ⟨wBuilt_built, wTable_safe⟩

/-- The witness instance with a literal and a buffer of two bytes. -/
def wTwo : State :=
  { wBuilt with ibuf := [(0, 0x41#8), (1, 0x42#8)], lit := [(0, 0x41#8), (1, 0x42#8)], regs := { wBuilt.regs with argLen := 2 } }

theorem wTwo_built : Built wTwo := built_of_table rfl rfl rfl

/-- The buffer 41 42 is accepted. -/
theorem witness_AcceptedBuffersAreCanonical :
    Built wTwo ∧ (after (decodeWhole wTwo)).map (fun t => (t.dec.ok, t.out)) = some (true, [0x41#8, 0x42#8]) :=
  ⟨wTwo_built, by decide +kernel⟩

/-- The literal 41 42 encodes to 41 42, and a buffer with one bit flipped is decoded. -/
theorem witness_CorruptedEncodingNeverDecodesToTheLiteral :
    Built wTwo ∧ (after (encodeWhole wTwo)).map (fun t => t.sink) = some [0x41#8, 0x42#8] ∧
    (after (decodeWhole { wTwo with ibuf := Memory.ofList unlistedByte [0x41#8, 0x43#8] })).map (fun t => t.dec.ok) = some true :=
  ⟨wTwo_built, by decide +kernel, by decide +kernel⟩

theorem witness_TruncatedEncodingDecodesToAProperPrefix :
    Built wTwo ∧ (after (encodeWhole wTwo)).map (fun t => decide (2 ≤ t.enc.cnt)) = some true ∧
    (after (decodeWhole { wTwo with ibuf := Memory.ofList unlistedByte [0x41#8], regs := { wTwo.regs with argLen := 1 } })).map
      (fun t => (t.dec.ok, t.out)) = some (true, [0x41#8]) :=
  ⟨wTwo_built, by decide +kernel, by decide +kernel⟩

/-- Two states that share what the operations read and differ in the rest. -/
theorem witness_OperationsDependOnTheirOperandsOnly :
    let s := { demo with ibuf := [(0, 0x1F#8)], lit := [(0, 3#8)], regs := { demo.regs with argLen := 1 } }
    let s' := { s with out := [1#8], sink := [2#8], dec := { s.dec with lvl := 5 }, enc := { s.enc with nb := 3 } }
    s.tb.rom = some demoRom ∧ s'.tb.rom = some demoRom ∧ s'.enc.busy = false ∧ (after (decodeWhole s)).isSome = true ∧
      (after (encodeWhole s)).isSome = true ∧ (after (exec .size s)).isSome = true ∧ (after (exec .getcode s)).isSome = true := by decide

theorem witness_DecoderAndEncoderStepsCommute : Inv wBusy ∧ wBusy.dec.busy = true ∧ wBusy.enc.busy = true := ⟨wBusy_inv, rfl, rfl⟩

/-! ### The tree builder -/

/-- A valid table, and entries that fail each check first: length 0, length 31, a code one too great. -/
theorem witness_ValidateReportsTheLowestBadEntry :
    State.reset.tb.fresh = true ∧ State.reset.levelsInRange = true ∧
    (∀ i, i ≤ 256 → ValidEntry (entryAt wTable i)) ∧
    (entryAt State.reset.table 0).len.toNat = 0 ∧
    30 < (entryAt [(0, ⟨31#8, 0#32⟩)] 0).len.toNat ∧
    (1 ≤ (entryAt [(0, ⟨30#8, 0x40000000#32⟩)] 0).len.toNat ∧ (entryAt [(0, ⟨30#8, 0x40000000#32⟩)] 0).len.toNat ≤ 30 ∧
      2 ^ (entryAt [(0, ⟨30#8, 0x40000000#32⟩)] 0).len.toNat ≤ (entryAt [(0, ⟨30#8, 0x40000000#32⟩)] 0).code.toNat) :=
  ⟨rfl, rfl, fun i h => wTable_wellFormed.1 i (Nat.lt_succ_of_le h), by decide, by decide, by decide⟩

/-- An empty root takes a code of 1 bit and one of 30 bits; a filled slot collides; an image at its limit has no room. -/
theorem witness_InsertFillsTheCodesPath :
    (building [] 1 0).tb.work = some ⟨[], 1, 0⟩ ∧
    FreePath [] 1 1 4 0 1 ∧ 1 + newLevels [] 1 1 4 0 1 ≤ (building [] 1 0).maxLevels ∧
    FreePath [] 1 0x3FFFFFFE 4 0 30 ∧ 1 + newLevels [] 1 0x3FFFFFFE 4 0 30 ≤ (building [] 1 0).maxLevels ∧
    ¬ FreePath [(0xC0, 0x4308#16)] 1 0xC0 4 0 8 ∧
    (FreePath [] 1 0x1FE 4 0 9 ∧ { building [] 1 0 with maxLevels := 1 }.maxLevels < 1 + newLevels [] 1 0x1FE 4 0 9) := by
  refine ⟨rfl, ?_, by decide, ?_, by decide, ?_, ?_, by decide⟩
  · simp [FreePath, trieWord]
  · simp [FreePath, trieWord, nodeDecode, emptyWord]
  · simp only [FreePath, Nat.le_refl, if_true]
    intro h
    have := h 0xC0 (by simp [inFillRange, Config.fanout])
    revert this
    decide
  · simp [FreePath, trieWord, nodeDecode, emptyWord]

/-- A build that has begun, a fresh one with MAX_LEVELS on each side of its range, a build that ends. -/
theorem witness_BuildRunsOnce :
    (demo.tb.fresh = false ∧ demo.tb.work = none) ∧
    ({ State.reset with maxLevels := 0 }.tb.fresh = true ∧ { State.reset with maxLevels := 1025 }.tb.fresh = true) ∧
    (State.reset.tb.work = none ∧ (after (exec .tbBuild State.reset)).isSome = true) := by decide +kernel

theorem witness_BuildEndsWithAnImageOrARecord : State.reset.tb.fresh = true ∧ State.reset.levelsInRange = true := by decide

/-- A build begun with TB.VALIDATE, and one with its next entry inserted. -/
theorem witness_BuildIsValidateThenInserts :
    State.reset.tb.fresh = true ∧ State.reset.levelsInRange = true ∧ (after (exec .tbValidate State.reset)).isSome = true ∧
    (let s := { building [] 1 48 with table := [(48, ⟨8#8, 0xC0#32⟩)] };
      s.tb.work = some ⟨[], 1, 48⟩ ∧ (48 : Nat) < 257 ∧
      (after (exec (.tbInsert ((entryAt s.table 48).len.setWidth 5) ((entryAt s.table 48).code.setWidth 30)) s)).isSome = true) := by
  decide +kernel

theorem witness_BuiltImageIsWellFormed : Built wBuilt ∧ wBuilt.tb.rom = some wRom := ⟨wBuilt_built, rfl⟩

/-- The witness table needs two levels. -/
theorem wTable_levels : levelsNeeded wTable = 2 := by decide +kernel

/-- Both sides: the witness table with its two levels allowed, and with one. -/
theorem witness_BuildSucceedsExactlyOnPrefixCodes :
    (let s := { State.reset with table := wTable, maxLevels := 2 };
      s.tb.fresh = true ∧ s.levelsInRange = true ∧ WellFormedTable s.table ∧ levelsNeeded s.table ≤ s.maxLevels) ∧
    (let s := { State.reset with table := wTable, maxLevels := 1 };
      s.tb.fresh = true ∧ s.levelsInRange = true ∧ ¬ levelsNeeded s.table ≤ s.maxLevels) := by
  refine ⟨⟨rfl, rfl, wTable_wellFormed, ?_⟩, rfl, rfl, ?_⟩ <;> simp [wTable_levels]

theorem witness_NoStepChangesABuiltInstance :
    demo.tb.rom = some demoRom ∧ demo.tb.ok = true ∧ demo.tb.work = none ∧ (after (step demo)).isSome = true := by decide

/-! ### Buffers, the invariant, encodings -/

/-- Both operations in progress, and a step goes on. -/
theorem witness_BorrowedBuffersAreLeftAlone :
    let s := { walking [0x1F#8] 0 0 with enc := { Enc.reset with len := 1, busy := true } }
    (after (step s)).isSome = true ∧ s.dec.busy = true ∧ s.enc.busy = true := by decide

theorem witness_StepKeepsTheInvariant : Inv wBusy ∧ (after (step wBusy)).isSome = true := ⟨wBusy_inv, by decide +kernel⟩

theorem witness_InvariantStatesNeverStop : Inv wBusy ∧ wBusy.host = [] := ⟨wBusy_inv, rfl⟩

/-- A node word's fields at the ends of their ranges, a table entry, and a code of a well formed table. -/
theorem witness_DecodeOfEncodeIsTheInstruction :
    WellFormed.instr ⟨1024, []⟩ (.nLeaf 255#9 8#4) = true ∧ WellFormed.instr ⟨1024, []⟩ (.nBranch 1023#10) = true ∧
    WellFormed.instr ⟨1024, []⟩ (.tbInsert 30#5 0x3FFFFFFF#30) = true ∧
    (WellFormed.instr ⟨1024, wTable⟩ (.sCode 256#9) = true ∧ WellFormedTable wTable ∧
      encode ⟨1024, wTable⟩ (.sCode 256#9) = some (.s (codeBits (entryAt wTable 256)))) :=
  ⟨by decide, by decide, by decide, by decide, wTable_wellFormed, rfl⟩

/-- A leaf and a branch at the end of their ranges. -/
theorem witness_NodeDecodeAcceptsExactlyTheLegalWords :
    nodeDecode 28 0x5008#16 = .leaf 256#9 8#4 ∧ nodeDecode 28 0x801B#16 = .branch 27#10 ∧ nodeDecode 28 0x801C#16 = .invalid := by decide

/-- Out of turn: no image; no real bit left; real bits left; a level past the image; no literal byte left; one left; no code at the cursor; no
build under way; a tail at a leaf that completes, at an Invalid word, at a level past the image; a build with every entry inserted. -/
theorem witness_StepsOutOfTurnStopByName :
    State.reset.tb.rom = none ∧ (walking [0xC0#8] 0 8).dec.rem = 0 ∧ 8 ≤ (walking [0xC0#8] 0 0).dec.rem ∧
    (walking [0xC0#8] 28 0).nlevels ≤ (walking [0xC0#8] 28 0).dec.lvl ∧ (packing [3#8] 1 3 5 0).enc.len ≤ (packing [3#8] 1 3 5 0).enc.idx ∧
    (packing [3#8] 0 0 0 0).enc.idx < (packing [3#8] 0 0 0 0).enc.len ∧
    codeStands demo.table (walking [0x1E#8] 0 0) 80 = false ∧ demo.tb.work = none ∧
    (let s := walking [0x3F#8] 0 1;
      1 ≤ s.dec.rem ∧ s.dec.rem ≤ 7 ∧ s.dec.lvl < s.nlevels ∧ nodeAt ⟨[(0x7F, 0x4035#16)], []⟩ s = .leaf 3#9 5#4 ∧ (5#4).toNat ≤ s.dec.rem) ∧
    nodeAt ⟨[(0x7F, 0x4000#16)], []⟩ (walking [0x3F#8] 0 1) = .invalid ∧
    ((walking [0x3F#8] 28 1).dec.rem = 7 ∧ (walking [0x3F#8] 28 1).nlevels ≤ (walking [0x3F#8] 28 1).dec.lvl) ∧
    (building [] 1 257).tb.work = some ⟨[], 1, 257⟩ := by decide

end Sys2Proof.Tests
end

/-! Proofs of the scope statements (spec/00_scope.md, spec/10_state.md R20, R21, spec/40_tree_builder.md R70): what the host's moves write, and that TB runs once. -/

namespace Sys2Proof.Machine

open Sys2Proof.Safety

/-! ### TB runs once -/

/-- Nothing is under construction in a TB that has not begun. -/
theorem Tb.work_of_fresh {t : Tb} (h : t.fresh = true) : t.work = none := by
  simp only [Tb.fresh, Bool.and_eq_true, Option.isNone_iff_eq_none] at h
  exact h.2

theorem levelsInRange_of_outside {s : State} (h : s.maxLevels = 0 ∨ 1024 < s.maxLevels) : s.levelsInRange = false := by
  simp only [State.levelsInRange, Config.maxLevelsLimit, decide_eq_false_iff_not]
  omega

theorem execTbValidate_notFresh {s : State} (hf : s.tb.fresh = false) : execTbValidate s = .refused .buildRunsOnce := by
  simp [execTbValidate, hf]

theorem execTbValidate_outOfRange {s : State} (hf : s.tb.fresh = true) (hl : s.levelsInRange = false) :
    execTbValidate s = .refused .badParameter := by
  simp [execTbValidate, hf, hl]

theorem execTbBuild_notFresh {s : State} (hw : s.tb.work = none) (hf : s.tb.fresh = false) :
    execTbBuild s = .refused .buildRunsOnce := by
  simp [execTbBuild, hw, hf]

theorem execTbBuild_outOfRange {s : State} (hf : s.tb.fresh = true) (hl : s.levelsInRange = false) :
    execTbBuild s = .refused .badParameter := by
  simp [execTbBuild, Tb.work_of_fresh hf, hf, hl]

/-- TB.BUILD with nothing under construction goes on only from a fresh TB with MAX_LEVELS in its range, and records the whole build. -/
theorem execTbBuild_next_of_noWork {s t : State} (hw : s.tb.work = none) (h : execTbBuild s = .next t) :
    s.tb.fresh = true ∧ s.levelsInRange = true ∧ t = recordBuild s (buildTable s.maxLevels s.table) := by
  cases hf : s.tb.fresh with
  | false => rw [execTbBuild_notFresh hw hf] at h; cases h
  | true =>
    cases hl : s.levelsInRange with
    | false => rw [execTbBuild_outOfRange hf hl] at h; cases h
    | true =>
      simp only [execTbBuild, hw, hf, hl, if_true] at h
      cases h
      exact ⟨rfl, rfl, rfl⟩

/-- A build that fails names its cause: TB.VALIDATE's of R71, or an insertion's of R72, R73, R79. -/
theorem buildTable_error_cause {maxLevels : Nat} {t : CodeTable} {c : BuildCause} {i : Nat}
    (h : buildTable maxLevels t = .error (c, i)) : c ≠ .none := by
  unfold buildTable at h
  cases hv : validateTable t with
  | some e =>
    rw [hv] at h; cases h
    rcases checkFields_some (validateTable_some hv).2 with rfl | rfl <;> decide
  | none =>
    rw [hv] at h
    have valid : ValidTable t := validateTable_none.1 hv
    have cause := (insertMany_error h fun j _ hj => valid j (by simpa [emptyWork] using hj)).1
    rcases cause with rfl | rfl <;> decide

/-- Once a build's end is recorded, success or failure, TB is fresh no more and has nothing under construction. -/
theorem recordBuild_ends (s : State) {e : Except (BuildCause × Nat) TbWork} (he : ∀ c i, e = .error (c, i) → c ≠ .none) :
    (recordBuild s e).tb.work = none ∧ (recordBuild s e).tb.fresh = false := by
  match e with
  | .ok w => exact ⟨rfl, rfl⟩
  | .error (c, i) =>
    have hc : c ≠ .none := he c i rfl
    exact ⟨rfl, by simp [recordBuild, Tb.fresh, hc]⟩

/-- Settles O45: each refusal is a branch of TB.VALIDATE or TB.BUILD, and the record that a build leaves, of success or with a cause, is
never that of a fresh TB. -/
theorem buildRunsOnce : Obligations.BuildRunsOnce := by
  unfold Obligations.BuildRunsOnce
  refine ⟨fun s hf => ?notFresh, fun s hf hm => ?outOfRange, fun s t hw h => ?again⟩
  case notFresh => exact ⟨execTbValidate_notFresh hf, fun hw => execTbBuild_notFresh hw hf⟩
  case outOfRange =>
    have hl := levelsInRange_of_outside hm
    exact ⟨execTbValidate_outOfRange hf hl, execTbBuild_outOfRange hf hl⟩
  case again =>
    obtain ⟨_, _, rfl⟩ := execTbBuild_next_of_noWork hw h
    obtain ⟨work, notFresh⟩ := recordBuild_ends s fun _ _ => buildTable_error_cause (maxLevels := s.maxLevels) (t := s.table)
    exact execTbBuild_notFresh work notFresh

/-! ### The host's moves, each once made -/

/-- A pending move that no duty forbids is made in the host's turn. -/
theorem step_madeMove {s : State} {m : HostMove} {ms : List HostMove} {ts : List Agent} (h1 : s.turns = .host :: ts)
    (h2 : s.host = m :: ms) (hm : hostMayMove m { s with turns := ts } = true) :
    step s = moveResult m { s with turns := ts, host := ms } := by
  rw [step_hostMove h1 h2, if_pos hm]

theorem moveResult_writeArgLen {s : State} {r : Rom} (hr : s.tb.rom = some r) (n : Nat) :
    moveResult (.writeArgLen n) s = .next { s with regs := { s.regs with argLen := n % 2 ^ s.lenW } } := by
  simp [moveResult, hostAction, registerWrite, argLenValue, hr]

theorem moveResult_writeArgByte {s : State} {r : Rom} (hr : s.tb.rom = some r) (b : Byte) :
    moveResult (.writeArgByte b) s = .next { s with regs := { s.regs with argByte := b } } := by
  simp [moveResult, hostAction, registerWrite, hr]

theorem moveResult_writeArg_noInstance {s : State} {m : HostMove} {n : Nat} {b : Byte} (hr : s.tb.rom = none)
    (hm : m = .writeArgLen n ∨ m = .writeArgByte b) : moveResult m s = .refused .noInstance := by
  rcases hm with rfl | rfl <;> simp [moveResult, hostAction, registerWrite, hr]

theorem moveResult_supplyTable {s : State} (hf : s.tb.fresh = true) {entries : List CodeEntry} {maxLevels : Nat}
    (h1 : 1 ≤ maxLevels) (h2 : maxLevels ≤ 1024) :
    moveResult (.supplyTable entries maxLevels) s =
      .next { s with table := Memory.ofList CodeEntry.zero (entries.take Config.nsym), maxLevels := maxLevels } := by
  simp [moveResult, hostAction, hf, h1, h2]

theorem moveResult_supplyTable_outOfRange {s : State} (hf : s.tb.fresh = true) (entries : List CodeEntry) {maxLevels : Nat}
    (h : maxLevels = 0 ∨ 1024 < maxLevels) : moveResult (.supplyTable entries maxLevels) s = .refused .badParameter := by
  have hr : ¬ (1 ≤ maxLevels ∧ maxLevels ≤ Config.maxLevelsLimit) := by simp only [Config.maxLevelsLimit]; omega
  simp only [moveResult, hostAction, hf, if_true, if_neg hr]

theorem moveResult_supplyTable_notFresh {s : State} (hf : s.tb.fresh = false) (entries : List CodeEntry) (maxLevels : Nat) :
    moveResult (.supplyTable entries maxLevels) s = .refused .buildRunsOnce := by
  simp [moveResult, hostAction, hf]

/-- The supplied table reads as the entries given, and as zero where fewer than 257 are given. -/
theorem entryAt_suppliedTable (entries : List CodeEntry) {i : Nat} (h : i < 257) :
    entryAt (Memory.ofList CodeEntry.zero (entries.take Config.nsym)) i = entries.getD i CodeEntry.zero := by
  rw [entryAt, Memory.read_ofList]
  simp [List.getD_eq_getElem?_getD, Config.nsym, h]

/-- Settles O4: the host's turn makes the pending move, no duty forbidding it, and the lemma on that move says what it writes. -/
theorem hostMovesWriteWhatTheyName : Obligations.HostMovesWriteWhatTheyName := by
  unfold Obligations.HostMovesWriteWhatTheyName
  intro s m ms ts h1 h2 u
  have made : hostMayMove m { s with turns := ts } = true → step s = moveResult m u := step_madeMove h1 h2
  refine ⟨?argLen, ?argByte, ?noInstance, ?ibuf, ?lit, ?out, ?sink, ?table, ?build, ?validate⟩
  case argLen =>
    rintro r n hr rfl
    exact (made rfl).trans (moveResult_writeArgLen (s := u) hr n)
  case argByte =>
    rintro r b hr rfl
    exact (made rfl).trans (moveResult_writeArgByte (s := u) hr b)
  case noInstance =>
    intro n b hr hm
    have may : hostMayMove m { s with turns := ts } = true := by rcases hm with rfl | rfl <;> rfl
    exact (made may).trans (moveResult_writeArg_noInstance (s := u) hr hm)
  case ibuf =>
    intro bytes hd hm
    refine ⟨Memory.ofList unlistedByte bytes, ?_, bufferBytes_ofList bytes, Memory.wf_ofList bytes⟩
    rcases hm with rfl | ⟨rfl, he, rfl⟩
    · exact made (by simp [hostMayMove, State.decIdle, hd])
    · exact made (by simp [hostMayMove, State.decIdle, State.encIdle, hd, he])
  case lit =>
    intro bytes he hm
    refine ⟨Memory.ofList unlistedByte bytes, ?_, bufferBytes_ofList bytes, Memory.wf_ofList bytes⟩
    rcases hm with rfl | ⟨rfl, hd, rfl⟩
    · exact made (by simp [hostMayMove, State.encIdle, he])
    · exact made (by simp [hostMayMove, State.decIdle, State.encIdle, hd, he])
  case out =>
    rintro bytes hd rfl
    exact made (by simp [hostMayMove, State.decIdle, hd])
  case sink =>
    rintro bytes he rfl
    exact made (by simp [hostMayMove, State.encIdle, he])
  case table =>
    rintro entries maxLevels rfl
    refine ⟨fun hf hlo hhi => ?_, fun hf hm => ?_, fun hf => ?_⟩
    · exact ⟨Memory.ofList CodeEntry.zero (entries.take Config.nsym),
        (made rfl).trans (moveResult_supplyTable (s := u) hf hlo hhi), fun i hi => entryAt_suppliedTable entries hi,
        Memory.wf_ofList _⟩
    · exact (made rfl).trans (moveResult_supplyTable_outOfRange (s := u) hf entries hm)
    · exact (made rfl).trans (moveResult_supplyTable_notFresh (s := u) hf entries maxLevels)
  case build =>
    rintro rfl
    exact made rfl
  case validate =>
    rintro rfl
    exact made rfl

end Sys2Proof.Machine

/-! Proofs of the state statements (spec/10_state.md R12 to R24, R168): what reset writes, what the host reads, which instruction a step runs, and
the invariant that every step keeps. -/

namespace Sys2Proof.Machine

open Sys2Proof.Safety

/-! ### One agent's turn, by what is in turn -/

/-- With nothing scheduled the default agent moves (log 6). -/
theorem step_unscheduled {s : State} (h : s.turns = []) : step s = turnResult (defaultAgent s) s := by
  rcases step_eq_turn s with ⟨_, e⟩ | ⟨_, _, h', _⟩
  · exact e
  · rw [h] at h'; cases h'

theorem defaultAgent_dec {s : State} (hd : s.dec.busy = true) : defaultAgent s = .dec := by
  simp [defaultAgent, hd]

theorem defaultAgent_enc {s : State} (hd : s.dec.busy = false) (he : s.enc.busy = true) : defaultAgent s = .enc := by
  simp [defaultAgent, hd, he]

theorem defaultAgent_tb {s : State} {w : TbWork} (hd : s.dec.busy = false) (he : s.enc.busy = false) (hw : s.tb.work = some w) :
    defaultAgent s = .tb := by
  simp [defaultAgent, hd, he, hw]

theorem defaultAgent_host {s : State} (hd : s.dec.busy = false) (he : s.enc.busy = false) (hw : s.tb.work = none) :
    defaultAgent s = .host := by
  simp [defaultAgent, hd, he, hw]

/-- The host's turn makes a pending move that no duty forbids. -/
theorem turnResult_host_made {s : State} {m : HostMove} {ms : List HostMove} (hh : s.host = m :: ms) (hm : hostMayMove m s = true) :
    turnResult .host s = moveResult m { s with host := ms } := by
  simp [turnResult, agentTurn, hostTurn, moveResult, hh, hm]

/-- TB's turn runs the table entry in turn, when it decodes. -/
theorem turnResult_tb_entry {s : State} {w : TbWork} {i : Instr} (hw : s.tb.work = some w) (hn : w.next < Config.nsym)
    (hd : decodeT (entryWord (entryAt s.table w.next)) = .ok i) : turnResult .tb s = exec i s := by
  simp [turnResult, agentTurn, builderTurn, hw, hn, hd]

/-- An entry that does not decode fails the build (R61; log 22). -/
theorem turnResult_tb_badEntry {s : State} {w : TbWork} {e : DecodeError} (hw : s.tb.work = some w) (hn : w.next < Config.nsym)
    (hd : decodeT (entryWord (entryAt s.table w.next)) = .error e) :
    turnResult .tb s = .next (buildFailure (causeOfError e) w.next s) := by
  simp [turnResult, agentTurn, builderTurn, hw, hn, hd]

/-- After the last entry TB's turn runs TB.BUILD (R74). -/
theorem turnResult_tb_end {s : State} {w : TbWork} (hw : s.tb.work = some w) (hn : ¬ w.next < Config.nsym) :
    turnResult .tb s = exec .tbBuild s := by
  simp [turnResult, agentTurn, builderTurn, hw, hn]

/-- A command the host gives two idle units, over buffers that hold the bytes it names, is not held back. -/
theorem hostMayMove_writeCmd {s : State} {op : BitVec 3} (hd : s.dec.busy = false) (he : s.enc.busy = false)
    (hi : op = 1#3 → s.regs.argLen ≤ s.ibufLen) (hl : op = 2#3 ∨ op = 3#3 → s.regs.argLen ≤ s.litLen) :
    hostMayMove (.writeCmd op) s = true := by
  have opcode : ∀ v : BitVec 3, op.toNat = v.toNat → op = v := fun _ => BitVec.eq_of_toNat_eq
  simp only [hostMayMove, State.decIdle, State.encIdle, lengthIsTrue, hd, he]
  split
  · simpa using hi (opcode 1#3 (by assumption))
  · simpa using hl (.inl (opcode 2#3 (by assumption)))
  · simpa using hl (.inr (opcode 3#3 (by assumption)))
  · rfl
  · rfl

/-- No format T word is refused as a missing code. -/
theorem decodeT_error {w : BitVec 40} {e : DecodeError} (h : decodeT w = .error e) : e = .badLength ∨ e = .badCode := by
  simp only [decodeT] at h
  split at h
  · cases h; exact .inl rfl
  · split at h <;> cases h
    exact .inr rfl

/-- DEC.STEP with no real bit left is DEC.END. -/
theorem execDecStep_end {s : State} {r : Rom} (hr : s.tb.rom = some r) (h0 : s.dec.rem = 0) : execDecStep s = exec .decEnd s := by
  show _ = execDecEnd s
  rw [execDecStep, execDecEnd, withRom_some hr, withRom_some hr, if_pos h0, if_pos h0]

/-- DEC.STEP with a real bit left runs the decoded node word at the walk position (R88). -/
theorem execDecStep_node {s : State} {r : Rom} (hr : s.tb.rom = some r) (h0 : s.dec.rem ≠ 0) (hl : s.dec.lvl < s.nlevels) :
    execDecStep s = exec (decodeN s.nlevels (trieWord r.trie s.dec.lvl s.key)) s := by
  rw [exec_decodeN hr h0, execDecStep, withRom_some hr, if_neg h0, withNode, if_pos hl]
  rfl

/-- With nothing scheduled a step in a DECODE is DEC.STEP. -/
theorem step_decoding {s : State} (ht : s.turns = []) (hb : s.dec.busy = true) : step s = execDecStep s := by
  rw [step_unscheduled ht, defaultAgent_dec hb, turnResult_dec, if_pos hb]

/-! ### Code ROMs that hold a valid table -/

/-- The entry of a literal byte is one of a valid table's. -/
theorem validEntry_of_byte {t : CodeTable} (ht : ValidTable t) (b : Byte) : ValidEntry (entryAt t b.toNat) :=
  ht b.toNat (by have := b.isLt; simp only [Config.nsym]; omega)

/-- The code ROM of a successful build is valid when its table is (R76). -/
theorem validTable_restrict {t : CodeTable} (ht : ValidTable t) : ValidTable (Memory.restrict Config.nsym t) := by
  intro i hi
  rw [entryAt_restrict t hi]
  exact ht i hi

/-- SIZE's sum takes at most 30 bits a byte (R116). -/
theorem sumLengths_le {code : CodeTable} (hc : ValidTable code) (lit : Memory Byte) (n : Nat) :
    sumLengths code lit n ≤ 30 * n := by
  induction n with
  | zero => exact Nat.le_refl 0
  | succ n ih =>
    obtain ⟨_, hlen, _⟩ := validEntry_of_byte hc (readByte lit n)
    simp only [sumLengths, Config.maxLen] at hlen ⊢
    omega

/-! ### The build, resumed and recorded -/

/-- A build under way ends as the whole build does (R74). -/
theorem insertMany_rest {m : Nat} {t : CodeTable} {w : TbWork} (hv : validateTable t = none) (hn : w.next ≤ Config.nsym)
    (hw : insertMany m t w.next emptyWork = .ok w) : insertMany m t (Config.nsym - w.next) w = buildTable m t := by
  have whole := insertMany_add m t w.next (Config.nsym - w.next) emptyWork
  rw [Nat.add_sub_cancel' hn, hw] at whole
  simp only [buildTable, hv]
  exact whole.symm

/-- One more insertion of a build under way. -/
theorem insertMany_emptyWork_succ {m : Nat} {t : CodeTable} {w w' : TbWork} (hw : insertMany m t w.next emptyWork = .ok w)
    (h : insertNext m (entryAt t w.next).len.toNat (entryAt t w.next).code.toNat w = .ok w') :
    insertMany m t w'.next emptyWork = .ok w' := by
  rw [insertNext_next h, insertMany_add, hw]
  simp only [insertMany, h]

/-- An image under construction is canonical and has between 1 and MAX_LEVELS levels. -/
theorem insertMany_emptyWork_keeps {m k : Nat} {t : CodeTable} {w : TbWork} (hm : 1 ≤ m)
    (h : insertMany m t k emptyWork = .ok w) : Memory.wf emptyWord w.trie = true ∧ 1 ≤ w.n ∧ w.n ≤ m :=
  insertMany_keeps h rfl hm

theorem ceil8_zero : ceil8 0 = 0 := by decide

theorem levelsInRange_iff {s : State} : s.levelsInRange = true ↔ 1 ≤ s.maxLevels ∧ s.maxLevels ≤ 1024 := by
  simp [State.levelsInRange, Config.maxLevelsLimit]

/-- NLEVELS after a successful build is the level count of the image: 11 bits hold it (R17). -/
theorem nlevels_buildSuccess {s : State} {w : TbWork} (hl : s.levelsInRange = true) (hw : w.n ≤ s.maxLevels) :
    (buildSuccess w s).nlevels = w.n := by
  obtain ⟨_, hmax⟩ := levelsInRange_iff.1 hl
  simp only [State.nlevels, buildSuccess_tb, BitVec.toNat_ofNat]
  omega

/-- A fresh TB has no image, no cause and reports no success. -/
theorem Tb.fresh_iff {t : Tb} : t.fresh = true ↔ t.ok = false ∧ t.cause = .none ∧ t.rom = none ∧ t.work = none := by
  simp [Tb.fresh, and_assoc]

/-! ### The invariant, read -/

/-- The level a walk is at exists (R36). -/
theorem lvl_lt_of_inv {s : State} {r : Rom} (h : Inv s) (hr : s.tb.rom = some r) : s.dec.lvl < s.nlevels := by
  obtain ⟨_, _, ⟨_, _, _, hl⟩, _⟩ := h
  simpa [hr] using hl

/-- With no image the decoder is idle at the root. -/
theorem dec_idle_of_inv {s : State} (h : Inv s) (hr : s.tb.rom = none) : s.dec.lvl = 0 ∧ s.dec.busy = false := by
  obtain ⟨_, _, ⟨_, _, _, hl⟩, _⟩ := h
  simpa [hr] using hl

/-- The code ROM of a codec is that of a valid table. -/
theorem validCode_of_inv {s : State} {r : Rom} (h : Inv s) (hr : s.tb.rom = some r) : ValidTable r.code := by
  obtain ⟨⟨_, _, hBuilt, _⟩, _⟩ := h
  obtain ⟨w, hb, _, _, hrom, _⟩ := built_image (hBuilt (by rw [hr]; rfl))
  cases hr.symm.trans hrom
  exact validTable_restrict (buildTable_ok hb).1

/-! ### The decoder keeps the invariant -/

/-- The decoder's part of the invariant, said of its registers alone: what a write of them owes with `nlevels` levels in the image, operands
of `lenW` bits and `known` bytes in IBUF. -/
def DecRegsOk (lenW nlevels known : Nat) (d : Dec) : Prop :=
  (d.len < 2 ^ lenW ∧ d.cur ≤ 8 * d.len ∧ d.outcnt ≤ d.cur ∧ d.lvl < nlevels) ∧
  (d.busy = true → d.len ≤ known ∧ d.done = false ∧ d.ok = false ∧ d.cause = .none) ∧
  (d.ok = true → d.cause = .none)

theorem decRegsOk_of_inv {s : State} {r : Rom} (h : Inv s) (hr : s.tb.rom = some r) :
    DecRegsOk s.lenW s.nlevels s.ibufLen s.dec := by
  have hl := lvl_lt_of_inv h hr
  obtain ⟨_, _, ⟨hlen, hcur, hout, _⟩, _, _, ⟨hbuf, _⟩, ⟨hd, hok, _⟩⟩ := h
  exact ⟨⟨hlen, hcur, hout, hl⟩, fun hb => ⟨hbuf hb, hd hb⟩, hok⟩

/-- A write of the decoder's registers and of OUT keeps the invariant when the new registers are in their ranges. -/
theorem inv_of_writesDec {s t : State} {r : Rom} (h : Inv s) (hr : s.tb.rom = some r) (ht : t = { s with dec := t.dec, out := t.out })
    (hd : DecRegsOk s.lenW s.nlevels s.ibufLen t.dec) : Inv t := by
  obtain ⟨⟨hlen, hcur, hout, hlvl⟩, hbusy, hok⟩ := hd
  obtain ⟨hTb, hMem, _, hEnc, hReg, ⟨_, hLit⟩, ⟨_, _, hE⟩⟩ := h
  have level : if s.tb.rom.isSome then t.dec.lvl < s.nlevels else t.dec.lvl = 0 ∧ t.dec.busy = false := by
    rw [hr]
    exact hlvl
  rw [ht]
  exact ⟨hTb, hMem, ⟨hlen, hcur, hout, level⟩, hEnc, hReg, ⟨fun hb => (hbusy hb).1, hLit⟩, ⟨fun hb => (hbusy hb).2, hok, hE⟩⟩

/-- A DEC.STEP of a walk keeps the decoder's registers in their ranges (R36, R88): a leaf takes at least the bit its byte counts, a branch
names a level of the image. -/
theorem execDecStep_decRegsOk {s t : State} (hd : DecRegsOk s.lenW s.nlevels s.ibufLen s.dec) (hb : s.dec.busy = true)
    (hs : execDecStep s = .next t) : DecRegsOk s.lenW s.nlevels s.ibufLen t.dec := by
  obtain ⟨⟨hlen, hcur, hout, hlvl⟩, hbusy, hok⟩ := hd
  obtain ⟨_, _, _, hcause⟩ := hbusy hb
  have hrem : s.dec.rem = 8 * s.dec.len - s.dec.cur := rfl
  rcases execDecStep_outcome hs with
    rfl | ⟨c, _, rfl⟩ | ⟨_, sym, bits, _, _, hn, _, hbits, _, rfl⟩ | ⟨_, next, _, _, hn, h8, rfl⟩
  · exact ⟨⟨hlen, hcur, hout, hlvl⟩, nofun, fun _ => hcause⟩
  · exact ⟨⟨hlen, hcur, hout, hlvl⟩, nofun, nofun⟩
  · obtain ⟨_, _, _, _, h1, _⟩ := nodeDecode_leaf hn
    refine ⟨?_, hbusy, hok⟩
    simp only [leafEffect_dec]
    omega
  · obtain ⟨_, _, _, hnext⟩ := nodeDecode_branch hn
    refine ⟨?_, hbusy, hok⟩
    simp only [branchEffect_dec]
    omega

theorem execDecStep_keeps_inv {s t : State} (h : Inv s) (hb : s.dec.busy = true) (hs : execDecStep s = .next t) : Inv t := by
  obtain ⟨r, hr, _⟩ := execDecStep_next hs
  exact inv_of_writesDec h hr (execDecStep_writes hs) (execDecStep_decRegsOk (decRegsOk_of_inv h hr) hb hs)

theorem turnDec_keeps_inv {s t : State} (h : Inv s) (ht : turnResult .dec s = .next t) : Inv t := by
  rw [turnResult_dec] at ht
  split at ht
  · exact execDecStep_keeps_inv h (by assumption) ht
  · cases ht; exact h

/-! ### The encoder keeps the invariant -/

/-- ENC.SYM of a literal byte keeps the invariant (R14, R112). -/
theorem symEffect_keeps_inv {s : State} {r : Rom} (h : Inv s) (hr : s.tb.rom = some r) (hb : s.enc.busy = true)
    (hi : s.enc.idx < s.enc.len) (b : Byte) : Inv (symEffect r b s) := by
  have valid := validEntry_of_byte (validCode_of_inv h hr) b
  obtain ⟨hTb, hMem, hDec, ⟨hlen, _, _, hacc, hcnt, hrom⟩, hReg, hBuf, hFlag⟩ := h
  obtain ⟨bits, hnb', hacc', _⟩ := packCode_spec (entryAt r.code b.toNat) s.enc.acc s.enc.nb valid hacc
  refine ⟨hTb, hMem, hDec, ⟨hlen, hi, hnb', hacc', ?count, hrom⟩, hReg, hBuf, hFlag⟩
  obtain ⟨_, hmax, _⟩ := valid
  simp only [hb, if_true, symEffect_enc, Config.maxLen] at hcnt hmax ⊢
  omega

theorem flushBytes_length (e : Enc) : (flushBytes e).length = if 0 < e.nb then 1 else 0 := by
  unfold flushBytes
  split <;> rfl

/-- ENC.FLUSH keeps the invariant (R113): the byte it may add holds at most 7 padding bits. -/
theorem flushEffect_keeps_inv {s : State} (h : Inv s) (hb : s.enc.busy = true) : Inv (flushEffect s) := by
  obtain ⟨hTb, hMem, hDec, ⟨hlen, hidx, _, _, hcnt, _⟩, hReg, ⟨hIbuf, _⟩, ⟨hd, hok, _⟩⟩ := h
  refine ⟨hTb, hMem, hDec, ⟨hlen, hidx, Nat.zero_le 7, Nat.one_pos, ?count, fun _ => rfl⟩, hReg, ⟨hIbuf, nofun⟩, ⟨hd, hok, nofun⟩⟩
  simp only [flushEffect_enc, flushBytes_length, hb, if_true, Bool.false_eq_true, if_false] at hcnt ⊢
  split <;> omega

theorem turnEnc_keeps_inv {s t : State} (h : Inv s) (ht : turnResult .enc s = .next t) : Inv t := by
  cases hr : s.tb.rom with
  | none =>
    rw [turnResult_enc_none hr] at ht
    split at ht <;> cases ht
    exact h
  | some r =>
    rw [turnResult_enc hr] at ht
    cases ht
    split
    · rename_i hb
      split
      · exact symEffect_keeps_inv h hr hb (by assumption) _
      · exact flushEffect_keeps_inv h hb
    · exact h

/-! ### TB keeps the invariant -/

/-- A build that fails leaves no image, and the decoder and the encoder were idle without one. -/
theorem buildFailure_keeps_inv {s : State} (h : Inv s) (hr : s.tb.rom = none) (c : BuildCause) (i : Nat) :
    Inv (buildFailure c i s) := by
  have idle := dec_idle_of_inv h hr
  obtain ⟨⟨hl, _⟩, ⟨hibuf, hlit, htable, _⟩, ⟨hlen, hcur, hout, _⟩, ⟨elen, eidx, enb, eacc, ecnt, eidle⟩, hReg, hBuf, hFlag⟩ := h
  exact ⟨⟨hl, rfl, nofun, nofun⟩, ⟨hibuf, hlit, htable, nofun, nofun⟩, ⟨hlen, hcur, hout, idle⟩,
    ⟨elen, eidx, enb, eacc, ecnt, fun _ => eidle hr⟩, hReg, hBuf, hFlag⟩

/-- A build that has inserted some entries of a valid table goes on. -/
theorem work_keeps_inv {s : State} (h : Inv s) (hr : s.tb.rom = none) (hc : s.tb.cause = .none)
    (hv : validateTable s.table = none) {w : TbWork} (hn : w.next ≤ Config.nsym)
    (hw : insertMany s.maxLevels s.table w.next emptyWork = .ok w) : Inv { s with tb := { s.tb with work := some w } } := by
  obtain ⟨⟨hl, hok, hBuilt, _⟩, ⟨hibuf, hlit, htable, hrom, _⟩, hDec, hEnc, hReg, hBuf, hFlag⟩ := h
  have canonical := (insertMany_emptyWork_keeps (levelsInRange_iff.1 hl).1 hw).1
  refine ⟨⟨hl, hok, ?noImage, ?work⟩, ⟨hibuf, hlit, htable, hrom, ?canonical⟩, hDec, hEnc, hReg, hBuf, hFlag⟩
  case noImage => rw [hr]; nofun
  case work => rintro _ ⟨⟩; exact ⟨hr, hc, hv, hn, hw⟩
  case canonical => rintro _ ⟨⟩; exact canonical

/-- The end of a successful build makes the codec (R74). -/
theorem buildSuccess_keeps_inv {s : State} (h : Inv s) (hr : s.tb.rom = none) {w : TbWork}
    (hb : buildTable s.maxLevels s.table = .ok w) : Inv (buildSuccess w s) := by
  obtain ⟨hlvl, hbusy⟩ := dec_idle_of_inv h hr
  obtain ⟨⟨hl, _⟩, ⟨hibuf, hlit, htable, _⟩, ⟨hlen, hcur, hout, _⟩, ⟨elen, eidx, enb, eacc, ecnt, _⟩, hReg, hBuf, hFlag⟩ := h
  obtain ⟨canonical, hn1, hnm⟩ := insertMany_emptyWork_keeps (levelsInRange_iff.1 hl).1 (buildTable_ok hb).2
  have built : Built (buildSuccess w s) := by
    refine ⟨hl, ?_⟩
    rw [buildSuccess_maxLevels, buildSuccess_table, hb]
    rfl
  have level : s.dec.lvl < (buildSuccess w s).nlevels := by
    rw [nlevels_buildSuccess hl hnm, hlvl]
    exact hn1
  refine ⟨⟨hl, rfl, fun _ => built, nofun⟩, ⟨hibuf, hlit, htable, ?images, nofun⟩, ⟨hlen, hcur, hout, level⟩,
    ⟨elen, eidx, enb, eacc, ecnt, nofun⟩, hReg, hBuf, hFlag⟩
  rintro _ ⟨⟩
  exact ⟨canonical, Memory.wf_restrict htable _⟩

theorem recordBuild_keeps_inv {s : State} (h : Inv s) (hr : s.tb.rom = none) :
    Inv (recordBuild s (buildTable s.maxLevels s.table)) := by
  match hb : buildTable s.maxLevels s.table with
  | .ok w => exact buildSuccess_keeps_inv h hr hb
  | .error (c, i) => exact buildFailure_keeps_inv h hr c i

/-- TB.BUILD, begun entry by entry or not, ends as the whole build of the table does, and runs while there is no image. -/
theorem execTbBuild_next_of_inv {s t : State} (h : Inv s) (ht : execTbBuild s = .next t) :
    s.tb.rom = none ∧ t = recordBuild s (buildTable s.maxLevels s.table) := by
  cases hw : s.tb.work with
  | none =>
    obtain ⟨hf, _, ht⟩ := execTbBuild_next_of_noWork hw ht
    exact ⟨(Tb.fresh_iff.1 hf).2.2.1, ht⟩
  | some w =>
    obtain ⟨⟨_, _, _, hWork⟩, _⟩ := h
    obtain ⟨hr, _, hv, hn, hins⟩ := hWork w hw
    simp only [execTbBuild, hw, insertMany_rest hv hn hins] at ht
    cases ht
    exact ⟨hr, rfl⟩

theorem execTbBuild_keeps_inv {s t : State} (h : Inv s) (ht : execTbBuild s = .next t) : Inv t := by
  obtain ⟨hr, rfl⟩ := execTbBuild_next_of_inv h ht
  exact recordBuild_keeps_inv h hr

theorem execTbValidate_keeps_inv {s t : State} (h : Inv s) (ht : execTbValidate s = .next t) : Inv t := by
  unfold execTbValidate at ht
  split at ht
  · rename_i hf
    obtain ⟨_, hc, hr, _⟩ := Tb.fresh_iff.1 hf
    split at ht
    · split at ht <;> cases ht
      · exact buildFailure_keeps_inv h hr _ _
      · rename_i hv
        exact work_keeps_inv h hr hc hv (w := emptyWork) (Nat.zero_le _) rfl
    · cases ht
  · cases ht

/-- TB's turn keeps the invariant: it inserts the entry in turn, or ends the build. -/
theorem turnTb_keeps_inv {s t : State} (h : Inv s) (ht : turnResult .tb s = .next t) : Inv t := by
  cases hw : s.tb.work with
  | none =>
    simp only [turnResult, agentTurn, builderTurn, hw] at ht
    cases ht
    exact h
  | some w =>
    have inv := h
    obtain ⟨⟨_, _, _, hWork⟩, _⟩ := h
    obtain ⟨hr, hc, hv, _, hins⟩ := hWork w hw
    have valid := validateTable_none.1 hv
    by_cases hn : w.next < Config.nsym
    · rw [turnResult_tb_entry hw hn (decodeT_entryWord (valid w.next hn))] at ht
      change execTbInsert _ _ s = .next t at ht
      obtain ⟨elen, ecode⟩ := entry_fields_toNat (valid w.next hn)
      simp only [execTbInsert, hw, hn, if_true, elen, ecode] at ht
      split at ht <;> cases ht
      · rename_i w' hi
        exact work_keeps_inv inv hr hc hv (by rw [insertNext_next hi]; exact hn) (insertMany_emptyWork_succ hins hi)
      · exact buildFailure_keeps_inv inv hr _ _
    · rw [turnResult_tb_end hw hn] at ht
      exact execTbBuild_keeps_inv inv ht

/-! ### The host keeps the invariant -/

theorem setCmd_keeps_inv {s : State} (h : Inv s) (op : BitVec 3) : Inv (s.setCmd op) := h

theorem startDecode_keeps_inv {s : State} {r : Rom} (h : Inv s) (hr : s.tb.rom = some r) (hl : s.regs.argLen ≤ s.ibufLen) :
    Inv (startDecode s) := by
  have level := lvl_lt_of_inv h hr
  have range : s.regs.argLen < 2 ^ s.lenW := by
    obtain ⟨_, _, _, _, ⟨range, _⟩, _⟩ := h
    exact range
  exact inv_of_writesDec h hr rfl
    ⟨⟨range, Nat.zero_le _, Nat.le_refl 0, Nat.zero_lt_of_lt level⟩, fun _ => ⟨hl, rfl, rfl, rfl⟩, fun _ => rfl⟩

theorem startEncode_keeps_inv {s : State} {r : Rom} (h : Inv s) (hr : s.tb.rom = some r) (hl : s.regs.argLen ≤ s.litLen) :
    Inv (startEncode s) := by
  obtain ⟨hTb, hMem, hDec, _, hReg, ⟨hIbuf, _⟩, ⟨hd, hok, _⟩⟩ := h
  obtain ⟨range, _⟩ := id hReg
  refine ⟨hTb, hMem, hDec, ⟨range, Nat.zero_le _, Nat.zero_le 7, Nat.one_pos, Nat.le_refl 0, ?image⟩, hReg, ⟨hIbuf, fun _ => hl⟩,
    ⟨hd, hok, fun _ => rfl⟩⟩
  intro noImage
  cases hr.symm.trans noImage

theorem sizeEffect_keeps_inv {s : State} {r : Rom} (h : Inv s) (hr : s.tb.rom = some r) : Inv (sizeEffect r s) := by
  have bound := sumLengths_le (validCode_of_inv h hr) s.lit s.regs.argLen
  obtain ⟨hTb, hMem, hDec, hEnc, ⟨range, _⟩, hBuf, hFlag⟩ := h
  refine ⟨hTb, hMem, hDec, hEnc, ⟨range, ?_, rfl⟩, hBuf, hFlag⟩
  simp only [sizeEffect_res, sizeEffect_lenW]
  omega

theorem getcodeEffect_keeps_inv {s : State} (h : Inv s) (r : Rom) : Inv (getcodeEffect r s) := h

/-- A command the host may give keeps the invariant (R166 (d)). -/
theorem command_keeps_inv {s t : State} {op : BitVec 3} (h : Inv s) (hm : hostMayMove (.writeCmd op) s = true)
    (ht : exec (decodeC op) s = .next t) : Inv t := by
  have cmd := setCmd_keeps_inv h op
  obtain ⟨r, hr, rfl | ⟨rfl, _, rfl⟩ | ⟨_, ⟨rfl, rfl⟩ | ⟨rfl, rfl⟩ | ⟨rfl, rfl⟩⟩⟩ := exec_decodeC_next ht
  · exact cmd
  · exact startDecode_keeps_inv cmd hr ((hostMayMove_decode s).1 hm).2
  · exact startEncode_keeps_inv cmd hr ((hostMayMove_encode s).1 hm).2
  · exact sizeEffect_keeps_inv cmd hr
  · exact getcodeEffect_keeps_inv cmd r

/-- Bytes put into IBUF while the decoder is idle. -/
theorem putIbuf_keeps_inv {s : State} (h : Inv s) (hb : s.dec.busy = false) (bytes : List Byte) : Inv (putIbuf bytes s) := by
  obtain ⟨hTb, ⟨_, hMem⟩, hDec, hEnc, hReg, ⟨_, hLit⟩, hFlag⟩ := h
  refine ⟨hTb, ⟨Memory.wf_ofList bytes, hMem⟩, hDec, hEnc, hReg, ⟨fun busy => ?_, hLit⟩, hFlag⟩
  cases hb.symm.trans busy

/-- Bytes put into LIT while the encoder is idle. -/
theorem putLit_keeps_inv {s : State} (h : Inv s) (hb : s.enc.busy = false) (bytes : List Byte) : Inv (putLit bytes s) := by
  obtain ⟨hTb, ⟨hIbuf, _, hMem⟩, hDec, hEnc, hReg, ⟨hI, _⟩, hFlag⟩ := h
  refine ⟨hTb, ⟨hIbuf, Memory.wf_ofList bytes, hMem⟩, hDec, hEnc, hReg, ⟨hI, fun busy => ?_⟩, hFlag⟩
  cases hb.symm.trans busy

/-- Reset keeps the invariant, whatever the build record says (R24; log 27). -/
theorem applyReset_keeps_inv {s : State} (h : Inv s) : Inv (applyReset s) := by
  have pos := Nat.two_pow_pos s.lenW
  obtain ⟨hTb, hMem, ⟨_, _, _, hl⟩, _⟩ := h
  have level : if s.tb.rom.isSome then 0 < s.nlevels else 0 = 0 ∧ false = false := by
    split
    · rename_i hr
      rw [if_pos hr] at hl
      exact Nat.zero_lt_of_lt hl
    · exact ⟨rfl, rfl⟩
  exact ⟨hTb, hMem, ⟨pos, Nat.zero_le _, Nat.le_refl 0, level⟩,
    ⟨pos, Nat.le_refl 0, Nat.zero_le 7, Nat.one_pos, Nat.zero_le _, fun _ => rfl⟩, ⟨pos, Nat.zero_le _, ceil8_zero.symm⟩,
    ⟨nofun, nofun⟩, ⟨nofun, nofun, nofun⟩⟩

theorem supplyTable_keeps_inv {s : State} (h : Inv s) (hf : s.tb.fresh = true) {entries : List CodeEntry} {m : Nat}
    (hm : 1 ≤ m ∧ m ≤ Config.maxLevelsLimit) :
    Inv { s with table := Memory.ofList CodeEntry.zero (entries.take Config.nsym), maxLevels := m } := by
  obtain ⟨_, _, hr, hw⟩ := Tb.fresh_iff.1 hf
  obtain ⟨⟨_, hok, _⟩, ⟨hIbuf, hLit, _, hrom, hwork⟩, hDec, hEnc, hReg, hBuf, hFlag⟩ := h
  refine ⟨⟨levelsInRange_iff.2 hm, hok, ?noImage, ?noWork⟩, ⟨hIbuf, hLit, Memory.wf_ofList _, hrom, hwork⟩, hDec, hEnc, hReg, hBuf, hFlag⟩
  case noImage => rw [hr]; nofun
  case noWork => rw [hw]; nofun

/-- The operand registers hold their widths after a write (R21; log 19). -/
theorem argLen_keeps_inv {s : State} (h : Inv s) (n : Nat) :
    Inv { s with regs := { s.regs with argLen := argLenValue s.lenW n } } := by
  obtain ⟨hTb, hMem, hDec, hEnc, ⟨_, hRes⟩, hBuf, hFlag⟩ := h
  exact ⟨hTb, hMem, hDec, hEnc, ⟨Nat.mod_lt _ (Nat.two_pow_pos _), hRes⟩, hBuf, hFlag⟩

theorem decIdle_iff {s : State} : s.decIdle = true ↔ s.dec.busy = false := by simp [State.decIdle]
theorem encIdle_iff {s : State} : s.encIdle = true ↔ s.enc.busy = false := by simp [State.encIdle]

/-- What a host move that is made does: the state it leaves, or the instruction it runs. -/
inductive Made (s : State) : HostMove → State → Prop
  | command {op : BitVec 3} {t : State} : exec (decodeC op) s = .next t → Made s (.writeCmd op) t
  | argLen (n : Nat) : Made s (.writeArgLen n) { s with regs := { s.regs with argLen := argLenValue s.lenW n } }
  | argByte (b : Byte) : Made s (.writeArgByte b) { s with regs := { s.regs with argByte := b } }
  | ibuf (bytes : List Byte) : Made s (.setIbuf bytes) (putIbuf bytes s)
  | lit (bytes : List Byte) : Made s (.setLit bytes) (putLit bytes s)
  | out (bytes : List Byte) : Made s (.setOut bytes) { s with out := bytes }
  | sink (bytes : List Byte) : Made s (.setSink bytes) { s with sink := bytes }
  | sinkToIbuf : Made s .copySinkToIbuf (putIbuf s.sink s)
  | outToLit : Made s .copyOutToLit (putLit s.out s)
  | table {entries : List CodeEntry} {m : Nat} : s.tb.fresh = true → 1 ≤ m ∧ m ≤ Config.maxLevelsLimit →
      Made s (.supplyTable entries m) { s with table := Memory.ofList CodeEntry.zero (entries.take Config.nsym), maxLevels := m }
  | build {t : State} : execTbBuild s = .next t → Made s .build t
  | validate {t : State} : execTbValidate s = .next t → Made s .validate t
  | reset : Made s .reset (applyReset s)

/-- A move that goes on is made as `Made` says, for every move. -/
theorem made_of_moveResult {m : HostMove} {s t : State} (h : moveResult m s = .next t) : Made s m t := by
  cases m with
  | writeCmd op => exact .command h
  | writeArgLen n =>
    simp only [moveResult, hostAction, registerWrite] at h
    cases hr : s.tb.rom.isSome <;> simp only [hr, if_true] at h <;> cases h
    exact .argLen n
  | writeArgByte b =>
    simp only [moveResult, hostAction, registerWrite] at h
    cases hr : s.tb.rom.isSome <;> simp only [hr, if_true] at h <;> cases h
    exact .argByte b
  | setIbuf bytes => cases h; exact .ibuf bytes
  | setLit bytes => cases h; exact .lit bytes
  | setOut bytes => cases h; exact .out bytes
  | setSink bytes => cases h; exact .sink bytes
  | copySinkToIbuf => cases h; exact .sinkToIbuf
  | copyOutToLit => cases h; exact .outToLit
  | supplyTable entries m =>
    simp only [moveResult, hostAction] at h
    by_cases hf : s.tb.fresh = true
    · by_cases hm : 1 ≤ m ∧ m ≤ Config.maxLevelsLimit
      · simp only [hf, hm, and_self, if_true] at h
        cases h
        exact .table hf hm
      · simp only [hf, hm, if_true, if_false] at h
        cases h
    · simp only [hf] at h
      cases h
  | build => exact .build h
  | validate => exact .validate h
  | reset => cases h; exact .reset

/-- A move the host may make keeps the invariant. -/
theorem made_keeps_inv {s t : State} {m : HostMove} (h : Inv s) (hm : hostMayMove m s = true) (ht : Made s m t) : Inv t := by
  cases ht with
  | command ht => exact command_keeps_inv h hm ht
  | argLen n => exact argLen_keeps_inv h n
  | argByte b => exact h
  | ibuf bytes => exact putIbuf_keeps_inv h (decIdle_iff.1 hm) bytes
  | lit bytes => exact putLit_keeps_inv h (encIdle_iff.1 hm) bytes
  | out bytes => exact h
  | sink bytes => exact h
  | sinkToIbuf => exact putIbuf_keeps_inv h (decIdle_iff.1 (Bool.and_eq_true_iff.1 hm).1) _
  | outToLit => exact putLit_keeps_inv h (encIdle_iff.1 (Bool.and_eq_true_iff.1 hm).2) _
  | table hf hr => exact supplyTable_keeps_inv h hf hr
  | build ht => exact execTbBuild_keeps_inv h ht
  | validate ht => exact execTbValidate_keeps_inv h ht
  | reset => exact applyReset_keeps_inv h

/-- The host's turn that goes on: nothing happens, or its oldest pending move, which no duty forbids, is made. -/
theorem turnResult_host_next {s t : State} (h : turnResult .host s = .next t) :
    t = s ∨ ∃ m rest, s.host = m :: rest ∧ hostMayMove m s = true ∧ Made { s with host := rest } m t := by
  rcases turnResult_host s with ⟨_, e⟩ | ⟨_, _, _, _, e⟩ | ⟨m, rest, hh, hm, e⟩
  · rw [e] at h; cases h; exact .inl rfl
  · rw [e] at h; cases h; exact .inl rfl
  · rw [e] at h
    exact .inr ⟨m, rest, hh, hm, made_of_moveResult h⟩

theorem turnHost_keeps_inv {s t : State} (h : Inv s) (ht : turnResult .host s = .next t) : Inv t := by
  obtain rfl | ⟨m, rest, _, hm, made⟩ := turnResult_host_next ht
  · exact h
  · exact made_keeps_inv (s := { s with host := rest }) h hm made

/-! ### The invariant holds at reset and is kept by every step -/

/-- Settles O55: a step is one agent's turn, and each agent's turn keeps the invariant: DEC's by the ranges of leaves and branches, ENC's
by the bits a valid code adds, TB's because a build under way ends as the whole build does, the host's by its duties. -/
theorem stepKeepsTheInvariant : Obligations.StepKeepsTheInvariant := by
  unfold Obligations.StepKeepsTheInvariant
  intro s t h hs
  obtain ⟨a, ts, ht⟩ := step_next hs
  have scheduled : Inv { s with turns := ts } := h
  cases a with
  | host => exact turnHost_keeps_inv scheduled ht
  | tb => exact turnTb_keeps_inv scheduled ht
  | dec => exact turnDec_keeps_inv scheduled ht
  | enc => exact turnEnc_keeps_inv scheduled ht

/-- Settles O54: no build and no image, every register 0, the buffers empty, MAX_LEVELS 1024. -/
theorem resetSatisfiesTheInvariant : Obligations.ResetSatisfiesTheInvariant := by
  have registers : 0 < 2 ^ State.reset.lenW := Nat.two_pow_pos _
  exact ⟨⟨rfl, rfl, nofun, nofun⟩, ⟨rfl, rfl, rfl, nofun, nofun⟩, ⟨registers, Nat.zero_le _, Nat.zero_le _, ⟨rfl, rfl⟩⟩,
    ⟨registers, Nat.zero_le _, Nat.zero_le _, Nat.one_pos, Nat.zero_le _, fun _ => rfl⟩, ⟨registers, Nat.zero_le _, rfl⟩,
    ⟨nofun, nofun⟩, ⟨nofun, nofun, nofun⟩⟩

/-! ### SIZE and GETCODE -/

/-- A command for an idle encoder runs once a codec exists (R166 (a)). -/
theorem encoderCommand_idle {s : State} {r : Rom} (hr : s.tb.rom = some r) (hb : s.enc.busy = false) (op : BitVec 3)
    (f : Rom → State → State) : encoderCommand op s f = .next (f r (s.setCmd op)) := by
  rw [encoderCommand, withRom_some hr, if_pos (by simp [State.encIdle, hb])]

/-- Settles O11: SIZE runs on the idle encoder, its sum is that of the literal's code lengths, and a valid code has at most 30 bits. -/
theorem sizeSumsTheCodeLengths : Obligations.SizeSumsTheCodeLengths := by
  unfold Obligations.SizeSumsTheCodeLengths
  refine ⟨rfl, fun s r hr hb => ?_⟩
  intro bits
  have sum : sumLengths r.code s.lit s.regs.argLen = bits := sumLengths_eq r.code s.lit s.regs.argLen
  refine ⟨?effect, fun h0 => ?empty, fun hc hlen => ?ranges⟩
  case effect =>
    rw [← sum]
    exact encoderCommand_idle hr hb 3#3 sizeEffect
  case empty =>
    rw [← sum, h0]
    rfl
  case ranges =>
    have bound := sumLengths_le hc s.lit s.regs.argLen
    rw [sum] at bound
    simp only [Nat.pow_add]
    omega

/-- Settles O12: GETCODE runs on the idle encoder, and the code ROM of a built codec holds the table's 257 entries. -/
theorem getcodeAnswersTheSuppliedPair : Obligations.GetcodeAnswersTheSuppliedPair := by
  unfold Obligations.GetcodeAnswersTheSuppliedPair
  refine ⟨rfl, fun s built hb => ?_⟩
  obtain ⟨w, _, _, _, hr, _⟩ := built_image built
  have byte : s.regs.argByte.toNat < Config.nsym := by
    have := s.regs.argByte.isLt
    simp only [Config.nsym]
    omega
  rw [← entryAt_restrict s.table byte]
  exact encoderCommand_idle hr hb 4#3 getcodeEffect

/-! ### How TB.BUILD ends -/

/-- A build that fails names an entry of the table. -/
theorem buildTable_error_index {m : Nat} {t : CodeTable} {c : BuildCause} {i : Nat} (h : buildTable m t = .error (c, i)) :
    i < Config.nsym := by
  cases hv : validateTable t with
  | some e =>
    simp only [buildTable, hv] at h
    cases h
    exact (validateTable_some hv).1
  | none =>
    simp only [buildTable, hv] at h
    have valid : ValidTable t := validateTable_none.1 hv
    obtain ⟨_, _, hi⟩ := insertMany_error h fun j _ hj => valid j (by simpa [emptyWork] using hj)
    simpa [emptyWork] using hi

/-- TB.BUILD of a fresh TB records the build of the table. -/
theorem execTbBuild_fresh {s : State} (hf : s.tb.fresh = true) (hl : s.levelsInRange = true) :
    execTbBuild s = .next (recordBuild s (buildTable s.maxLevels s.table)) := by
  simp [execTbBuild, Tb.work_of_fresh hf, hf, hl]

/-- Settles O47: the build of the table is an image with 1 to MAX_LEVELS levels or a cause and an index, and is recorded as that. -/
theorem buildEndsWithAnImageOrARecord : Obligations.BuildEndsWithAnImageOrARecord := by
  unfold Obligations.BuildEndsWithAnImageOrARecord
  intro s hf hl
  refine ⟨_, execTbBuild_fresh hf hl, recordBuild_frame _ _, ?_⟩
  match hb : buildTable s.maxLevels s.table with
  | .ok w =>
    obtain ⟨_, hn, hm⟩ := insertMany_emptyWork_keeps (levelsInRange_iff.1 hl).1 (buildTable_ok hb).2
    have levels : (buildSuccess w s).nlevels = w.n := nlevels_buildSuccess hl hm
    refine ⟨rfl, .inl ⟨_, rfl, rfl, rfl, rfl, rfl, levels.symm ▸ hn, levels.symm ▸ hm, fun i hi => ?_⟩⟩
    exact entryAt_restrict s.table (Nat.lt_succ_of_le hi)
  | .error (c, i) =>
    refine ⟨rfl, .inr ⟨rfl, rfl, buildTable_error_cause hb, ?_⟩⟩
    have index := buildTable_error_index hb
    simp only [recordBuild, buildFailure_tb, BitVec.toNat_ofNat, Config.nsym] at index ⊢
    omega

/-! ### The buffers of a running operation -/

/-- From `s` to `t` the buffers a running operation has borrowed are left alone and its output only grows (R42). -/
def BorrowedKept (s t : State) : Prop :=
  (s.dec.busy = true → t.ibuf = s.ibuf ∧ t.ibufLen = s.ibufLen ∧ s.out <+: t.out) ∧
  (s.enc.busy = true → t.lit = s.lit ∧ t.litLen = s.litLen ∧ s.sink <+: t.sink)

theorem borrowedKept_refl (s : State) : BorrowedKept s s :=
  ⟨fun _ => ⟨rfl, rfl, List.prefix_rfl⟩, fun _ => ⟨rfl, rfl, List.prefix_rfl⟩⟩

/-- DEC.STEP only appends to OUT (R34). -/
theorem execDecStep_out_prefix {s t : State} (h : execDecStep s = .next t) : s.out <+: t.out := by
  rcases execDecStep_outcome h with rfl | ⟨c, _, rfl⟩ | ⟨_, sym, bits, _, _, _, _, _, _, rfl⟩ | ⟨_, next, _, _, _, _, rfl⟩
  · exact List.prefix_rfl
  · exact List.prefix_rfl
  · exact List.prefix_append _ _
  · exact List.prefix_rfl

theorem turnDec_borrowedKept {s t : State} (h : turnResult .dec s = .next t) : BorrowedKept s t := by
  rw [turnResult_dec] at h
  split at h
  · have grows := execDecStep_out_prefix h
    rw [execDecStep_writes h]
    exact ⟨fun _ => ⟨rfl, rfl, grows⟩, fun _ => ⟨rfl, rfl, List.prefix_rfl⟩⟩
  · cases h
    exact borrowedKept_refl s

theorem turnEnc_borrowedKept {s t : State} (h : turnResult .enc s = .next t) : BorrowedKept s t := by
  cases hr : s.tb.rom with
  | none =>
    rw [turnResult_enc_none hr] at h
    split at h <;> cases h
    exact borrowedKept_refl s
  | some r =>
    rw [turnResult_enc hr] at h
    cases h
    split
    · split
      · exact ⟨fun _ => ⟨rfl, rfl, List.prefix_rfl⟩, fun _ => ⟨rfl, rfl, List.prefix_append _ _⟩⟩
      · exact ⟨fun _ => ⟨rfl, rfl, List.prefix_rfl⟩, fun _ => ⟨rfl, rfl, List.prefix_append _ _⟩⟩
    · exact borrowedKept_refl s

/-- What writes the build record, the images and the counter only keeps the buffers. -/
theorem borrowedKept_of_writesTb {s t : State} (h : t = { s with tb := t.tb, free := t.free }) : BorrowedKept s t := by
  rw [h]
  exact borrowedKept_refl s

/-- A command writes registers only. -/
theorem command_borrowedKept {s t : State} {op : BitVec 3} (h : exec (decodeC op) s = .next t) : BorrowedKept s t := by
  obtain ⟨r, _, rfl | ⟨_, _, rfl⟩ | ⟨_, ⟨_, rfl⟩ | ⟨_, rfl⟩ | ⟨_, rfl⟩⟩⟩ := exec_decodeC_next h <;> exact borrowedKept_refl s

/-- A host move touches a buffer only while its unit is idle (R42). -/
theorem made_borrowedKept {s t : State} {m : HostMove} (hm : hostMayMove m s = true) (h : Made s m t) : BorrowedKept s t := by
  have input : ∀ u, s.decIdle = true → u = { s with ibuf := u.ibuf, ibufLen := u.ibufLen, out := u.out } → BorrowedKept s u := by
    intro u idle hu
    rw [hu]
    refine ⟨fun busy => ?_, fun _ => ⟨rfl, rfl, List.prefix_rfl⟩⟩
    cases (decIdle_iff.1 idle).symm.trans busy
  have literal : ∀ u, s.encIdle = true → u = { s with lit := u.lit, litLen := u.litLen, sink := u.sink } → BorrowedKept s u := by
    intro u idle hu
    rw [hu]
    refine ⟨fun _ => ⟨rfl, rfl, List.prefix_rfl⟩, fun busy => ?_⟩
    cases (encIdle_iff.1 idle).symm.trans busy
  cases h with
  | command h => exact command_borrowedKept h
  | argLen n => exact borrowedKept_refl s
  | argByte b => exact borrowedKept_refl s
  | ibuf bytes => exact input _ hm rfl
  | lit bytes => exact literal _ hm rfl
  | out bytes => exact input _ hm rfl
  | sink bytes => exact literal _ hm rfl
  | sinkToIbuf => exact input _ (Bool.and_eq_true_iff.1 hm).1 rfl
  | outToLit => exact literal _ (Bool.and_eq_true_iff.1 hm).2 rfl
  | table => exact borrowedKept_refl s
  | build h => exact borrowedKept_of_writesTb (execTbBuild_writes h)
  | validate h => exact borrowedKept_of_writesTb (execTbValidate_writes h)
  | reset => exact borrowedKept_refl s

theorem turnHost_borrowedKept {s t : State} (h : turnResult .host s = .next t) : BorrowedKept s t := by
  obtain rfl | ⟨m, rest, _, hm, made⟩ := turnResult_host_next h
  · exact borrowedKept_refl t
  · exact made_borrowedKept (s := { s with host := rest }) hm made

/-- Settles O52: each agent's turn leaves borrowed buffers alone: DEC and ENC append, TB writes its record, the host's duties bind its moves. -/
theorem borrowedBuffersAreLeftAlone : Obligations.BorrowedBuffersAreLeftAlone := by
  unfold Obligations.BorrowedBuffersAreLeftAlone
  intro s t hs
  obtain ⟨a, ts, ht⟩ := step_next hs
  show BorrowedKept { s with turns := ts } t
  cases a with
  | host => exact turnHost_borrowedKept ht
  | tb => exact borrowedKept_of_writesTb (turnResult_tb_writes ht)
  | dec => exact turnDec_borrowedKept ht
  | enc => exact turnEnc_borrowedKept ht

/-! ### What a step runs, and reset -/

/-- Settles O24: DEC is the default agent of a busy decoder, and its turn is DEC.STEP. -/
theorem decoderTurnIsDecStep : Obligations.DecoderTurnIsDecStep := by
  unfold Obligations.DecoderTurnIsDecStep
  exact fun _ => step_decoding

/-- Settles O3: the default agent's turn, case by case of what is in turn. -/
theorem stepRunsTheDecodedWord : Obligations.StepRunsTheDecodedWord := by
  unfold Obligations.StepRunsTheDecodedWord
  refine ⟨?command, ?node, ?lastBit, ?literal, ?flush, ?entry, ?badEntry, ?lastEntry, ?scheduled⟩
  case command =>
    intro s op ms ht hd he hw hh hi hl
    rw [step_unscheduled ht, defaultAgent_host hd he hw, turnResult_host_made hh (hostMayMove_writeCmd hd he hi hl)]
    rfl
  case node =>
    intro s r ht hb hr h0 hl
    rw [step_decoding ht hb, execDecStep_node hr h0 hl]
    rfl
  case lastBit =>
    intro s r ht hb hr h0
    rw [step_decoding ht hb, execDecStep_end hr h0]
  case literal =>
    intro s ht hd he hi
    rw [step_unscheduled ht, defaultAgent_enc hd he]
    simp only [turnResult, agentTurn, encoderTurn_sym he hi, decodeL]
  case flush =>
    intro s ht hd he hi
    rw [step_unscheduled ht, defaultAgent_enc hd he]
    simp only [turnResult, agentTurn, encoderTurn_flush he (Nat.not_lt.2 hi.ge)]
  case entry =>
    intro s w i ht hd he hw hn hi
    rw [step_unscheduled ht, defaultAgent_tb hd he hw, turnResult_tb_entry hw hn hi]
  case badEntry =>
    intro s w e ht hd he hw hn herr
    refine ⟨causeOfError e, Config.freeNLevels s.free, ?cause, ?failure⟩
    case cause =>
      rcases decodeT_error herr with rfl | rfl
      · exact .inl ⟨rfl, rfl⟩
      · exact .inr ⟨rfl, rfl⟩
    case failure =>
      rw [step_unscheduled ht, defaultAgent_tb hd he hw, turnResult_tb_badEntry hw hn herr]
      rfl
  case lastEntry =>
    intro s w ht hd he hw hn
    rw [step_unscheduled ht, defaultAgent_tb hd he hw, turnResult_tb_end hw (Nat.not_lt.2 hn.ge)]
  case scheduled =>
    intro s a ts ht
    simp only [nextAction, ht]

/-- Settles O1: no duty forbids the host's reset, and it writes the four groups of run-time registers. -/
theorem resetSetsRunTimeRegistersOnly : Obligations.ResetSetsRunTimeRegistersOnly := by
  unfold Obligations.ResetSetsRunTimeRegistersOnly
  exact ⟨fun _ _ _ ht hh => step_madeMove ht hh rfl, rfl, rfl, rfl, rfl, rfl⟩

/-! ### The status registers -/

/-- The three flags of DEC_STATUS are its low bits, the cause stands above them. -/
theorem Dec.status_eq_bit (d : Dec) : d.status = Nat.bit d.busy (Nat.bit d.done (Nat.bit d.ok (decodeCauseCode d.cause))) := by
  simp only [Dec.status, Nat.bit_val]
  omega

theorem Enc.status_eq_bit (e : Enc) : e.status = Nat.bit e.busy (Nat.bit e.done 0) := by
  simp only [Enc.status, Nat.bit_val]
  omega

theorem Tb.status_eq_bit (t : Tb) : t.status = Nat.bit t.ok (buildCauseCode t.cause + 8 * t.index.toNat) := by
  simp only [Tb.status, Nat.bit_val]
  omega

theorem decodeCauseCode_lt (c : DecodeCause) : decodeCauseCode c < 8 := by cases c <;> decide

theorem buildCauseCode_lt (c : BuildCause) : buildCauseCode c < 8 := by cases c <;> decide

theorem Dec.status_fields (d : Dec) :
    d.status < 64 ∧ d.status.testBit 0 = d.busy ∧ d.status.testBit 1 = d.done ∧ d.status.testBit 2 = d.ok ∧
      d.status / 8 = decodeCauseCode d.cause := by
  have cause := decodeCauseCode_lt d.cause
  have flags : d.busy.toNat ≤ 1 ∧ d.done.toNat ≤ 1 ∧ d.ok.toNat ≤ 1 := ⟨Bool.toNat_le _, Bool.toNat_le _, Bool.toNat_le _⟩
  refine ⟨by unfold Dec.status; omega, ?_, ?_, ?_, by unfold Dec.status; omega⟩ <;>
    simp only [Dec.status_eq_bit, Nat.testBit_bit_zero, Nat.testBit_bit_succ]

theorem Enc.status_fields (e : Enc) : e.status < 4 ∧ e.status.testBit 0 = e.busy ∧ e.status.testBit 1 = e.done := by
  have flags : e.busy.toNat ≤ 1 ∧ e.done.toNat ≤ 1 := ⟨Bool.toNat_le _, Bool.toNat_le _⟩
  refine ⟨by unfold Enc.status; omega, ?_, ?_⟩ <;>
    simp only [Enc.status_eq_bit, Nat.testBit_bit_zero, Nat.testBit_bit_succ]

theorem Tb.status_fields (t : Tb) :
    t.status < 8192 ∧ t.status.testBit 0 = t.ok ∧ t.status / 2 % 8 = buildCauseCode t.cause ∧ t.status / 16 = t.index.toNat := by
  have cause := buildCauseCode_lt t.cause
  have flag : t.ok.toNat ≤ 1 := Bool.toNat_le _
  have index := t.index.isLt
  refine ⟨by unfold Tb.status; omega, ?_, by unfold Tb.status; omega, by unfold Tb.status; omega⟩
  simp only [Tb.status_eq_bit, Nat.testBit_bit_zero]

/-- Settles O53: the fields of each status register stand at their bits; the other registers and the cause numbers are read off. -/
theorem statusRegistersShowTheFlags : Obligations.StatusRegistersShowTheFlags := by
  unfold Obligations.StatusRegistersShowTheFlags
  intro s
  refine ⟨⟨_, rfl, s.dec.status_fields⟩, ⟨_, rfl, s.enc.status_fields⟩, ⟨_, rfl, s.tb.status_fields⟩, ?_⟩
  exact ⟨rfl, rfl, rfl, rfl, rfl, rfl, rfl, rfl, rfl, rfl, rfl, rfl, rfl, rfl, rfl, rfl, rfl, rfl, rfl, rfl, rfl⟩

end Sys2Proof.Machine

/-! Proofs of the memory statements (spec/10_state.md R20, R34, R36, R40, R42): what a DECODE appends to OUT, that no step changes a built codec,
that the machine does not stop from an invariant state, and which host moves wait. -/

namespace Sys2Proof.Machine

open Sys2Proof.Safety

/-! ### What a DECODE appends to OUT -/

/-- From `s` to `t` the decoder has appended `bs` to OUT and counted its bytes; nothing but OUT and the decoder's registers has changed (R34, R96). -/
def AppendsAndCounts (bs : List Byte) (s t : State) : Prop :=
  t = { s with dec := t.dec, out := s.out ++ bs } ∧ t.dec.outcnt = s.dec.outcnt + bs.length

theorem AppendsAndCounts.trans {bs cs : List Byte} {s t u : State} (h : AppendsAndCounts bs s t) (h' : AppendsAndCounts cs t u) :
    AppendsAndCounts (bs ++ cs) s u := by
  obtain ⟨ht, count⟩ := h
  obtain ⟨hu, count'⟩ := h'
  refine ⟨?_, by rw [count', count, List.length_append, Nat.add_assoc]⟩
  rw [hu, ht, List.append_assoc]

/-- What writes the decoder's registers only, `doutcnt` excepted, appends nothing. -/
theorem appendsAndCounts_nil {s t : State} (h : t = { s with dec := t.dec }) (count : t.dec.outcnt = s.dec.outcnt) : AppendsAndCounts [] s t := by
  refine ⟨?_, count⟩
  rw [List.append_nil]
  exact h

/-- A DEC.STEP appends the byte of the leaf it reads, or nothing (R88). -/
theorem execDecStep_appends {s t : State} (h : execDecStep s = .next t) : ∃ bs, bs.length ≤ 1 ∧ AppendsAndCounts bs s t := by
  rcases execDecStep_outcome h with rfl | ⟨_, _, rfl⟩ | ⟨_, sym, _, _, _, _, _, _, _, rfl⟩ | ⟨_, _, _, _, _, _, rfl⟩
  · exact ⟨[], Nat.zero_le 1, appendsAndCounts_nil rfl rfl⟩
  · exact ⟨[], Nat.zero_le 1, appendsAndCounts_nil rfl rfl⟩
  · exact ⟨[leafByte sym], Nat.le_refl 1, rfl, rfl⟩
  · exact ⟨[], Nat.zero_le 1, appendsAndCounts_nil rfl rfl⟩

/-- A run of DEC.STEP that goes on makes a first step, and then has ended or runs on from there. -/
theorem decodeRun_succ_next {k : Nat} {s t : State} (h : decodeRun (k + 1) s = .next t) :
    ∃ u, execDecStep s = .next u ∧ (t = u ∨ decodeRun k u = .next t) := by
  cases hs : execDecStep s with
  | fault f => simp only [decodeRun, hs] at h; cases h
  | refused f => simp only [decodeRun, hs] at h; cases h
  | next u =>
    refine ⟨u, rfl, ?_⟩
    rw [decodeRun_succ hs] at h
    split at h
    · exact .inr h
    · cases h; exact .inl rfl

theorem decodeRun_appends {k : Nat} {s t : State} (h : decodeRun k s = .next t) : ∃ bs, AppendsAndCounts bs s t := by
  induction k generalizing s with
  | zero => cases h; exact ⟨[], appendsAndCounts_nil rfl rfl⟩
  | succ k ih =>
    obtain ⟨u, hs, rest⟩ := decodeRun_succ_next h
    obtain ⟨bs, _, first⟩ := execDecStep_appends hs
    rcases rest with rfl | runs
    · exact ⟨bs, first⟩
    · obtain ⟨cs, later⟩ := ih runs
      exact ⟨bs ++ cs, first.trans later⟩

/-- Settles O27: a step appends a leaf's byte or nothing and counts it; DECODE is a run of such steps from DEC.START, which sets the count to 0. -/
theorem decodeAppendsWhatItCounts : Obligations.DecodeAppendsWhatItCounts := by
  unfold Obligations.DecodeAppendsWhatItCounts
  refine ⟨fun _ _ h => execDecStep_appends h, fun s t h => ?_⟩
  obtain ⟨bs, writes, count⟩ := decodeRun_appends h
  exact ⟨bs, writes, count.trans (Nat.zero_add _)⟩

/-! ### A built codec -/

/-- From `s` to `t` the build record, the ROM images and the parameters of the codec are unchanged (R40). -/
def CodecKept (s t : State) : Prop :=
  t.tb = s.tb ∧ t.table = s.table ∧ t.maxLevels = s.maxLevels ∧ t.lenW = s.lenW

theorem codecKept_refl (s : State) : CodecKept s s := ⟨rfl, rfl, rfl, rfl⟩

/-- A TB that has made an image is not fresh. -/
theorem Tb.notFresh_of_rom {t : Tb} {r : Rom} (hr : t.rom = some r) : t.fresh = false := by
  simp [Tb.fresh, hr]

/-- TB's turn with no build under way. -/
theorem turnResult_tb_idle {s : State} (hw : s.tb.work = none) : turnResult .tb s = .next s := by
  simp [turnResult, agentTurn, builderTurn, hw]

theorem turnDec_codecKept {s t : State} (h : turnResult .dec s = .next t) : CodecKept s t := by
  rw [turnResult_dec] at h
  split at h
  · rw [execDecStep_writes h]
    exact codecKept_refl s
  · cases h
    exact codecKept_refl s

theorem turnEnc_codecKept {s t : State} {r : Rom} (hr : s.tb.rom = some r) (h : turnResult .enc s = .next t) : CodecKept s t := by
  rw [turnResult_enc hr] at h
  cases h
  split
  · split <;> exact codecKept_refl s
  · exact codecKept_refl s

/-- A command writes run-time registers only. -/
theorem command_codecKept {s t : State} {op : BitVec 3} (h : exec (decodeC op) s = .next t) : CodecKept s t := by
  obtain ⟨r, _, rfl | ⟨_, _, rfl⟩ | ⟨_, ⟨_, rfl⟩ | ⟨_, rfl⟩ | ⟨_, rfl⟩⟩⟩ := exec_decodeC_next h <;> exact codecKept_refl s

/-- A host move leaves a built codec as it is: a new table and another build are refused (R165; log 11). -/
theorem made_codecKept {s t : State} {m : HostMove} {r : Rom} (hr : s.tb.rom = some r) (hw : s.tb.work = none) (h : Made s m t) :
    CodecKept s t := by
  have notFresh : s.tb.fresh = false := Tb.notFresh_of_rom hr
  cases h with
  | command h => exact command_codecKept h
  | argLen n => exact codecKept_refl s
  | argByte b => exact codecKept_refl s
  | ibuf bytes => exact codecKept_refl s
  | lit bytes => exact codecKept_refl s
  | out bytes => exact codecKept_refl s
  | sink bytes => exact codecKept_refl s
  | sinkToIbuf => exact codecKept_refl s
  | outToLit => exact codecKept_refl s
  | table fresh => cases notFresh.symm.trans fresh
  | build h => cases (execTbBuild_notFresh hw notFresh).symm.trans h
  | validate h => cases (execTbValidate_notFresh notFresh).symm.trans h
  | reset => exact codecKept_refl s

theorem turnHost_codecKept {s t : State} {r : Rom} (hr : s.tb.rom = some r) (hw : s.tb.work = none)
    (h : turnResult .host s = .next t) : CodecKept s t := by
  obtain rfl | ⟨m, rest, _, _, made⟩ := turnResult_host_next h
  · exact codecKept_refl t
  · exact made_codecKept (s := { s with host := rest }) hr hw made

/-- Settles O51: DEC, ENC and the commands write run-time registers and buffers, TB has no turn left, and the host's moves that would build
again or change the table are refused. -/
theorem noStepChangesABuiltInstance : Obligations.NoStepChangesABuiltInstance := by
  unfold Obligations.NoStepChangesABuiltInstance
  intro s t r hr _ hw hs
  obtain ⟨a, ts, ht⟩ := step_next hs
  show CodecKept { s with turns := ts } t
  cases a with
  | host => exact turnHost_codecKept (s := { s with turns := ts }) hr hw ht
  | tb =>
    rw [turnResult_tb_idle (s := { s with turns := ts }) hw] at ht
    cases ht
    exact codecKept_refl _
  | dec => exact turnDec_codecKept ht
  | enc => exact turnEnc_codecKept (s := { s with turns := ts }) hr ht

/-! ### Invariant states do not stop -/

/-- Every step, one that stops too, is some agent's turn, from the state with what is left of the schedule. -/
theorem step_is_turn (s : State) : ∃ a ts, step s = turnResult a { s with turns := ts } := by
  rcases step_eq_turn s with ⟨ht, e⟩ | ⟨a, ts, _, e⟩
  · exact ⟨defaultAgent s, [], by rw [e, ← ht]⟩
  · exact ⟨a, ts, e⟩

/-- The decoder's turn goes on: the level it is at exists (R36). -/
theorem turnDec_goesOn {s : State} (h : Inv s) : ∃ t, turnResult .dec s = .next t := by
  rw [turnResult_dec]
  cases hb : s.dec.busy with
  | false => exact ⟨s, rfl⟩
  | true =>
    cases hr : s.tb.rom with
    | none => cases (dec_idle_of_inv h hr).2.symm.trans hb
    | some r => exact execDecStep_total hr (.inr (lvl_lt_of_inv h hr))

/-- The encoder's turn goes on: it is busy only over an image. -/
theorem turnEnc_goesOn {s : State} (h : Inv s) : ∃ t, turnResult .enc s = .next t := by
  cases hr : s.tb.rom with
  | some r => exact ⟨_, turnResult_enc hr⟩
  | none =>
    obtain ⟨_, _, _, ⟨_, _, _, _, _, idle⟩, _⟩ := h
    refine ⟨s, ?_⟩
    rw [turnResult_enc_none hr, idle hr]
    rfl

/-- TB.INSERT goes on while an entry of the build under way is left. -/
theorem execTbInsert_goesOn {s : State} {w : TbWork} (hw : s.tb.work = some w) (hn : w.next < Config.nsym) (len : BitVec 5)
    (code : BitVec 30) : ∃ t, execTbInsert len code s = .next t := by
  simp only [execTbInsert, hw, hn, if_true]
  split <;> exact ⟨_, rfl⟩

/-- TB.BUILD of a build under way records how it ends. -/
theorem execTbBuild_resumed {s : State} {w : TbWork} (hw : s.tb.work = some w) :
    execTbBuild s = .next (recordBuild s (insertMany s.maxLevels s.table (Config.nsym - w.next) w)) := by
  simp only [execTbBuild, hw]

/-- TB's turn goes on from every state: it inserts an entry, fails the build on one that does not decode, or ends the build. -/
theorem turnTb_goesOn (s : State) : ∃ t, turnResult .tb s = .next t := by
  cases hw : s.tb.work with
  | none => exact ⟨s, turnResult_tb_idle hw⟩
  | some w =>
    by_cases hn : w.next < Config.nsym
    · cases hd : decodeT (entryWord (entryAt s.table w.next)) with
      | error e => exact ⟨_, turnResult_tb_badEntry hw hn hd⟩
      | ok i =>
        rw [turnResult_tb_entry hw hn hd]
        obtain ⟨len, code, rfl⟩ := decodeT_ok hd
        exact execTbInsert_goesOn hw hn len code
    · exact ⟨_, (turnResult_tb_end hw hn).trans (execTbBuild_resumed hw)⟩

theorem idleCommand_ne_fault (op : BitVec 3) (s : State) (f : Fault) : idleCommand op s ≠ .fault f :=
  withRom_ne_fault f fun _ _ => nofun

theorem decoderCommand_ne_fault (op : BitVec 3) (s : State) (g : State → State) (f : Fault) : decoderCommand op s g ≠ .fault f :=
  withRom_ne_fault f fun _ _ => by split <;> nofun

theorem encoderCommand_ne_fault (op : BitVec 3) (s : State) (g : Rom → State → State) (f : Fault) : encoderCommand op s g ≠ .fault f :=
  withRom_ne_fault f fun _ _ => by split <;> nofun

/-- A command goes on or is refused, for every operation code. -/
theorem exec_decodeC_ne_fault (op : BitVec 3) (s : State) (f : Fault) : exec (decodeC op) s ≠ .fault f := by
  unfold decodeC
  split
  · exact idleCommand_ne_fault 0#3 s f
  · exact decoderCommand_ne_fault 1#3 s _ f
  · exact encoderCommand_ne_fault 2#3 s _ f
  · exact encoderCommand_ne_fault 3#3 s _ f
  · exact encoderCommand_ne_fault 4#3 s _ f
  · exact idleCommand_ne_fault 5#3 s f
  · exact idleCommand_ne_fault 6#3 s f
  · exact idleCommand_ne_fault 7#3 s f

theorem execTbBuild_ne_fault (s : State) (f : Fault) : execTbBuild s ≠ .fault f := by
  unfold execTbBuild
  split
  · nofun
  · split
    · split <;> nofun
    · nofun

theorem execTbValidate_ne_fault (s : State) (f : Fault) : execTbValidate s ≠ .fault f := by
  unfold execTbValidate
  split
  · split
    · split <;> nofun
    · nofun
  · nofun

/-- A host move goes on or is refused. -/
theorem moveResult_ne_fault (m : HostMove) (s : State) (f : Fault) : moveResult m s ≠ .fault f := by
  cases m with
  | writeCmd op => exact exec_decodeC_ne_fault op s f
  | writeArgLen n =>
    cases hr : s.tb.rom with
    | none => rw [moveResult_writeArg_noInstance (n := n) (b := 0) hr (.inl rfl)]; nofun
    | some r => rw [moveResult_writeArgLen hr]; nofun
  | writeArgByte b =>
    cases hr : s.tb.rom with
    | none => rw [moveResult_writeArg_noInstance (n := 0) (b := b) hr (.inr rfl)]; nofun
    | some r => rw [moveResult_writeArgByte hr]; nofun
  | setIbuf bytes => nofun
  | setLit bytes => nofun
  | setOut bytes => nofun
  | setSink bytes => nofun
  | copySinkToIbuf => nofun
  | copyOutToLit => nofun
  | supplyTable entries maxLevels =>
    cases hf : s.tb.fresh with
    | false => rw [moveResult_supplyTable_notFresh hf]; nofun
    | true =>
      by_cases hm : 1 ≤ maxLevels ∧ maxLevels ≤ 1024
      · rw [moveResult_supplyTable hf hm.1 hm.2]; nofun
      · rw [moveResult_supplyTable_outOfRange hf entries (by omega)]; nofun
  | build => exact execTbBuild_ne_fault s f
  | validate => exact execTbValidate_ne_fault s f
  | reset => nofun

theorem turnHost_ne_fault (s : State) (f : Fault) : turnResult .host s ≠ .fault f := by
  rcases turnResult_host s with ⟨_, e⟩ | ⟨_, _, _, _, e⟩ | ⟨m, rest, _, _, e⟩
  · rw [e]; nofun
  · rw [e]; nofun
  · rw [e]; exact moveResult_ne_fault m _ f

/-- The host's turn with no move pending. -/
theorem turnResult_host_idle {s : State} (hh : s.host = []) : turnResult .host s = .next s := by
  simp [turnResult, agentTurn, hostTurn, hh]

/-- A result that goes on is no fault, and goes on under any condition. -/
theorem noFault_of_goesOn {r : Result} {p : Prop} (h : ∃ t, r = .next t) : (∀ f, r ≠ .fault f) ∧ (p → ∃ t, r = .next t) := by
  obtain ⟨t, rfl⟩ := h
  exact ⟨nofun, fun _ => ⟨t, rfl⟩⟩

/-- Settles O56: the turns of DEC, ENC and TB go on from an invariant state, the level of the walk and the image of a busy unit existing; a host
move goes on or is refused. -/
theorem invariantStatesNeverStop : Obligations.InvariantStatesNeverStop := by
  unfold Obligations.InvariantStatesNeverStop
  intro s h
  obtain ⟨a, ts, e⟩ := step_is_turn s
  rw [e]
  have scheduled : Inv { s with turns := ts } := h
  cases a with
  | host => exact ⟨turnHost_ne_fault _, fun hh => ⟨_, turnResult_host_idle hh⟩⟩
  | tb => exact noFault_of_goesOn (turnTb_goesOn _)
  | dec => exact noFault_of_goesOn (turnDec_goesOn scheduled)
  | enc => exact noFault_of_goesOn (turnEnc_goesOn scheduled)

/-! ### The host's duties -/

/-- A pending move that a duty forbids waits: the host's turn changes nothing but the schedule (log 5). -/
theorem step_waitingMove {s : State} {m : HostMove} {ms : List HostMove} {ts : List Agent} (h1 : s.turns = .host :: ts)
    (h2 : s.host = m :: ms) (hm : ¬ hostMayMove m { s with turns := ts } = true) : step s = .next { s with turns := ts } := by
  rw [step_hostMove h1 h2, if_neg hm]

/-- A duty that asks for an idle unit and a length no greater than what the buffer holds is broken by a busy unit or a greater length. -/
theorem not_idle_and_le {busy : Bool} {len known : Nat} (h : busy = true ∨ known < len) : ¬ (busy = false ∧ len ≤ known) := by
  rintro ⟨idle, le⟩
  rcases h with isBusy | lt
  · cases idle.symm.trans isBusy
  · exact Nat.not_le.2 lt le

theorem not_decIdle {s : State} (h : s.dec.busy = true) : ¬ s.decIdle = true := by simp [State.decIdle, h]

theorem not_encIdle {s : State} (h : s.enc.busy = true) : ¬ s.encIdle = true := by simp [State.encIdle, h]

theorem not_bothIdle {s : State} (h : s.dec.busy = true ∨ s.enc.busy = true) : ¬ (s.decIdle && s.encIdle) = true := by
  rw [Bool.and_eq_true]
  exact fun idle => h.elim (not_decIdle · idle.1) (not_encIdle · idle.2)

/-- Settles O5: each forbidden move fails its test of the host's duties, and waits. -/
theorem forbiddenHostMovesWait : Obligations.ForbiddenHostMovesWait := by
  unfold Obligations.ForbiddenHostMovesWait
  intro s m ms ts h1 h2 forbidden
  refine step_waitingMove h1 h2 ?_
  rcases forbidden with ⟨rfl, h⟩ | ⟨rfl | rfl, h⟩ | ⟨rfl, h⟩ | ⟨⟨bytes, rfl | rfl⟩, h⟩ | ⟨⟨bytes, rfl | rfl⟩, h⟩ | ⟨rfl | rfl, h⟩
  · rw [hostMayMove_decode]; exact not_idle_and_le h
  · rw [hostMayMove_encode]; exact not_idle_and_le h
  · rw [hostMayMove_size]; exact not_idle_and_le h
  · rw [hostMayMove_getcode]; exact fun idle => not_encIdle h (encIdle_iff.2 idle)
  · exact not_decIdle h
  · exact not_decIdle h
  · exact not_encIdle h
  · exact not_encIdle h
  · exact not_bothIdle h
  · exact not_bothIdle h

end Sys2Proof.Machine

/-! Proofs of the encoding statements (spec/30_encoding.md R50 to R61): node words against NodeDecode and the match and mask table, decode and
encode, and the operation codes. -/

namespace Sys2Proof.Machine

open Sys2Proof.Safety

/-! ### The words of format N, as the words TB writes -/

theorem leafFields_eq_leafWord (sym : BitVec 9) (bits : BitVec 4) : 0b010#3 ++ sym ++ bits = leafWord sym.toNat bits.toNat := by
  apply BitVec.eq_of_toNat_eq
  have hs := sym.isLt
  have hb := bits.isLt
  rw [leafWord_toNat (by omega) (by omega), BitVec.toNat_append, BitVec.toNat_append, ← Nat.shiftLeft_add_eq_or_of_lt hs,
    ← Nat.shiftLeft_add_eq_or_of_lt hb]
  simp only [BitVec.toNat_ofNat, Nat.shiftLeft_eq]
  omega

theorem eosFields_eq_leafWord (bits : BitVec 4) : 0b010100000000#12 ++ bits = leafWord Config.eos bits.toNat :=
  leafFields_eq_leafWord 256#9 bits

theorem branchFields_eq_branchWord (next : BitVec 10) : 0b100000#6 ++ next = branchWord next.toNat := by
  apply BitVec.eq_of_toNat_eq
  have hn := next.isLt
  rw [branchWord_toNat (by omega), BitVec.toNat_append, ← Nat.shiftLeft_add_eq_or_of_lt hn]
  simp only [BitVec.toNat_ofNat, Nat.shiftLeft_eq]

/-- R56: a LEAF is decoded from exactly one word, and only with legal fields. -/
theorem nodeDecode_leaf_iff {nlevels : Nat} {w : NodeWord} {sym : BitVec 9} {bits : BitVec 4} :
    nodeDecode nlevels w = .leaf sym bits ↔
      w = leafWord sym.toNat bits.toNat ∧ sym.toNat ≤ 256 ∧ 1 ≤ bits.toNat ∧ bits.toNat ≤ 8 := by
  constructor
  · intro h
    obtain ⟨hsym, hbits, htag, legal⟩ := nodeDecode_leaf h
    refine ⟨BitVec.eq_of_toNat_eq ?_, legal⟩
    have hw := w.isLt
    have ht := congrArg BitVec.toNat htag
    rw [leafWord_toNat (by omega) (by omega), hsym, hbits]
    simp only [BitVec.extractLsb'_toNat, BitVec.toNat_ofNat, Nat.shiftRight_eq_div_pow] at ht ⊢
    omega
  · rintro ⟨rfl, hsym, hmin, hmax⟩
    simpa using nodeDecode_leafWord (nlevels := nlevels) hsym hmin hmax

/-- R57: a BRANCH is decoded from exactly one word, and only to an existing level other than the root. -/
theorem nodeDecode_branch_iff {nlevels : Nat} {w : NodeWord} {next : BitVec 10} :
    nodeDecode nlevels w = .branch next ↔ w = branchWord next.toNat ∧ 1 ≤ next.toNat ∧ next.toNat < nlevels := by
  constructor
  · intro h
    obtain ⟨hnext, htag, legal⟩ := nodeDecode_branch h
    refine ⟨BitVec.eq_of_toNat_eq ?_, legal⟩
    have hw := w.isLt
    have ht := congrArg BitVec.toNat htag
    rw [branchWord_toNat next.isLt, hnext]
    simp only [BitVec.extractLsb'_toNat, BitVec.toNat_ofNat, Nat.shiftRight_eq_div_pow] at ht ⊢
    omega
  · rintro ⟨rfl, hmin, hmax⟩
    simpa using nodeDecode_branchWord hmin hmax next.isLt

/-! ### The match and mask table (R58) -/

/-- Masking all but the low `k` bits of a `k + j` bit number clears them. -/
theorem and_highMask {x k j : Nat} (hx : x < 2 ^ (k + j)) : x &&& (ones j * 2 ^ k) = x / 2 ^ k * 2 ^ k := by
  rw [← Nat.shiftLeft_eq, ← Nat.shiftRight_eq_div_pow, ← Nat.shiftLeft_eq]
  apply Nat.eq_of_testBit_eq
  intro i
  simp only [Nat.testBit_and, Nat.testBit_shiftLeft, Nat.testBit_shiftRight, ones, Nat.testBit_two_pow_sub_one]
  by_cases low : i < k
  · simp [Nat.not_le.2 low]
  · have back : k + (i - k) = i := by omega
    by_cases high : i - k < j
    · simp [back, high, Bool.and_comm]
    · have clear : x.testBit i = false := Nat.testBit_lt_two_pow (lt_of_lt_of_le hx (Nat.pow_le_pow_right (by decide) (by omega)))
      simp [back, high, clear]

/-- The tag test of a LEAF: bits 15 to 13 are `010`. -/
theorem leafMask_iff (w : NodeWord) : w &&& 0xE000#16 = 0x4000#16 ↔ w.toNat / 2 ^ 13 = 2 := by
  have mask : w.toNat &&& 0xE000 = w.toNat / 2 ^ 13 * 2 ^ 13 := and_highMask (k := 13) (j := 3) w.isLt
  rw [← BitVec.toNat_inj, BitVec.toNat_and]
  simp only [BitVec.toNat_ofNat, Nat.reducePow, Nat.reduceMod, mask]
  omega

/-- The tag test of a BRANCH: bits 15 to 10 are `100000`. -/
theorem branchMask_iff (w : NodeWord) : w &&& 0xFC00#16 = 0x8000#16 ↔ w.toNat / 2 ^ 10 = 32 := by
  have mask : w.toNat &&& 0xFC00 = w.toNat / 2 ^ 10 * 2 ^ 10 := and_highMask (k := 10) (j := 6) w.isLt
  rw [← BitVec.toNat_inj, BitVec.toNat_and]
  simp only [BitVec.toNat_ofNat, Nat.reducePow, Nat.reduceMod, mask]
  omega

/-- The legal words are EMPTY, the LEAF words and the BRANCH words of legal fields. -/
theorem nodeWord_iff {nlevels : Nat} {w : NodeWord} :
    WellFormed.nodeWord nlevels w = true ↔
      w = emptyWord ∨
      (∃ sym bits, w = leafWord sym bits ∧ sym ≤ 256 ∧ 1 ≤ bits ∧ bits ≤ 8) ∨
      (∃ next, w = branchWord next ∧ next < 1024 ∧ 1 ≤ next ∧ next < nlevels) := by
  simp only [WellFormed.nodeWord, Bool.or_eq_true, Bool.and_eq_true, decide_eq_true_eq, or_assoc, leafMask_iff, branchMask_iff]
  refine or_congr Iff.rfl (or_congr ⟨?_, ?_⟩ ⟨?_, ?_⟩)
  · rintro ⟨⟨tag, hsym⟩, hbits⟩
    refine ⟨w.toNat / 16 % 512, w.toNat % 16, BitVec.eq_of_toNat_eq ?_, hsym, hbits⟩
    rw [leafWord_toNat (by omega) (by omega)]
    omega
  · rintro ⟨sym, bits, rfl, hsym, hmin, hmax⟩
    rw [leafWord_toNat (by omega) (by omega)]
    omega
  · rintro ⟨tag, hnext⟩
    refine ⟨w.toNat % 1024, BitVec.eq_of_toNat_eq ?_, by omega, hnext⟩
    rw [branchWord_toNat (by omega)]
    omega
  · rintro ⟨next, rfl, hlt, hmin, hmax⟩
    rw [branchWord_toNat hlt]
    omega

/-- R58: NodeDecode is Invalid exactly outside the match and mask table. -/
theorem nodeWord_iff_not_invalid {nlevels : Nat} {w : NodeWord} :
    WellFormed.nodeWord nlevels w = true ↔ nodeDecode nlevels w ≠ .invalid := by
  rw [nodeWord_iff]
  constructor
  · rintro (rfl | ⟨sym, bits, rfl, hsym, hmin, hmax⟩ | ⟨next, rfl, hlt, hmin, hmax⟩)
    · rw [nodeDecode_empty.2 rfl]; nofun
    · rw [nodeDecode_leafWord hsym hmin hmax]; nofun
    · rw [nodeDecode_branchWord hmin hmax hlt]; nofun
  · intro valid
    cases hd : nodeDecode nlevels w with
    | empty => exact .inl (nodeDecode_empty.1 hd)
    | leaf sym bits => exact .inr (.inl ⟨_, _, nodeDecode_leaf_iff.1 hd⟩)
    | branch next =>
      obtain ⟨word, legal⟩ := nodeDecode_branch_iff.1 hd
      exact .inr (.inr ⟨_, word, next.isLt, legal⟩)
    | invalid => exact absurd hd valid

/-- Settles O59: the match and mask table describes the words that NodeDecode gives a meaning, and each meaning is decoded from the one word that holds its
fields. -/
theorem nodeDecodeAcceptsExactlyTheLegalWords : Obligations.NodeDecodeAcceptsExactlyTheLegalWords := by
  unfold Obligations.NodeDecodeAcceptsExactlyTheLegalWords
  intro nlevels w
  refine ⟨?invalid, nodeDecode_empty, fun sym bits h => ?leaf, fun next h => ?branch⟩
  case invalid => rw [← Bool.not_eq_true, nodeWord_iff_not_invalid, not_not]
  case leaf =>
    obtain ⟨rfl, hsym, hmin, hmax⟩ := nodeDecode_leaf_iff.1 h
    exact ⟨hsym, hmin, hmax, leafWord_toNat (by omega) (by omega)⟩
  case branch =>
    obtain ⟨rfl, hmin, hmax⟩ := nodeDecode_branch_iff.1 h
    exact ⟨hmin, hmax, branchWord_toNat next.isLt⟩

/-! ### Format N: decode and encode -/

theorem leafBits_iff {bits : BitVec 4} : WellFormed.leafBits bits = true ↔ 1 ≤ bits.toNat ∧ bits.toNat ≤ 8 := by
  simp [WellFormed.leafBits]

theorem branchTarget_iff {nlevels : Nat} {next : BitVec 10} :
    WellFormed.branchTarget nlevels next = true ↔ 1 ≤ next.toNat ∧ next.toNat < nlevels := by
  simp [WellFormed.branchTarget]

theorem decodeN_of_leaf {nlevels : Nat} {w : NodeWord} {sym : BitVec 9} {bits : BitVec 4} (h : nodeDecode nlevels w = .leaf sym bits) :
    decodeN nlevels w = if sym.toNat = Config.eos then .nLeafEos bits else .nLeaf sym bits := by
  simp only [decodeN, h]

theorem decodeN_of_branch {nlevels : Nat} {w : NodeWord} {next : BitVec 10} (h : nodeDecode nlevels w = .branch next) :
    decodeN nlevels w = .nBranch next := by
  simp only [decodeN, h]

theorem decodeN_of_invalid {nlevels : Nat} {w : NodeWord} (h : nodeDecode nlevels w = .invalid) : decodeN nlevels w = .nInvalid w := by
  simp only [decodeN, h]

theorem decodeN_emptyWord (nlevels : Nat) : decodeN nlevels emptyWord = .nEmpty := by
  simp only [decodeN, nodeDecode_empty.2]

/-- Settles O58: each of the four values of NodeDecode determines the word, which is what its instruction is encoded as. -/
theorem everyNodeWordIsItsOwnEncoding : Obligations.EveryNodeWordIsItsOwnEncoding := by
  unfold Obligations.EveryNodeWordIsItsOwnEncoding
  intro ctx w
  cases hd : nodeDecode ctx.nlevels w with
  | empty =>
    obtain rfl := nodeDecode_empty.1 hd
    rw [decodeN_emptyWord]
    exact ⟨rfl, rfl⟩
  | leaf sym bits =>
    obtain ⟨rfl, hsym, hbits⟩ := nodeDecode_leaf_iff.1 hd
    rw [decodeN_of_leaf hd]
    by_cases eos : sym.toNat = Config.eos
    · rw [if_pos eos, encode, eosFields_eq_leafWord, eos]
      exact ⟨rfl, leafBits_iff.2 hbits⟩
    · rw [if_neg eos, encode, leafFields_eq_leafWord]
      have byte : sym.toNat < Config.eos := by simp only [Config.eos] at *; omega
      simp [WellFormed.instr, byte, leafBits_iff.2 hbits]
  | branch next =>
    obtain ⟨rfl, legal⟩ := nodeDecode_branch_iff.1 hd
    rw [decodeN_of_branch hd, encode, branchFields_eq_branchWord]
    exact ⟨rfl, branchTarget_iff.2 legal⟩
  | invalid =>
    rw [decodeN_of_invalid hd]
    have illegal : ¬ WellFormed.nodeWord ctx.nlevels w = true := fun h => nodeWord_iff_not_invalid.1 h hd
    exact ⟨rfl, by simp [WellFormed.instr, illegal]⟩

/-- The other way round: the word of a well formed node instruction decodes to it. -/
theorem decodeN_of_encode {ctx : DecodeCtx} {i : Instr} {w : NodeWord} (wf : WellFormed.instr ctx i = true)
    (h : encode ctx i = some (.n w)) : decodeN ctx.nlevels w = i := by
  cases i with
  | nEmpty => cases h; exact decodeN_emptyWord _
  | nLeafEos bits =>
    cases h
    obtain ⟨hmin, hmax⟩ := leafBits_iff.1 wf
    rw [eosFields_eq_leafWord, decodeN_of_leaf (nodeDecode_leafWord (by decide) hmin hmax), if_pos eos_ofNat_toNat, BitVec.ofNat_toNat,
      BitVec.setWidth_eq]
  | nLeaf sym bits =>
    cases h
    simp only [WellFormed.instr, Bool.and_eq_true, decide_eq_true_eq, leafBits_iff] at wf
    obtain ⟨byte, hbits⟩ := wf
    have leaf := nodeDecode_leaf_iff (nlevels := ctx.nlevels).2 ⟨rfl, byte.le, hbits⟩
    rw [leafFields_eq_leafWord, decodeN_of_leaf leaf, if_neg byte.ne]
  | nBranch next =>
    cases h
    rw [branchFields_eq_branchWord, decodeN_of_branch (nodeDecode_branch_iff.2 ⟨rfl, branchTarget_iff.1 wf⟩)]
  | nInvalid word =>
    cases h
    apply decodeN_of_invalid
    by_contra valid
    simp [WellFormed.instr, nodeWord_iff_not_invalid.2 valid] at wf
  | _ => cases h

/-! ### Formats T and S: decode and encode -/

theorem tableFields_iff {len code : Nat} : WellFormed.tableFields len code = true ↔ 1 ≤ len ∧ len ≤ 30 ∧ code < 2 ^ len := by
  simp [WellFormed.tableFields, and_assoc]

/-- The word of TB.INSERT is that of the entry with its fields. -/
theorem insertFields_eq_entryWord (len : BitVec 5) (code : BitVec 30) :
    0b000#3 ++ len ++ 0b00#2 ++ code = entryWord ⟨len.setWidth 8, code.setWidth 32⟩ := by
  apply BitVec.eq_of_toNat_eq
  simp only [entryWord, BitVec.toNat_append, BitVec.toNat_setWidth]
  have hl := len.isLt
  have hc := code.isLt
  rw [Nat.mod_eq_of_lt (by omega), Nat.mod_eq_of_lt (by omega), ← Nat.shiftLeft_add_eq_or_of_lt hl, ← Nat.shiftLeft_add_eq_or_of_lt hc,
    ← Nat.shiftLeft_add_eq_or_of_lt (show code.toNat < 2 ^ 32 by omega)]
  simp only [BitVec.toNat_ofNat, Nat.shiftLeft_eq, Nat.zero_mod, Nat.or_zero]
  omega

/-- R51: the word of a legal TB.INSERT decodes to it. -/
theorem decodeT_insertFields {len : BitVec 5} {code : BitVec 30} (h : WellFormed.tableFields len.toNat code.toNat = true) :
    decodeT (0b000#3 ++ len ++ 0b00#2 ++ code) = .ok (.tbInsert len code) := by
  have hl := len.isLt
  have hc := code.isLt
  have valid : ValidEntry ⟨len.setWidth 8, code.setWidth 32⟩ := by
    have fields := tableFields_iff.1 h
    simp only [ValidEntry, Config.maxLen, BitVec.toNat_setWidth]
    rwa [Nat.mod_eq_of_lt (by omega), Nat.mod_eq_of_lt (by omega)]
  rw [insertFields_eq_entryWord, decodeT_entryWord valid, BitVec.setWidth_setWidth_of_le _ (by decide),
    BitVec.setWidth_setWidth_of_le _ (by decide), BitVec.setWidth_eq, BitVec.setWidth_eq]

/-- R53: in a well formed table the first code that begins a bit string with the code of a symbol at its front is that symbol's. -/
theorem firstCode_code_append {t : CodeTable} (ht : WellFormedTable t) {sym : Nat} (hsym : sym < Config.nsym) (rest : List Bool) :
    firstCode t (codeBits (entryAt t sym) ++ rest) = some sym := by
  obtain ⟨valid, prefixFree⟩ := ht
  have other : ∀ i, i < Config.nsym → i ≠ sym → ¬ codeBits (entryAt t i) <+: codeBits (entryAt t sym) ++ rest := by
    intro i hi ne begins
    rcases List.prefix_or_prefix_of_prefix begins (List.prefix_append _ rest) with h | h
    · exact prefixFree i sym hi hsym ne h
    · exact prefixFree sym i hsym hi ne.symm h
  rw [firstCode, List.find?_range_eq_some]
  simp only [Bool.and_eq_true, decide_eq_true_eq, List.isPrefixOf_iff_prefix, List.mem_range, Bool.not_eq_true', Bool.and_eq_false_iff]
  refine ⟨⟨(valid sym hsym).1, List.prefix_append _ _⟩, hsym, fun i hi => .inr ?_⟩
  exact Bool.eq_false_iff.2 fun h => other i (by omega) hi.ne (List.isPrefixOf_iff_prefix.1 h)

/-- R53: a code of a well formed table, followed by anything, is read as its symbol. -/
theorem decodeS_code_append {t : CodeTable} (ht : WellFormedTable t) {sym : Nat} (hsym : sym < Config.nsym) (rest : List Bool) :
    decodeS t (codeBits (entryAt t sym) ++ rest) = .ok (.sCode (BitVec.ofNat 9 sym), rest) := by
  simp only [decodeS, firstCode_code_append ht hsym, ← codeBits_length, List.drop_left]

/-- Settles O57: by the format of the instruction's word. -/
theorem decodeOfEncodeIsTheInstruction : Obligations.DecodeOfEncodeIsTheInstruction := by
  unfold Obligations.DecodeOfEncodeIsTheInstruction
  intro ctx i u wf table h
  cases i with
  | nop | decode | encode | size | getcode | reserved5 | reserved6 | reserved7 => cases h; rfl
  | nEmpty | nLeafEos | nLeaf | nBranch | nInvalid =>
    cases h
    exact congrArg Except.ok (decodeN_of_encode wf rfl)
  | tbInsert len code => cases h; exact decodeT_insertFields wf
  | encSym b => cases h; rfl
  | sCode sym =>
    cases h
    have whole := decodeS_code_append (table sym rfl) (of_decide_eq_true wf) []
    rw [List.append_nil] at whole
    simp only [decode, whole, BitVec.ofNat_toNat, BitVec.setWidth_eq]
  | tbValidate | tbBuild | decStart | decStep | decEnd | decTail | encStart | encFlush => cases h

/-! ### Operation codes, and words written out -/

/-- NOP and the reserved codes, where an image exists, write CMD (R59; log 17). -/
theorem idleCommand_writes {s : State} {r : Rom} (hr : s.tb.rom = some r) (op : BitVec 3) : idleCommand op s = .next (s.setCmd op) :=
  withRom_some hr _

/-- Settles O6: the four codes are idle commands. -/
theorem nopAndReservedCodesChangeOnlyCmd : Obligations.NopAndReservedCodesChangeOnlyCmd := by
  unfold Obligations.NopAndReservedCodesChangeOnlyCmd
  refine ⟨by decide, fun s r hr => ?_⟩
  exact ⟨idleCommand_writes hr _, idleCommand_writes hr _, idleCommand_writes hr _, idleCommand_writes hr _⟩

/-- Settles O60, by running the decoders on the words. -/
theorem writtenOutWordsDecode : Obligations.WrittenOutWordsDecode := by
  unfold Obligations.WrittenOutWordsDecode
  decide

end Sys2Proof.Machine

/-! Proof of the statement on S.CODE (spec/40_tree_builder.md R72 to R74, R81 item 3; spec/41_decoder.md R98, R99): an insertion leaves its code's path in the
image, later insertions keep it, and the walk takes it. -/

namespace Sys2Proof.Machine

open Sys2Proof.Safety

/-! ### The path of a code in an image -/

/-- The words an image of `n` levels holds are the words of a later image (R73: only EMPTY slots are written). -/
def KeepsWords (trie : Memory NodeWord) (n : Nat) (trie' : Memory NodeWord) (n' : Nat) : Prop :=
  n ≤ n' ∧ ∀ l k, l < n → k < Config.fanout → trieWord trie l k ≠ emptyWord → trieWord trie' l k = trieWord trie l k

/-- From level `lvl` of an image of `n` levels the last `r` bits of a code lead, a branch for each whole window but the last, to the leaves of its
symbol (R81 item 3). -/
inductive CodePath (trie : Memory NodeWord) (n code sym : Nat) : Nat → Nat → Prop where
  | leaf {lvl r : Nat} (level : lvl < n) (pos : 1 ≤ r) (last : r ≤ 8)
      (words : ∀ k, inFillRange code r k → trieWord trie lvl k = leafWord sym r) : CodePath trie n code sym lvl r
  | branch {lvl r : Nat} {next : BitVec 10} (level : lvl < n) (more : 8 < r)
      (word : nodeDecode n (trieWord trie lvl (windowOf code r)) = .branch next)
      (rest : CodePath trie n code sym next.toNat (r - 8)) : CodePath trie n code sym lvl r

theorem KeepsWords.refl (trie : Memory NodeWord) (n : Nat) : KeepsWords trie n trie n := ⟨Nat.le_refl n, fun _ _ _ _ _ => rfl⟩

theorem KeepsWords.trans {t t' t'' : Memory NodeWord} {n n' n'' : Nat} (h : KeepsWords t n t' n') (h' : KeepsWords t' n' t'' n'') :
    KeepsWords t n t'' n'' := by
  obtain ⟨le, words⟩ := h
  obtain ⟨le', words'⟩ := h'
  refine ⟨le.trans le', fun l k hl hk ne => ?_⟩
  have kept := words l k hl hk ne
  rw [words' l k (by omega) hk (by rwa [kept]), kept]

theorem windowOf_lt (code r : Nat) : windowOf code r < Config.fanout := Nat.mod_lt _ (by decide)

theorem leafWord_ne_emptyWord {sym bits : Nat} (hs : sym ≤ 256) (hb : bits ≤ 8) : leafWord sym bits ≠ emptyWord := by
  intro h
  have value := leafWord_toNat (sym := sym) (bits := bits) (by omega) (by omega)
  rw [h] at value
  simp only [emptyWord, BitVec.toNat_ofNat] at value
  omega

/-- A branch is kept as a branch. -/
theorem KeepsWords.branch {t t' : Memory NodeWord} {n n' l k : Nat} {next : BitVec 10} (h : KeepsWords t n t' n') (hl : l < n)
    (hk : k < Config.fanout) (hb : nodeDecode n (trieWord t l k) = .branch next) : nodeDecode n' (trieWord t' l k) = .branch next := by
  obtain ⟨le, words⟩ := h
  have notEmpty : trieWord t l k ≠ emptyWord := fun e => by rw [nodeDecode_empty.2 e] at hb; cases hb
  rw [words l k hl hk notEmpty, nodeDecode_branch_iff]
  obtain ⟨word, hmin, hmax⟩ := nodeDecode_branch_iff.1 hb
  exact ⟨word, hmin, by omega⟩

/-- A code's path is kept. -/
theorem KeepsWords.codePath {t t' : Memory NodeWord} {n n' code sym lvl r : Nat} (h : KeepsWords t n t' n') (hs : sym ≤ 256)
    (path : CodePath t n code sym lvl r) : CodePath t' n' code sym lvl r := by
  induction path with
  | leaf level pos last words =>
    refine .leaf (by have := h.1; omega) pos last fun k hk => ?_
    have word := words k hk
    rw [h.2 _ _ level hk.1 (by rw [word]; exact leafWord_ne_emptyWord hs last), word]
  | branch level more word rest ih => exact .branch (by have := h.1; omega) more (h.branch level (windowOf_lt _ _) word) ih

/-! ### Descent (R72) -/

theorem insertKey_eq_windowOf (code r : Nat) : insertKey code r = windowOf code r := by
  rw [insertKey, windowOf, Nat.shiftRight_eq_div_pow]
  exact Nat.and_two_pow_sub_one_eq_mod _ 8

/-- What a window of a descent that goes on did: it was the last, or it followed a branch, or it allocated a level. -/
theorem descend_succ_cases {maxLevels code fuel : Nat} {d d' : Descent} (h : descend maxLevels code (fuel + 1) d = .ok d') :
    (d.r ≤ 8 ∧ d' = d) ∨
    (8 < d.r ∧ ∃ next, nodeDecode d.n (trieWord d.trie d.lvl (windowOf code d.r)) = .branch next ∧
      descend maxLevels code fuel { d with lvl := next.toNat, r := d.r - 8 } = .ok d') ∨
    (8 < d.r ∧ trieWord d.trie d.lvl (windowOf code d.r) = emptyWord ∧ d.n < maxLevels ∧
      descend maxLevels code fuel (allocLevel d (windowOf code d.r)) = .ok d') := by
  simp only [descend, insertKey_eq_windowOf] at h
  by_cases last : d.r ≤ 8
  · rw [if_pos last] at h
    cases h
    exact .inl ⟨last, rfl⟩
  · rw [if_neg last] at h
    refine .inr ?_
    cases node : nodeDecode d.n (trieWord d.trie d.lvl (windowOf code d.r)) with
    | branch next => rw [node] at h; exact .inl ⟨by omega, next, rfl, h⟩
    | empty =>
      simp only [node] at h
      by_cases full : maxLevels ≤ d.n
      · rw [if_pos full] at h; cases h
      · rw [if_neg full] at h
        exact .inr ⟨by omega, nodeDecode_empty.1 node, by omega, h⟩
    | leaf _ _ => rw [node] at h; cases h
    | invalid => rw [node] at h; cases h

/-- A new level leaves the words of the image alone: its own level is past them and its link's slot was EMPTY. -/
theorem allocLevel_keepsWords {d : Descent} {k : Nat} (hw : Memory.wf emptyWord d.trie = true) (hk : k < Config.fanout)
    (he : trieWord d.trie d.lvl k = emptyWord) : KeepsWords d.trie d.n (allocLevel d k).trie (allocLevel d k).n := by
  refine ⟨Nat.le_succ _, fun l k' hl hk' ne => ?_⟩
  have otherSlot : ¬ (l = d.lvl ∧ k' = k) := by rintro ⟨rfl, rfl⟩; exact ne he
  simp only [allocLevel]
  rw [trieWord_setTrieWord (Memory.wf_clear hw _ _) hk hk', if_neg otherSlot, trieWord_clear _ _ _ _ hk', if_neg hl.ne]

/-- The slot of a new level's link reads as the branch to it. -/
theorem allocLevel_link {d : Descent} {k : Nat} (hw : Memory.wf emptyWord d.trie = true) (hk : k < Config.fanout) (h1 : 1 ≤ d.n)
    (hn : d.n < 1024) :
    nodeDecode (allocLevel d k).n (trieWord (allocLevel d k).trie d.lvl k) = .branch (BitVec.ofNat 10 (allocLevel d k).lvl) := by
  simp only [allocLevel]
  rw [trieWord_setTrieWord (Memory.wf_clear hw _ _) hk hk, if_pos ⟨rfl, rfl⟩]
  exact nodeDecode_branchWord h1 (Nat.lt_succ_self _) hn

/-- From where `d'` stands the path of a code, in any later image, is the end of its path from where `d` stands. -/
def LeadsTo (code sym : Nat) (d d' : Descent) : Prop :=
  KeepsWords d.trie d.n d'.trie d'.n ∧
  ∀ trie n, KeepsWords d'.trie d'.n trie n → CodePath trie n code sym d'.lvl d'.r → CodePath trie n code sym d.lvl d.r

theorem LeadsTo.refl (code sym : Nat) (d : Descent) : LeadsTo code sym d d := ⟨.refl _ _, fun _ _ _ path => path⟩

theorem LeadsTo.trans {code sym : Nat} {d e f : Descent} (h : LeadsTo code sym d e) (h' : LeadsTo code sym e f) :
    LeadsTo code sym d f :=
  ⟨h.1.trans h'.1, fun trie n kept path => h.2 trie n (h'.1.trans kept) (h'.2 trie n kept path)⟩

/-- A window whose slot, in the image after it, branches to the level it reaches. -/
theorem leadsTo_of_branch {code sym : Nat} {d e : Descent} {next : BitVec 10} (kept : KeepsWords d.trie d.n e.trie e.n) (hl : d.lvl < d.n)
    (hr : 8 < d.r) (hb : nodeDecode e.n (trieWord e.trie d.lvl (windowOf code d.r)) = .branch next) (lvl : e.lvl = next.toNat)
    (rest : e.r = d.r - 8) : LeadsTo code sym d e := by
  refine ⟨kept, fun trie n later path => ?_⟩
  rw [lvl, rest] at path
  have hle : d.n ≤ n := kept.1.trans later.1
  exact .branch (by omega) hr (later.branch (Nat.lt_of_lt_of_le hl kept.1) (windowOf_lt _ _) hb) path

/-- A descent goes along the code's path and ends at the level of the code's leaves. -/
theorem descend_leadsTo {maxLevels code : Nat} (sym : Nat) (hm : maxLevels ≤ 1024) (fuel : Nat) {d d' : Descent}
    (h : descend maxLevels code fuel d = .ok d') (hw : Memory.wf emptyWord d.trie = true) (hn : d.n ≤ maxLevels) (hl : d.lvl < d.n)
    (hr : 1 ≤ d.r) (hf : d.r ≤ 8 * (fuel + 1)) :
    LeadsTo code sym d d' ∧ d'.lvl < d'.n ∧ 1 ≤ d'.r ∧ d'.r ≤ 8 := by
  induction fuel generalizing d with
  | zero => cases h; exact ⟨.refl _ _ _, hl, hr, by omega⟩
  | succ fuel ih =>
    have hk := windowOf_lt code d.r
    rcases descend_succ_cases h with ⟨last, rfl⟩ | ⟨more, next, hb, h⟩ | ⟨more, he, room, h⟩
    · exact ⟨.refl _ _ _, hl, hr, last⟩
    · obtain ⟨_, _, hnext⟩ := nodeDecode_branch_iff.1 hb
      obtain ⟨leads, ends⟩ := ih (d := { d with lvl := next.toNat, r := d.r - 8 }) h hw hn hnext
        (by show 1 ≤ d.r - 8; omega) (by show d.r - 8 ≤ _; omega)
      have step : LeadsTo code sym d { d with lvl := next.toNat, r := d.r - 8 } := leadsTo_of_branch (.refl _ _) hl more hb rfl rfl
      exact ⟨step.trans leads, ends⟩
    · have new : (BitVec.ofNat 10 d.n).toNat = d.n := by simp only [BitVec.toNat_ofNat]; omega
      obtain ⟨leads, ends⟩ := ih h (wf_setTrieWord (Memory.wf_clear hw _ _) _ _ _) (by simp only [allocLevel]; omega)
        (by simp only [allocLevel]; omega) (by simp only [allocLevel]; omega) (by simp only [allocLevel]; omega)
      have step : LeadsTo code sym d (allocLevel d (windowOf code d.r)) :=
        leadsTo_of_branch (allocLevel_keepsWords hw hk he) hl more (allocLevel_link hw hk (by omega) (by omega)) new.symm rfl
      exact ⟨step.trans leads, ends⟩

/-! ### Fill (R73) -/

/-- The fill range is the keys that begin with the last bits of the code. -/
theorem inFillRange_iff {code r k : Nat} (hr : r ≤ 8) :
    inFillRange code r k ↔ fillBase code r ≤ k ∧ k < fillBase code r + fillSize r := by
  have base : fillBase code r = code % 2 ^ r * 2 ^ (8 - r) := by
    rw [fillBase, ones, Nat.and_two_pow_sub_one_eq_mod, Nat.shiftLeft_eq]
  have size : 0 < 2 ^ (8 - r) := Nat.two_pow_pos _
  have inside : fillBase code r + fillSize r ≤ Config.fanout := by
    have bits : code % 2 ^ r + 1 ≤ 2 ^ r := Nat.mod_lt _ (Nat.two_pow_pos r)
    calc fillBase code r + fillSize r = (code % 2 ^ r + 1) * 2 ^ (8 - r) := by rw [base, fillSize, Nat.succ_mul]
      _ ≤ 2 ^ r * 2 ^ (8 - r) := Nat.mul_le_mul_right _ bits
      _ = Config.fanout := by rw [← Nat.pow_add, Nat.add_sub_cancel' hr]
  have quotient : k / 2 ^ (8 - r) = code % 2 ^ r ↔ fillBase code r ≤ k ∧ k < fillBase code r + fillSize r := by
    rw [Nat.div_eq_iff size, base, fillSize]
    omega
  rw [inFillRange, quotient]
  constructor
  · exact fun h => h.2
  · exact fun h => ⟨by omega, h⟩

/-- A fill that goes on found its first slot EMPTY, wrote it and filled the others. -/
theorem fill_succ_ok {leaf : NodeWord} {lvl count k : Nat} {trie trie' : Memory NodeWord} (h : fill leaf lvl (count + 1) k trie = .ok trie') :
    trieWord trie lvl k = emptyWord ∧ fill leaf lvl count (k + 1) (setTrieWord trie lvl k leaf) = .ok trie' := by
  rw [fill] at h
  split at h
  · cases h
  · rename_i he
    exact ⟨not_not.1 he, h⟩

/-- A fill leaves every word there is alone. -/
theorem fill_keepsWords {leaf : NodeWord} {lvl count k : Nat} {trie trie' : Memory NodeWord} (n : Nat)
    (h : fill leaf lvl count k trie = .ok trie') (hw : Memory.wf emptyWord trie = true) (hk : k + count ≤ Config.fanout) :
    KeepsWords trie n trie' n := by
  induction count generalizing k trie with
  | zero => cases h; exact .refl _ _
  | succ count ih =>
    obtain ⟨he, h⟩ := fill_succ_ok h
    refine KeepsWords.trans ⟨Nat.le_refl n, fun l k' _ hk' ne => ?_⟩ (ih h (wf_setTrieWord hw _ _ _) (by omega))
    have otherSlot : ¬ (l = lvl ∧ k' = k) := by rintro ⟨rfl, rfl⟩; exact ne he
    rw [trieWord_setTrieWord hw (by omega) hk', if_neg otherSlot]

/-- A fill writes its leaf at each key of its range. -/
theorem fill_writes {leaf : NodeWord} {lvl count k k' : Nat} {trie trie' : Memory NodeWord} (hleaf : leaf ≠ emptyWord)
    (h : fill leaf lvl count k trie = .ok trie') (hw : Memory.wf emptyWord trie = true) (hk : k + count ≤ Config.fanout)
    (hmin : k ≤ k') (hmax : k' < k + count) : trieWord trie' lvl k' = leaf := by
  induction count generalizing k trie with
  | zero => omega
  | succ count ih =>
    obtain ⟨_, h⟩ := fill_succ_ok h
    have hw' := wf_setTrieWord hw lvl k leaf
    by_cases first : k' = k
    · subst first
      have written : trieWord (setTrieWord trie lvl k' leaf) lvl k' = leaf := by
        rw [trieWord_setTrieWord hw (by omega) (by omega), if_pos ⟨rfl, rfl⟩]
      obtain ⟨_, words⟩ := fill_keepsWords (lvl + 1) h hw' (by omega)
      rw [words lvl k' (Nat.lt_succ_self lvl) (by omega) (by rwa [written]), written]
    · exact ih h hw' (by omega) (by omega) (by omega)

/-! ### The images TB makes (R74) -/

/-- An insertion that goes on has checked the fields, descended and filled. -/
theorem insertNext_ok {maxLevels len code : Nat} {w w' : TbWork} (h : insertNext maxLevels len code w = .ok w') :
    checkFields len code = none ∧ ∃ d, descend maxLevels code Config.maxDepth ⟨w.trie, w.n, 0, len⟩ = .ok d ∧
      fill (leafWord w.next d.r) d.lvl (fillSize d.r) (fillBase code d.r) d.trie = .ok w'.trie ∧ w'.n = d.n := by
  unfold insertNext insertCode at h
  split at h
  · cases h
  · rename_i fields
    refine ⟨fields, ?_⟩
    cases hd : descend maxLevels code Config.maxDepth ⟨w.trie, w.n, 0, len⟩ with
    | error c => simp only [hd] at h; cases h
    | ok d =>
      simp only [hd] at h
      cases hf : fill (leafWord w.next d.r) d.lvl (fillSize d.r) (fillBase code d.r) d.trie with
      | error c => simp only [hf] at h; cases h
      | ok trie => simp only [hf] at h; cases h; exact ⟨d, rfl, hf, rfl⟩

/-- An insertion keeps the words there are and leaves the path of its code. -/
theorem insertNext_codePath {maxLevels len code : Nat} {w w' : TbWork} (h : insertNext maxLevels len code w = .ok w')
    (hm : maxLevels ≤ 1024) (hw : Memory.wf emptyWord w.trie = true) (h1 : 1 ≤ w.n) (hn : w.n ≤ maxLevels) (hs : w.next ≤ 256) :
    KeepsWords w.trie w.n w'.trie w'.n ∧ CodePath w'.trie w'.n code w.next 0 len := by
  obtain ⟨fields, d, hd, hf, levels⟩ := insertNext_ok h
  obtain ⟨hmin, hmax, _⟩ := checkFields_none.1 fields
  obtain ⟨⟨kept, path⟩, level, pos, last⟩ := descend_leadsTo w.next hm _ hd hw hn h1 hmin (by simp only [Config.maxDepth]; omega)
  have hw' := (descend_keeps _ hd hw hn).1
  have range : fillBase code d.r + fillSize d.r ≤ Config.fanout := by
    have size : 0 < fillSize d.r := Nat.two_pow_pos _
    have := ((inFillRange_iff (code := code) (k := fillBase code d.r + (fillSize d.r - 1)) last).2 ⟨by omega, by omega⟩).1
    omega
  have filled := fill_keepsWords d.n hf hw' range
  rw [levels]
  refine ⟨kept.trans filled, path _ _ filled (.leaf level pos last fun k hk => ?_)⟩
  obtain ⟨hlo, hhi⟩ := (inFillRange_iff last).1 hk
  exact fill_writes (leafWord_ne_emptyWord hs last) hf hw' range hlo hhi

/-- Insertions in sequence keep the words there are and leave the path of each code. -/
theorem insertMany_codePaths {maxLevels : Nat} {t : CodeTable} {k : Nat} {w w' : TbWork} (h : insertMany maxLevels t k w = .ok w')
    (hm : maxLevels ≤ 1024) (hw : Memory.wf emptyWord w.trie = true) (h1 : 1 ≤ w.n) (hn : w.n ≤ maxLevels)
    (hs : w.next + k ≤ Config.nsym) :
    KeepsWords w.trie w.n w'.trie w'.n ∧ ∀ i, w.next ≤ i → i < w.next + k →
      CodePath w'.trie w'.n (entryAt t i).code.toNat i 0 (entryAt t i).len.toNat := by
  induction k generalizing w with
  | zero => cases h; exact ⟨.refl _ _, fun i hi hi' => by omega⟩
  | succ k ih =>
    simp only [Config.nsym] at hs
    rw [insertMany] at h
    split at h
    · cases h
    · rename_i u hu
      obtain ⟨hw', _, hn'⟩ := insertNext_keeps hu hw hn
      obtain ⟨kept, path⟩ := insertNext_codePath hu hm hw h1 hn (by omega)
      have next := insertNext_next hu
      obtain ⟨kept', paths⟩ := ih h hw' (h1.trans kept.1) hn' (by simp only [Config.nsym]; omega)
      refine ⟨kept.trans kept', fun i hi hi' => ?_⟩
      rcases Nat.eq_or_lt_of_le hi with rfl | later
      · exact kept'.codePath (by omega) path
      · exact paths i (by omega) (by omega)

/-- R81 item 3: the image of a built codec holds the path of every code of its table. -/
theorem built_codePaths {s : State} (h : Built s) : ∃ r, s.tb.rom = some r ∧
    ∀ i, i < Config.nsym → CodePath r.trie s.nlevels (entryAt s.table i).code.toNat i 0 (entryAt s.table i).len.toNat := by
  obtain ⟨w, hb, _, _, rom, nlevels⟩ := built_image h
  obtain ⟨hm1, hm⟩ := levelsInRange_iff.1 h.1
  obtain ⟨_, inserted⟩ := buildTable_ok hb
  have hn : w.n ≤ s.maxLevels := (insertMany_emptyWork_keeps hm1 inserted).2.2
  have levels : s.nlevels = w.n := by
    rw [State.nlevels, nlevels, BitVec.toNat_ofNat]
    omega
  obtain ⟨_, paths⟩ := insertMany_codePaths inserted hm rfl (Nat.le_refl 1) hm1 (by decide)
  exact ⟨_, rom, fun i hi => levels ▸ paths i (Nat.zero_le i) (by simpa [emptyWork] using hi)⟩

/-! ### The walk along a code's path (R88, R99) -/

/-- The last `r` bits of a code stand, whole, in the real bits at the cursor. -/
def BitsStand (s : State) (code r : Nat) : Prop :=
  r ≤ s.dec.rem ∧ ∀ j, j < r → streamBit s.ibuf s.dec.len (s.dec.cur + j) = code.testBit (r - 1 - j)

theorem bitsStand_of_codeStands {t : CodeTable} {s : State} {sym : Nat} (h : codeStands t s sym = true) :
    BitsStand s (entryAt t sym).code.toNat (entryAt t sym).len.toNat := by
  simp only [codeStands, Bool.and_eq_true, decide_eq_true_eq] at h
  obtain ⟨⟨_, whole⟩, bits⟩ := h
  refine ⟨whole, fun j hj => ?_⟩
  have bit := congrArg (·[j]?) bits
  simpa [codeBits, hj, BitVec.getLsbD] using bit

/-- With 8 bits or more the decode key is the code's next window. -/
theorem key_of_bitsStand {s : State} {code r : Nat} (h : BitsStand s code r) (hr : 8 ≤ r) : s.key = windowOf code r := by
  refine window_eq_of_bits (windowOf_lt code r) fun j hj => ?_
  rw [h.2 j (by omega), windowOf, show 256 = 2 ^ 8 from rfl, Nat.testBit_mod_two_pow, Nat.testBit_div_two_pow,
    show 7 - j + (r - 8) = r - 1 - j by omega]
  simp only [show 7 - j < 8 by omega, decide_true, Bool.true_and]

/-- With at most 8 bits the decode key is in the code's fill range. -/
theorem key_inFillRange_of_bitsStand {s : State} {code r : Nat} (h : BitsStand s code r) (hr : r ≤ 8) : inFillRange code r s.key := by
  have small : s.key < 2 ^ 8 := window_lt _ _ _
  refine ⟨small, Nat.eq_of_testBit_eq fun i => ?_⟩
  rw [Nat.testBit_div_two_pow, Nat.testBit_mod_two_pow]
  by_cases hi : i < r
  · have bit := testBit_window s.ibuf s.dec.len s.dec.cur (r - 1 - i) (by omega)
    rw [h.2 _ (by omega), show 7 - (r - 1 - i) = i + (8 - r) by omega, show r - 1 - (r - 1 - i) = i by omega] at bit
    simp only [hi, decide_true, Bool.true_and]
    exact bit
  · simp [hi, Nat.testBit_lt_two_pow (lt_of_lt_of_le small (Nat.pow_le_pow_right (by decide) (show 8 ≤ i + (8 - r) by omega)))]

/-- The walk moved to another level and cursor. -/
def State.walkAt (s : State) (lvl cur : Nat) : State := { s with dec := { s.dec with lvl := lvl, cur := cur } }

/-- A branch taken leaves the rest of the code at the cursor. -/
theorem bitsStand_branchEffect {s : State} {code r : Nat} (h : BitsStand s code r) (hr : 8 < r) (next : BitVec 10) :
    BitsStand (branchEffect next s) code (r - 8) := by
  obtain ⟨whole, bits⟩ := h
  refine ⟨?_, fun j hj => ?_⟩
  · simp only [Dec.rem, branchEffect_dec] at whole ⊢
    omega
  · rw [branchEffect_dec, branchEffect_ibuf, Nat.add_assoc, bits (8 + j) (by omega)]
    congr 1
    omega

/-- DEC.STEP on an existing level with a real bit left is the effect of the node at the walk position. -/
theorem execDecStep_nodeEffect {s : State} {r : Rom} (hr : s.tb.rom = some r) (h0 : s.dec.rem ≠ 0) (hl : s.dec.lvl < s.nlevels) :
    execDecStep s = .next (nodeEffect (nodeAt r s) s) := by
  rw [execDecStep_node hr h0 hl, exec_decodeN hr h0]
  rfl

theorem decodeRun_one {s t : State} (h : execDecStep s = .next t) : decodeRun 1 s = .next t := by
  rw [decodeRun_succ h]
  exact ite_self _

/-- R98, R99: where a code stands at the cursor and its path at the walk position, `ceil(r/8)` DEC.STEPs come to the code's leaf, with its bits, which end
where the code ends, still real. -/
theorem decodeRun_codePath {s : State} {rom : Rom} {n code sym lvl r : Nat} (path : CodePath rom.trie n code sym lvl r) (hs : sym ≤ 256)
    (hrom : s.tb.rom = some rom) (hn : s.nlevels = n) (hb : s.dec.busy = true) (hl : s.dec.lvl = lvl) (bits : BitsStand s code r) :
    ∃ l c b, decodeRun (ceil8 r) s = .next (nodeEffect (.leaf (BitVec.ofNat 9 sym) b) (s.walkAt l c)) ∧
      b.toNat ≤ (s.walkAt l c).dec.rem ∧ c + b.toNat = s.dec.cur + r := by
  induction path generalizing s with
  | @leaf lvl r level pos last words =>
    subst hn hl
    have node : nodeAt rom s = .leaf (BitVec.ofNat 9 sym) (BitVec.ofNat 4 r) := by
      rw [nodeAt, words _ (key_inFillRange_of_bitsStand bits last), nodeDecode_leafWord hs pos last]
    have width : (BitVec.ofNat 4 r).toNat = r := by simp only [BitVec.toNat_ofNat]; omega
    have real : s.dec.rem ≠ 0 := by have := bits.1; omega
    refine ⟨s.dec.lvl, s.dec.cur, BitVec.ofNat 4 r, ?_, by rw [width]; exact bits.1, by rw [width]⟩
    rw [show ceil8 r = 1 by simp only [ceil8]; omega, ← node]
    exact decodeRun_one (execDecStep_nodeEffect hrom real level)
  | @branch lvl r next level more word rest ih =>
    subst hn hl
    have node : nodeAt rom s = .branch next := by rw [nodeAt, key_of_bitsStand bits more.le, word]
    have room : 8 ≤ s.dec.rem := more.le.trans bits.1
    have step : execDecStep s = .next (branchEffect next s) := by
      rw [execDecStep_nodeEffect hrom (by omega) level, node, nodeEffect, if_pos room]
    obtain ⟨l, c, b, run, hb', ends⟩ := ih (s := branchEffect next s) hrom rfl hb rfl (bitsStand_branchEffect bits more next)
    have busy : (branchEffect next s).dec.busy = true := hb
    have cursor : (branchEffect next s).dec.cur = s.dec.cur + 8 := rfl
    refine ⟨l, c, b, ?_, hb', by omega⟩
    rw [show ceil8 r = ceil8 (r - 8) + 1 by simp only [ceil8]; omega, decodeRun_succ step, if_pos busy, run]
    rfl

/-! ### S.CODE -/

theorem leafByte_ofNat (sym : Nat) : leafByte (BitVec.ofNat 9 sym) = BitVec.ofNat 8 sym := by
  apply BitVec.eq_of_toNat_eq
  simp only [leafByte, BitVec.extractLsb'_toNat, BitVec.toNat_ofNat, Nat.shiftRight_zero]
  omega

/-- S.CODE, where its code stands on a built codec, comes to the code's leaf. -/
theorem execSCode_leaf {s : State} {sym : BitVec 9} (h : Built s) (hb : s.dec.busy = true) (hl : s.dec.lvl = 0)
    (hc : codeStands s.table s sym.toNat = true) (hs : sym.toNat ≤ 256) :
    ∃ l c b, execSCode sym s = .next (nodeEffect (.leaf sym b) (s.walkAt l c)) ∧
      b.toNat ≤ (s.walkAt l c).dec.rem ∧ c + b.toNat = s.dec.cur + (entryAt s.table sym.toNat).len.toNat := by
  obtain ⟨r, hr, paths⟩ := built_codePaths h
  have inTable : sym.toNat < Config.nsym := Nat.lt_succ_of_le hs
  obtain ⟨l, c, b, run, rest⟩ := decodeRun_codePath (paths _ inTable) hs hr rfl hb hl (bitsStand_of_codeStands hc)
  refine ⟨l, c, b, ?_, rest⟩
  rw [execSCode, withRom_some hr, if_pos ⟨hb, hl, inTable, hc⟩, stepsOfCode, run, BitVec.ofNat_toNat, BitVec.setWidth_eq]

/-- Settles O32: the walk takes the path that the build left for the code, and the leaf at its end appends the byte, or ends the operation on EOS. -/
theorem codeAtTheCursorIsRead : Obligations.CodeAtTheCursorIsRead := by
  unfold Obligations.CodeAtTheCursorIsRead
  intro s sym h hb hl hc
  refine ⟨fun byte => ?_, fun eos => ?_⟩
  · obtain ⟨l, c, b, run, real, ends⟩ := execSCode_leaf h hb hl hc byte.le
    have notEos : ¬ sym.toNat = Config.eos := byte.ne
    have emitted : leafByte sym = BitVec.ofNat 8 sym.toNat := by
      rw [← leafByte_ofNat, BitVec.ofNat_toNat, BitVec.setWidth_eq]
    show execSCode sym s = _
    rw [run, nodeEffect, if_pos real, if_neg notEos, leafEffect, emitted, ← ends, ← hl]
    simp [State.walkAt, State.appendOut]
  · obtain ⟨l, c, b, run, real, _⟩ := execSCode_leaf h hb hl hc eos.le
    refine ⟨decodeFailure .eosDecoded (s.walkAt l c), ?_, rfl, rfl, rfl, rfl, rfl, rfl, rfl⟩
    show execSCode sym s = _
    rw [run, nodeEffect, if_pos real, if_pos eos]

end Sys2Proof.Machine

/-! Proofs of the tree builder statements (spec/40_tree_builder.md R70 to R81): TB.VALIDATE, TB.INSERT, and what the image of a build is. -/

namespace Sys2Proof.Machine

open Sys2Proof.Safety

/-! ### TB.VALIDATE (R71) -/

theorem checkFields_badLength {len code : Nat} (h : len = 0 ∨ 30 < len) : checkFields len code = some .badLength := by
  have outside : len < Config.minLen ∨ Config.maxLen < len := h.imp_left (by rintro rfl; decide)
  rw [checkFields, if_pos outside]

theorem checkFields_badCode {len code : Nat} (hmin : 1 ≤ len) (hmax : len ≤ 30) (h : 2 ^ len ≤ code) :
    checkFields len code = some .badCode := by
  have inside : ¬ (len < Config.minLen ∨ Config.maxLen < len) := by simp only [Config.minLen, Config.maxLen]; omega
  have highBit : code >>> len ≠ 0 := by
    rw [Nat.shiftRight_eq_div_pow]
    exact (Nat.div_pos h (Nat.two_pow_pos len)).ne'
  rw [checkFields, if_neg inside, if_pos highBit]

/-- TB.VALIDATE reports the first entry that fails. -/
theorem validateTable_lowest {t : CodeTable} {i : Nat} {c : BuildCause} (hi : i ≤ 256)
    (below : ∀ j, j < i → ValidEntry (entryAt t j)) (bad : checkEntry t i = some c) : validateTable t = some (c, i) := by
  have entries : List.range Config.nsym = List.range i ++ (List.range (256 - i + 1)).map (i + ·) := by
    rw [← List.range_add, show i + (256 - i + 1) = Config.nsym by simp only [Config.nsym]; omega]
  have pass : (List.range i).findSome? (fun j => (checkEntry t j).map fun c => (c, j)) = none := by
    rw [List.findSome?_eq_none_iff]
    intro j hj
    rw [checkEntry_none.2 (below j (List.mem_range.1 hj))]
    rfl
  rw [validateTable, entries, List.findSome?_append, pass, List.range_succ_eq_map]
  simp [bad]

theorem execTbValidate_of_bad {s : State} {c : BuildCause} {i : Nat} (hf : s.tb.fresh = true) (hl : s.levelsInRange = true)
    (h : validateTable s.table = some (c, i)) : execTbValidate s = .next (buildFailure c i s) := by
  simp [execTbValidate, hf, hl, h]

theorem execTbValidate_of_valid {s : State} (hf : s.tb.fresh = true) (hl : s.levelsInRange = true)
    (h : validateTable s.table = none) : execTbValidate s = .next { s with tb := { s.tb with work := some emptyWork } } := by
  simp [execTbValidate, hf, hl, h]

/-- Settles O44: the search of TB.VALIDATE passes the valid entries and stops at the first that fails, whose length is tested first. -/
theorem validateReportsTheLowestBadEntry : Obligations.ValidateReportsTheLowestBadEntry := by
  unfold Obligations.ValidateReportsTheLowestBadEntry
  intro s hf hl
  refine ⟨fun valid => ?valid, fun i hi below => ⟨fun len => ?badLength, fun hmin hmax code => ?badCode⟩⟩
  case valid => exact execTbValidate_of_valid hf hl (validateTable_none.2 fun i hi => valid i (Nat.le_of_lt_succ hi))
  case badLength =>
    exact ⟨_, execTbValidate_of_bad hf hl (validateTable_lowest hi below (checkFields_badLength len))⟩
  case badCode =>
    exact ⟨_, execTbValidate_of_bad hf hl (validateTable_lowest hi below (checkFields_badCode hmin hmax code))⟩

/-! ### TB.BUILD entry by entry (R74) -/

/-- TB.BUILD of a build under way inserts the entries left. -/
theorem execTbBuild_work {s : State} {w : TbWork} (hw : s.tb.work = some w) :
    execTbBuild s = .next (recordBuild s (insertMany s.maxLevels s.table (Config.nsym - w.next) w)) := by
  simp [execTbBuild, hw]

theorem execTbInsert_ok {s : State} {w w' : TbWork} {len : BitVec 5} {code : BitVec 30} (hw : s.tb.work = some w)
    (hn : w.next < Config.nsym) (h : insertNext s.maxLevels len.toNat code.toNat w = .ok w') :
    execTbInsert len code s = .next { s with tb := { s.tb with work := some w' } } := by
  simp [execTbInsert, hw, hn, h]

theorem execTbInsert_error {s : State} {w : TbWork} {len : BitVec 5} {code : BitVec 30} {c : BuildCause} (hw : s.tb.work = some w)
    (hn : w.next < Config.nsym) (h : insertNext s.maxLevels len.toNat code.toNat w = .error c) :
    execTbInsert len code s = .next (buildFailure c w.next s) := by
  simp [execTbInsert, hw, hn, h]

/-- Settles O48: TB.BUILD is its next step, TB.VALIDATE or the insertion of the next entry, and then the rest; how it ends is recorded alike from any
image under construction. -/
theorem buildIsValidateThenInserts : Obligations.BuildIsValidateThenInserts := by
  unfold Obligations.BuildIsValidateThenInserts
  refine ⟨fun s t hf hl h => ?validate, fun s t w hw hn he h => ?insert⟩
  case validate =>
    show (_ → execTbBuild t = execTbBuild s) ∧ (_ → execTbBuild s = .next t)
    change execTbValidate s = .next t at h
    rw [execTbBuild_fresh hf hl, buildTable]
    cases hv : validateTable s.table with
    | some e =>
      rw [execTbValidate_of_bad hf hl hv] at h
      cases h
      exact ⟨nofun, fun _ => rfl⟩
    | none =>
      rw [execTbValidate_of_valid hf hl hv] at h
      cases h
      exact ⟨fun _ => by rw [execTbBuild_work rfl, recordBuild_work]; rfl, nofun⟩
  case insert =>
    show (_ → execTbBuild t = execTbBuild s) ∧ (_ → execTbBuild s = .next t)
    change execTbInsert _ _ s = .next t at h
    obtain ⟨elen, ecode⟩ := entry_fields_toNat he
    have left : Config.nsym - w.next = Config.nsym - (w.next + 1) + 1 := by simp only [Config.nsym]; omega
    rw [execTbBuild_work hw, left, insertMany]
    cases hi : insertNext s.maxLevels (entryAt s.table w.next).len.toNat (entryAt s.table w.next).code.toNat w with
    | error c =>
      rw [execTbInsert_error hw hn (by rw [elen, ecode, hi])] at h
      cases h
      exact ⟨nofun, fun _ => rfl⟩
    | ok w' =>
      rw [execTbInsert_ok hw hn (by rw [elen, ecode, hi])] at h
      cases h
      refine ⟨fun _ => ?_, nofun⟩
      rw [execTbBuild_work rfl, recordBuild_work, insertNext_next hi]

/-! ### The path of a code, level by level (R81 item 3) -/

theorem pathKey_eq_windowOf (c len j : Nat) : pathKey c len j = windowOf c (len - 8 * j) := by
  rw [pathKey, windowOf, Nat.shiftRight_eq_div_pow, show len - 8 * (j + 1) = len - 8 * j - 8 by omega]
  exact Nat.and_two_pow_sub_one_eq_mod _ 8

/-- A key is in the fill range when its top bits are the code's last ones, as R81 item 3 writes it. -/
theorem inFillRange_iff_shift {c r k : Nat} : inFillRange c r k ↔ k < Config.fanout ∧ k >>> (8 - r) = c &&& ones r := by
  rw [inFillRange, Nat.shiftRight_eq_div_pow, ones, Nat.and_two_pow_sub_one_eq_mod]

theorem pathLevel_succ {trie : Memory NodeWord} {n c len j : Nat} {next : BitVec 10}
    (h : nodeDecode n (trieWord trie (pathLevel trie c len j) (pathKey c len j)) = .branch next) :
    pathLevel trie c len (j + 1) = next.toNat := by
  rw [pathLevel, (nodeDecode_branch h).1]

/-- What is left of a code after `j` whole windows is its last level's part when it fits a window. -/
theorem pathDepth_of_last {r j : Nat} (pos : 1 ≤ r) (last : r ≤ 8) : pathDepth (r + 8 * j) = j ∧ pathRest (r + 8 * j) = r := by
  simp only [pathRest, pathDepth]
  omega

theorem lt_pathDepth_of_more {r j : Nat} (more : 8 < r) : j < pathDepth (r + 8 * j) := by
  simp only [pathDepth]
  omega

theorem pathRest_le {len : Nat} (h : 1 ≤ len) : 1 ≤ pathRest len ∧ pathRest len ≤ 8 := by
  simp only [pathRest, pathDepth]
  omega

/-- From level `l_j` on a code's path takes the branches to the levels `l_(j+1)`, ..., `l_d`, where it ends in its leaves. -/
theorem CodePath.levels {trie : Memory NodeWord} {n c sym lvl r : Nat} (path : CodePath trie n c sym lvl r) {j : Nat}
    (hl : lvl = pathLevel trie c (r + 8 * j) j) :
    (∀ i, j ≤ i → i < pathDepth (r + 8 * j) →
      nodeDecode n (trieWord trie (pathLevel trie c (r + 8 * j) i) (pathKey c (r + 8 * j) i))
        = .branch (BitVec.ofNat 10 (pathLevel trie c (r + 8 * j) (i + 1)))) ∧
    (∀ k, inFillRange c (pathRest (r + 8 * j)) k →
      trieWord trie (pathLevel trie c (r + 8 * j) (pathDepth (r + 8 * j))) k = leafWord sym (pathRest (r + 8 * j))) := by
  induction path generalizing j with
  | @leaf lvl r level pos last words =>
    obtain ⟨depth, rest⟩ := pathDepth_of_last (j := j) pos last
    rw [depth, rest, ← hl]
    exact ⟨fun i hi hi' => by omega, words⟩
  | @branch lvl r next level more word _ ih =>
    have key : windowOf c r = pathKey c (r + 8 * j) j := by rw [pathKey_eq_windowOf, Nat.add_sub_cancel]
    rw [hl, key] at word
    have link := pathLevel_succ word
    have same : r - 8 + 8 * (j + 1) = r + 8 * j := by omega
    obtain ⟨branches, leaves⟩ := ih (j := j + 1) (by rw [same, link])
    rw [same] at branches leaves
    refine ⟨fun i hi hi' => ?_, leaves⟩
    rcases Nat.eq_or_lt_of_le hi with rfl | later
    · rw [word, link, BitVec.ofNat_toNat, BitVec.setWidth_eq]
    · exact branches i later hi'

theorem CodePath.bits_pos {trie : Memory NodeWord} {n c sym lvl r : Nat} (path : CodePath trie n c sym lvl r) : 1 ≤ r := by
  cases path with
  | leaf _ pos _ _ => exact pos
  | branch _ more _ _ => omega

/-- R81 item 3: an image that holds a code's path is filled for its symbol. -/
theorem CodePath.fullFill {trie : Memory NodeWord} {n sym : Nat} {e : CodeEntry} (path : CodePath trie n e.code.toNat sym 0 e.len.toNat)
    (hs : sym ≤ 256) (code : CodeTable) : FullFill { trie := trie, code := code } n e sym := by
  obtain ⟨branches, leaves⟩ := path.levels (j := 0) rfl
  obtain ⟨pos, last⟩ := pathRest_le path.bits_pos
  refine ⟨fun j hj => branches j (Nat.zero_le j) hj, fun k hk top => ?_⟩
  rw [nodeIn]
  exact (congrArg _ (leaves k (inFillRange_iff_shift.2 ⟨hk, top⟩))).trans (nodeDecode_leafWord hs pos last)

/-! ### TB.INSERT, said without its loops (R72, R73, R79) -/

section Path

variable {trie : Memory NodeWord} {n code fuel lvl r : Nat}

theorem freePath_last (last : r ≤ 8) :
    FreePath trie n code fuel lvl r ↔ ∀ k, inFillRange code r k → trieWord trie lvl k = emptyWord := by
  cases fuel with
  | zero => exact Iff.rfl
  | succ fuel => rw [FreePath, if_pos last]

theorem freePath_branch {next : BitVec 10} (more : 8 < r) (h : nodeDecode n (trieWord trie lvl (windowOf code r)) = .branch next) :
    FreePath trie n code (fuel + 1) lvl r ↔ FreePath trie n code fuel next.toNat (r - 8) := by
  rw [FreePath, if_neg (Nat.not_le.2 more), h]

theorem freePath_empty (more : 8 < r) (h : nodeDecode n (trieWord trie lvl (windowOf code r)) = .empty) :
    FreePath trie n code (fuel + 1) lvl r := by
  rw [FreePath, if_neg (Nat.not_le.2 more), h]
  trivial

theorem not_freePath_leaf {sym : BitVec 9} {bits : BitVec 4} (more : 8 < r)
    (h : nodeDecode n (trieWord trie lvl (windowOf code r)) = .leaf sym bits) : ¬ FreePath trie n code (fuel + 1) lvl r := by
  rw [FreePath, if_neg (Nat.not_le.2 more), h]
  exact id

theorem not_freePath_invalid (more : 8 < r) (h : nodeDecode n (trieWord trie lvl (windowOf code r)) = .invalid) :
    ¬ FreePath trie n code (fuel + 1) lvl r := by
  rw [FreePath, if_neg (Nat.not_le.2 more), h]
  exact id

theorem newLevels_last (last : r ≤ 8) : newLevels trie n code fuel lvl r = 0 := by
  cases fuel with
  | zero => rfl
  | succ fuel => rw [newLevels, if_pos last]

theorem newLevels_branch {next : BitVec 10} (more : 8 < r) (h : nodeDecode n (trieWord trie lvl (windowOf code r)) = .branch next) :
    newLevels trie n code (fuel + 1) lvl r = newLevels trie n code fuel next.toNat (r - 8) := by
  rw [newLevels, if_neg (Nat.not_le.2 more), h]

theorem newLevels_empty (more : 8 < r) (h : nodeDecode n (trieWord trie lvl (windowOf code r)) = .empty) :
    newLevels trie n code (fuel + 1) lvl r = pathDepth r := by
  rw [newLevels, if_neg (Nat.not_le.2 more), h]

/-- Nothing collides on a level that is all EMPTY, and the rest of the code allocates every level it needs. -/
theorem freePath_of_emptyLevel (he : ∀ k, k < Config.fanout → trieWord trie lvl k = emptyWord) (hf : r ≤ 8 * (fuel + 1)) :
    FreePath trie n code fuel lvl r ∧ newLevels trie n code fuel lvl r = pathDepth r := by
  by_cases last : r ≤ 8
  · refine ⟨(freePath_last last).2 fun k hk => he k hk.1, ?_⟩
    rw [newLevels_last last, pathDepth]
    omega
  · cases fuel with
    | zero => omega
    | succ fuel =>
      have slot : nodeDecode n (trieWord trie lvl (windowOf code r)) = .empty := nodeDecode_empty.2 (he _ (windowOf_lt code r))
      exact ⟨freePath_empty (by omega) slot, newLevels_empty (by omega) slot⟩

end Path

/-- The code of a descent, from where it stands, meets no collision. -/
def Descent.Free (d : Descent) (code fuel : Nat) : Prop := FreePath d.trie d.n code fuel d.lvl d.r

/-- The levels of the image after a descent. -/
def Descent.levels (d : Descent) (code fuel : Nat) : Nat := d.n + newLevels d.trie d.n code fuel d.lvl d.r

/-- How a descent ends: at the fill range, which is EMPTY exactly when nothing collides; for lack of room; or at a collision. -/
inductive DescentEnds (maxLevels code fuel : Nat) (d : Descent) : Except BuildCause Descent → Prop where
  | reached {d' : Descent} (free : d.Free code fuel ↔ ∀ k, inFillRange code d'.r k → trieWord d'.trie d'.lvl k = emptyWord)
      (levels : d'.n = d.levels code fuel) : DescentEnds maxLevels code fuel d (.ok d')
  | overflow (free : d.Free code fuel) (levels : maxLevels < d.levels code fuel) : DescentEnds maxLevels code fuel d (.error .levelOverflow)
  | collision (blocked : ¬ d.Free code fuel) : DescentEnds maxLevels code fuel d (.error .notPrefixFree)

/-- A descent ends as it does from its next level. -/
theorem DescentEnds.of_next {maxLevels code fuel : Nat} {d e : Descent} {outcome : Except BuildCause Descent}
    (h : DescentEnds maxLevels code fuel e outcome) (free : d.Free code (fuel + 1) ↔ e.Free code fuel)
    (levels : d.levels code (fuel + 1) = e.levels code fuel) : DescentEnds maxLevels code (fuel + 1) d outcome := by
  cases h with
  | reached free' levels' => exact .reached (free.trans free') (levels'.trans levels.symm)
  | overflow free' levels' => exact .overflow (free.2 free') (levels ▸ levels')
  | collision blocked => exact .collision (mt free.1 blocked)

/-- A new level is all EMPTY. -/
theorem allocLevel_emptyLevel {d : Descent} {key : Nat} (hw : Memory.wf emptyWord d.trie = true) (hkey : key < Config.fanout)
    (hl : d.lvl < d.n) (k : Nat) (hk : k < Config.fanout) :
    trieWord (allocLevel d key).trie d.n k = emptyWord := by
  simp only [allocLevel]
  rw [trieWord_setTrieWord (Memory.wf_clear hw _ _) hkey hk, if_neg (fun h => hl.ne' h.1), trieWord_clear _ _ _ _ hk, if_pos rfl]

/-- A descent with at most a window of the code left stands at the fill range. -/
theorem DescentEnds.last {maxLevels code : Nat} {d : Descent} (fuel : Nat) (last : d.r ≤ 8) : DescentEnds maxLevels code fuel d (.ok d) :=
  .reached (freePath_last last) (by rw [Descent.levels, newLevels_last last]; rfl)

/-- A window that follows a branch or allocates a level leaves the collision and the levels needed as they are. -/
theorem descend_ends {maxLevels code : Nat} (fuel : Nat) {d : Descent} (hw : Memory.wf emptyWord d.trie = true) (hl : d.lvl < d.n)
    (hn : d.n ≤ maxLevels) (hf : d.r ≤ 8 * (fuel + 1)) : DescentEnds maxLevels code fuel d (descend maxLevels code fuel d) := by
  induction fuel generalizing d with
  | zero => exact .last 0 hf
  | succ fuel ih =>
    by_cases last : d.r ≤ 8
    · rw [descend, if_pos last]
      exact .last _ last
    · simp only [descend, if_neg last, insertKey_eq_windowOf]
      have more : 8 < d.r := Nat.not_le.1 last
      cases node : nodeDecode d.n (trieWord d.trie d.lvl (windowOf code d.r)) with
      | branch next =>
        obtain ⟨_, _, level⟩ := nodeDecode_branch_iff.1 node
        exact (ih (d := { d with lvl := next.toNat, r := d.r - 8 }) hw level hn (by show d.r - 8 ≤ _; omega)).of_next
          (freePath_branch more node) (congrArg (d.n + ·) (newLevels_branch more node))
      | empty =>
        have free := freePath_empty (fuel := fuel) more node
        have needed : d.levels code (fuel + 1) = d.n + pathDepth d.r := congrArg (d.n + ·) (newLevels_empty more node)
        have depth : pathDepth d.r = 1 + pathDepth (d.r - 8) := by simp only [pathDepth]; omega
        by_cases full : maxLevels ≤ d.n
        · simp only [if_pos full]
          exact .overflow free (by omega)
        · simp only [if_neg full]
          obtain ⟨freeNext, neededNext⟩ := freePath_of_emptyLevel (n := (allocLevel d (windowOf code d.r)).n) (code := code)
            (allocLevel_emptyLevel hw (windowOf_lt code d.r) hl) (show d.r - 8 ≤ 8 * (fuel + 1) by omega)
          refine (ih (d := allocLevel d (windowOf code d.r)) (wf_setTrieWord (Memory.wf_clear hw _ _) _ _ _) (Nat.lt_succ_self _)
            (Nat.lt_of_not_le full) (show d.r - 8 ≤ _ by omega)).of_next (iff_of_true free freeNext) ?_
          have next : (allocLevel d (windowOf code d.r)).levels code fuel = d.n + 1 + pathDepth (d.r - 8) :=
            congrArg (d.n + 1 + ·) neededNext
          omega
      | leaf sym bits => exact .collision (not_freePath_leaf more node)
      | invalid => exact .collision (not_freePath_invalid more node)

/-- A fill goes on exactly when every slot of its range is EMPTY, and is a collision otherwise. -/
theorem fill_ends {leaf : NodeWord} {lvl count k : Nat} {trie : Memory NodeWord} (hw : Memory.wf emptyWord trie = true)
    (hk : k + count ≤ Config.fanout) :
    ((∀ k', k ≤ k' → k' < k + count → trieWord trie lvl k' = emptyWord) ∧ ∃ trie', fill leaf lvl count k trie = .ok trie') ∨
    (¬ (∀ k', k ≤ k' → k' < k + count → trieWord trie lvl k' = emptyWord) ∧ fill leaf lvl count k trie = .error .notPrefixFree) := by
  induction count generalizing k trie with
  | zero => exact .inl ⟨fun k' _ _ => by omega, trie, rfl⟩
  | succ count ih =>
    rw [fill]
    by_cases slot : trieWord trie lvl k = emptyWord
    · rw [if_neg (not_not.2 slot)]
      have others (k' : Nat) (h : k + 1 ≤ k') (h' : k' < k + 1 + count) :
          trieWord (setTrieWord trie lvl k leaf) lvl k' = trieWord trie lvl k' := by
        rw [trieWord_setTrieWord hw (by omega) (by omega), if_neg (fun same => by omega)]
      have range : (∀ k', k ≤ k' → k' < k + (count + 1) → trieWord trie lvl k' = emptyWord) ↔
          ∀ k', k + 1 ≤ k' → k' < k + 1 + count → trieWord (setTrieWord trie lvl k leaf) lvl k' = emptyWord := by
        constructor
        · intro all k' h h'
          rw [others k' h h', all k' (by omega) (by omega)]
        · intro rest k' h h'
          rcases Nat.eq_or_lt_of_le h with rfl | later
          · exact slot
          · rw [← others k' later (by omega), rest k' later (by omega)]
      rw [range]
      exact ih (wf_setTrieWord hw _ _ _) (by omega)
    · rw [if_pos slot]
      exact .inr ⟨fun all => slot (all k (Nat.le_refl k) (by omega)), rfl⟩

theorem fillRange_inside {code r : Nat} (hr : r ≤ 8) : fillBase code r + fillSize r ≤ Config.fanout := by
  have size : 0 < fillSize r := Nat.two_pow_pos _
  have lastKey := ((inFillRange_iff (code := code) (k := fillBase code r + (fillSize r - 1)) hr).2 ⟨by omega, by omega⟩).1
  omega

theorem exists_inFillRange (code : Nat) {r : Nat} (hr : r ≤ 8) : ∃ key, key < Config.fanout ∧ inFillRange code r key := by
  have size : 0 < fillSize r := Nat.two_pow_pos _
  have range := (inFillRange_iff (code := code) (k := fillBase code r) hr).2 ⟨Nat.le_refl _, by omega⟩
  exact ⟨_, range.1, range⟩

/-- Where the insertion of a code of `len` bits begins: at the root. -/
def TbWork.start (w : TbWork) (len : Nat) : Descent := ⟨w.trie, w.n, 0, len⟩

/-- How an insertion ends (R72, R73, R79). -/
inductive InsertionEnds (maxLevels len code : Nat) (w : TbWork) : Except BuildCause TbWork → Prop where
  | inserted {w' : TbWork} (free : (w.start len).Free code Config.maxDepth)
      (levels : w'.n = (w.start len).levels code Config.maxDepth) (room : w'.n ≤ maxLevels) :
      InsertionEnds maxLevels len code w (.ok w')
  | overflow (free : (w.start len).Free code Config.maxDepth)
      (levels : maxLevels < (w.start len).levels code Config.maxDepth) : InsertionEnds maxLevels len code w (.error .levelOverflow)
  | collision (blocked : ¬ (w.start len).Free code Config.maxDepth) : InsertionEnds maxLevels len code w (.error .notPrefixFree)

/-- An insertion collides in its descent or in its fill, and allocates in its descent only. -/
theorem insertNext_ends {maxLevels len code : Nat} {w : TbWork} (fields : checkFields len code = none) (hm : maxLevels ≤ 1024)
    (hw : Memory.wf emptyWord w.trie = true) (h1 : 1 ≤ w.n) (hn : w.n ≤ maxLevels) :
    InsertionEnds maxLevels len code w (insertNext maxLevels len code w) := by
  obtain ⟨hmin, hmax, _⟩ := checkFields_none.1 fields
  have windows : len ≤ 8 * (Config.maxDepth + 1) := by simp only [Config.maxDepth]; omega
  have ends := descend_ends (code := code) Config.maxDepth (d := ⟨w.trie, w.n, 0, len⟩) hw h1 hn windows
  simp only [insertNext, fields, insertCode]
  cases hd : descend maxLevels code Config.maxDepth ⟨w.trie, w.n, 0, len⟩ with
  | error c =>
    rw [hd] at ends
    cases ends with
    | overflow free levels => exact .overflow free levels
    | collision blocked => exact .collision blocked
  | ok d =>
    rw [hd] at ends
    obtain ⟨free, levels⟩ := ends
    obtain ⟨hw', _, room⟩ := descend_keeps _ hd hw hn
    obtain ⟨_, _, _, last⟩ := descend_leadsTo w.next hm _ hd hw hn h1 hmin windows
    simp only [inFillRange_iff last, and_imp] at free
    rcases fill_ends (leaf := leafWord w.next d.r) (lvl := d.lvl) hw' (fillRange_inside (code := code) last) with
      ⟨range, trie', filled⟩ | ⟨range, blocked⟩
    · simp only [filled]
      exact .inserted (free.2 range) levels room
    · simp only [blocked]
      exact .collision (mt free.1 range)

section Ends

variable {maxLevels len code : Nat} {w : TbWork} {outcome : Except BuildCause TbWork}

theorem InsertionEnds.inserts (h : InsertionEnds maxLevels len code w outcome) (free : (w.start len).Free code Config.maxDepth)
    (room : (w.start len).levels code Config.maxDepth ≤ maxLevels) :
    ∃ w', outcome = .ok w' ∧ w'.n = (w.start len).levels code Config.maxDepth := by
  cases h with
  | @inserted w' _ levels _ => exact ⟨w', rfl, levels⟩
  | overflow _ levels => omega
  | collision blocked => exact absurd free blocked

theorem InsertionEnds.collides (h : InsertionEnds maxLevels len code w outcome) (blocked : ¬ (w.start len).Free code Config.maxDepth) :
    outcome = .error .notPrefixFree := by
  cases h with
  | inserted free _ _ => exact absurd free blocked
  | overflow free _ => exact absurd free blocked
  | collision _ => rfl

theorem InsertionEnds.overflows (h : InsertionEnds maxLevels len code w outcome) (free : (w.start len).Free code Config.maxDepth)
    (noRoom : maxLevels < (w.start len).levels code Config.maxDepth) : outcome = .error .levelOverflow := by
  cases h with
  | inserted _ levels room => omega
  | overflow _ _ => rfl
  | collision blocked => exact absurd free blocked

end Ends

/-- Settles O46: the three ways an insertion ends exclude each other, and one that goes on keeps the words there are and leaves the path of
its code. -/
theorem insertFillsTheCodesPath : Obligations.InsertFillsTheCodesPath := by
  unfold Obligations.InsertFillsTheCodesPath
  intro s w len code hw hs hmin hmax hcode wf h1 hn hm
  have fields : checkFields len.toNat code.toNat = none := checkFields_none.2 ⟨hmin, hmax, hcode⟩
  have ends := insertNext_ends fields hm wf h1 hn
  refine ⟨fun free room => ?inserted, fun blocked => ?collision, fun free noRoom => ?overflow⟩
  case inserted =>
    obtain ⟨w', h, levels⟩ := ends.inserts free room
    obtain ⟨kept, path⟩ := insertNext_codePath h hm wf h1 hn (Nat.le_of_lt_succ hs)
    have entryLen : (len.setWidth 8).toNat = len.toNat := BitVec.toNat_setWidth_of_le (by decide)
    have entryCode : (code.setWidth 32).toNat = code.toNat := BitVec.toNat_setWidth_of_le (by decide)
    refine ⟨w', execTbInsert_ok hw hs h, insertNext_next h, levels, CodePath.fullFill ?_ (Nat.le_of_lt_succ hs) _, kept.2⟩
    rwa [entryLen, entryCode]
  case collision => exact ⟨_, execTbInsert_error hw hs (ends.collides blocked)⟩
  case overflow => exact ⟨_, execTbInsert_error hw hs (ends.overflows free noRoom)⟩

/-! ### Codes as strings of windows (R31, R53) -/

/-- The bits of a key, most significant first. -/
def keyBits (key : Nat) : List Bool := accBits key Config.win

/-- The first `j` windows of a code. -/
def windows (e : CodeEntry) (j : Nat) : List Bool := (codeBits e).take (8 * j)

/-- The high bits of a number and then its low bits. -/
theorem accBits_add (c m r : Nat) : accBits c (m + r) = accBits (c / 2 ^ r) m ++ accBits c r := by
  apply List.ext_getElem
  · simp
  · intro j h h'
    simp only [accBits_length] at h
    rw [List.getElem_append]
    by_cases high : j < m
    · simp only [accBits_length, high, dite_true, accBits_getElem, Nat.testBit_div_two_pow]
      congr 1
      omega
    · simp only [accBits_length, high, dite_false, accBits_getElem]
      congr 1
      omega

theorem accBits_mod (c m : Nat) : accBits (c % 2 ^ m) m = accBits c m := by
  apply List.ext_getElem
  · simp
  · intro j h h'
    simp only [accBits_length] at h
    have low : m - 1 - j < m := by omega
    simp [accBits_getElem, Nat.testBit_mod_two_pow, low]

theorem accBits_inj {a b m : Nat} (ha : a < 2 ^ m) (hb : b < 2 ^ m) : accBits a m = accBits b m ↔ a = b := by
  refine ⟨fun h => Nat.eq_of_testBit_eq fun i => ?_, fun h => h ▸ rfl⟩
  by_cases hi : i < m
  · have bit := List.getElem_of_eq h (i := m - 1 - i) (by rw [accBits_length]; omega)
    rwa [accBits_getElem, accBits_getElem, show m - 1 - (m - 1 - i) = i by omega] at bit
  · have wide : 2 ^ m ≤ 2 ^ i := Nat.pow_le_pow_right (by decide) (by omega)
    rw [Nat.testBit_lt_two_pow (lt_of_lt_of_le ha wide), Nat.testBit_lt_two_pow (lt_of_lt_of_le hb wide)]

theorem codeBits_eq_accBits (e : CodeEntry) : codeBits e = accBits e.code.toNat e.len.toNat := rfl

@[simp] theorem keyBits_length (key : Nat) : (keyBits key).length = 8 := accBits_length _ _

theorem keyBits_inj {a b : Nat} (ha : a < Config.fanout) (hb : b < Config.fanout) (h : keyBits a = keyBits b) : a = b :=
  (accBits_inj (m := 8) ha hb).1 h

theorem windows_prefix (e : CodeEntry) (j : Nat) : windows e j <+: codeBits e := List.take_prefix _ _

theorem windows_length {e : CodeEntry} {j : Nat} (h : 8 * j ≤ e.len.toNat) : (windows e j).length = 8 * j := by
  rw [windows, List.length_take, codeBits_length, Nat.min_eq_left h]

theorem eq_windows {e : CodeEntry} {p : List Bool} {j : Nat} (h : p <+: codeBits e) (hl : p.length = 8 * j) : p = windows e j := by
  rw [windows, ← hl]
  exact List.prefix_iff_eq_take.1 h

/-- A code is its first windows and then its last `r` bits. -/
theorem codeBits_split {e : CodeEntry} {j r : Nat} (h : r + 8 * j = e.len.toNat) :
    windows e j = accBits (e.code.toNat / 2 ^ r) (8 * j) ∧ codeBits e = windows e j ++ accBits e.code.toNat r := by
  have split := accBits_add e.code.toNat (8 * j) r
  rw [Nat.add_comm, h, ← codeBits_eq_accBits] at split
  have high : windows e j = accBits (e.code.toNat / 2 ^ r) (8 * j) := by
    rw [windows, split, List.take_left' (accBits_length _ _)]
  exact ⟨high, high ▸ split⟩

/-- One window further. -/
theorem windows_succ {e : CodeEntry} {j r : Nat} (h : r + 8 * j = e.len.toNat) (hr : 8 ≤ r) :
    windows e j ++ keyBits (windowOf e.code.toNat r) = windows e (j + 1) := by
  obtain ⟨before, _⟩ := codeBits_split h
  obtain ⟨after, _⟩ := codeBits_split (e := e) (j := j + 1) (r := r - 8) (by omega)
  have shifts : e.code.toNat / 2 ^ (r - 8) / 2 ^ 8 = e.code.toNat / 2 ^ r := by
    rw [Nat.div_div_eq_div_mul, ← Nat.pow_add, Nat.sub_add_cancel hr]
  rw [before, after, Nat.mul_succ, accBits_add, shifts]
  exact congrArg (_ ++ ·) (accBits_mod _ 8)

/-- A code ends inside a window at the keys of its fill range. -/
theorem codeBits_prefix_iff_inFillRange {e : CodeEntry} {j r key : Nat} (h : r + 8 * j = e.len.toNat) (hr : r ≤ 8)
    (hkey : key < Config.fanout) : codeBits e <+: windows e j ++ keyBits key ↔ inFillRange e.code.toNat r key := by
  have topBits : keyBits key = accBits (key / 2 ^ (8 - r)) r ++ accBits key (8 - r) := by
    rw [← accBits_add, Nat.add_sub_cancel' hr]
    rfl
  have small : key / 2 ^ (8 - r) < 2 ^ r := by
    rw [Nat.div_lt_iff_lt_mul (Nat.two_pow_pos _), ← Nat.pow_add, Nat.add_sub_cancel' hr]
    exact hkey
  rw [(codeBits_split h).2, List.prefix_append_right_inj, topBits, List.prefix_iff_eq_take, accBits_length,
    List.take_left' (accBits_length _ _), ← accBits_mod, accBits_inj (Nat.mod_lt _ (Nat.two_pow_pos r)) small, inFillRange]
  exact ⟨fun eq => ⟨hkey, eq.symm⟩, fun range => range.2.symm⟩

/-- The positions of the levels other than the root for the first `k` codes. -/
def windowPrefixes (t : CodeTable) (k : Nat) : Finset (List Bool) :=
  (Finset.range k).biUnion fun i => (Finset.range (pathDepth (entryAt t i).len.toNat)).image fun j => windows (entryAt t i) (j + 1)

theorem levelPrefixes_eq (t : CodeTable) : levelPrefixes t = windowPrefixes t Config.nsym := rfl

theorem mem_windowPrefixes {t : CodeTable} {k : Nat} {p : List Bool} :
    p ∈ windowPrefixes t k ↔ ∃ i, i < k ∧ ∃ j, j < pathDepth (entryAt t i).len.toNat ∧ windows (entryAt t i) (j + 1) = p := by
  simp [windowPrefixes]

theorem windowPrefixes_mono {t : CodeTable} {k k' : Nat} (h : k ≤ k') : windowPrefixes t k ⊆ windowPrefixes t k' := by
  intro p hp
  obtain ⟨i, hi, rest⟩ := mem_windowPrefixes.1 hp
  exact mem_windowPrefixes.2 ⟨i, by omega, rest⟩

theorem pathDepth_le {e : CodeEntry} (h : ValidEntry e) : pathDepth e.len.toNat ≤ 3 := by
  obtain ⟨_, hmax, _⟩ := h
  simp only [Config.maxLen] at hmax
  simp only [pathDepth]
  omega

/-- Each code has at most 3 levels of its own (R79). -/
theorem card_windowPrefixes_le {t : CodeTable} (valid : ValidTable t) {k : Nat} (hk : k ≤ Config.nsym) :
    (windowPrefixes t k).card ≤ 3 * k := by
  rw [Nat.mul_comm]
  refine (Finset.card_biUnion_le_card_mul _ _ 3 fun i hi => ?_).trans_eq (by rw [Finset.card_range])
  have depth := pathDepth_le (valid i (lt_of_lt_of_le (Finset.mem_range.1 hi) hk))
  exact Finset.card_image_le.trans (by rwa [Finset.card_range])

/-! ### The shape of an image under construction (R81) -/

/-- A node that a slot can hold in an image of the first `k` codes, with level `l` at the position `pos l` and the slot at the position `place`:
the leaf of a code that ends there, or the branch of one that goes on, to the level at that position (R81 items 3 and 4). -/
inductive Slot (t : CodeTable) (k : Nat) (pos : Nat → List Bool) (place : List Bool) : Node → Prop where
  | empty : Slot t k pos place .empty
  | leaf {i : Nat} (index : i < k) (level : place.length = 8 * (pathDepth (entryAt t i).len.toNat + 1)) (ends : codeBits (entryAt t i) <+: place) :
      Slot t k pos place (.leaf (BitVec.ofNat 9 i) (BitVec.ofNat 4 (pathRest (entryAt t i).len.toNat)))
  | branch {next : BitVec 10} (goesOn : place ∈ windowPrefixes t k) (link : pos next.toNat = place) : Slot t k pos place (.branch next)

/-- An image of `n` levels that holds nothing but words of the first `k` codes, its levels at distinct positions (R81 items 1, 2, 4). -/
structure Shape (t : CodeTable) (k : Nat) (trie : Memory NodeWord) (n : Nat) (pos : Nat → List Bool) : Prop where
  root : pos 0 = []
  distinct : ∀ l l', l < n → l' < n → pos l = pos l' → l = l'
  slots : ∀ l key, l < n → key < Config.fanout → Slot t k pos (pos l ++ keyBits key) (nodeDecode n (trieWord trie l key))
  linked : ∀ l, 1 ≤ l → l < n →
    ∃ l' key, l' < n ∧ key < Config.fanout ∧ nodeDecode n (trieWord trie l' key) = .branch (BitVec.ofNat 10 l)

theorem Slot.mono {t : CodeTable} {k k' : Nat} {pos pos' : Nat → List Bool} {place : List Bool} {node : Node} (h : Slot t k pos place node)
    (hk : k ≤ k') (same : ∀ next, node = .branch next → pos' next.toNat = pos next.toNat) : Slot t k' pos' place node := by
  cases h with
  | empty => exact .empty
  | leaf index level ends => exact .leaf (by omega) level ends
  | branch goesOn link => exact .branch (windowPrefixes_mono hk goesOn) ((same _ rfl).trans link)

theorem Shape.mono {t : CodeTable} {k k' n : Nat} {trie : Memory NodeWord} {pos : Nat → List Bool} (h : Shape t k trie n pos) (hk : k ≤ k') :
    Shape t k' trie n pos :=
  { h with slots := fun l key hl hkey => (h.slots l key hl hkey).mono hk fun _ _ => rfl }

/-- A legal word keeps its meaning when levels are added. -/
theorem nodeDecode_of_le {n n' : Nat} {w : NodeWord} (hn : n ≤ n') (legal : nodeDecode n w ≠ .invalid) : nodeDecode n' w = nodeDecode n w := by
  cases node : nodeDecode n w with
  | empty => exact nodeDecode_empty.2 (nodeDecode_empty.1 node)
  | leaf sym bits => exact nodeDecode_leaf_iff.2 (nodeDecode_leaf_iff.1 node)
  | branch next =>
    obtain ⟨word, hmin, hmax⟩ := nodeDecode_branch_iff.1 node
    exact nodeDecode_branch_iff.2 ⟨word, hmin, lt_of_lt_of_le hmax hn⟩
  | invalid => exact absurd node legal

theorem level_ofNat_toNat {l : Nat} (h : l < 1024) : (BitVec.ofNat 10 l).toNat = l := by
  simp only [BitVec.toNat_ofNat]
  omega

section Shape

variable {t : CodeTable} {k n : Nat} {trie : Memory NodeWord} {pos : Nat → List Bool}

theorem Shape.legal (shape : Shape t k trie n pos) {l key : Nat} (hl : l < n) (hkey : key < Config.fanout) :
    nodeDecode n (trieWord trie l key) ≠ .invalid := by
  intro node
  have slot := shape.slots l key hl hkey
  rw [node] at slot
  cases slot

/-- A branch goes to the level one window further. -/
theorem Shape.branch (shape : Shape t k trie n pos) {l key : Nat} {next : BitVec 10} (hl : l < n) (hkey : key < Config.fanout)
    (node : nodeDecode n (trieWord trie l key) = .branch next) :
    pos next.toNat = pos l ++ keyBits key ∧ pos next.toNat ∈ windowPrefixes t k := by
  have slot := shape.slots l key hl hkey
  rw [node] at slot
  cases slot with
  | branch goesOn link => exact ⟨link, link ▸ goesOn⟩

/-- Positions determine slots. -/
theorem Shape.slot_unique (shape : Shape t k trie n pos) {l l' key key' : Nat} (hl : l < n) (hl' : l' < n) (hkey : key < Config.fanout)
    (hkey' : key' < Config.fanout) (same : pos l ++ keyBits key = pos l' ++ keyBits key') : l = l' ∧ key = key' := by
  obtain ⟨level, bits⟩ := List.append_inj' same (by simp)
  exact ⟨shape.distinct l l' hl hl' level, keyBits_inj hkey hkey' bits⟩

/-- Every level but the root is at a position that some code passes. -/
theorem Shape.position (shape : Shape t k trie n pos) (hn : n ≤ 1024) {l : Nat} (h1 : 1 ≤ l) (hl : l < n) : pos l ∈ windowPrefixes t k := by
  obtain ⟨l', key, hl', hkey, node⟩ := shape.linked l h1 hl
  rw [← level_ofNat_toNat (hl.trans_le hn)]
  exact (shape.branch hl' hkey node).2

/-- Behind an EMPTY slot there is no level. -/
theorem Shape.no_level_of_empty (shape : Shape t k trie n pos) (hn : n ≤ 1024) {l key : Nat} (hl : l < n) (hkey : key < Config.fanout)
    (he : trieWord trie l key = emptyWord) {m : Nat} (hm : m < n) : pos m ≠ pos l ++ keyBits key := by
  intro same
  have notRoot : m ≠ 0 := by
    rintro rfl
    rw [shape.root] at same
    have := congrArg List.length same
    simp at this
  obtain ⟨l', key', hl', hkey', node⟩ := shape.linked m (by omega) hm
  have link := (shape.branch hl' hkey' node).1
  rw [level_ofNat_toNat (hm.trans_le hn), same] at link
  obtain ⟨rfl, rfl⟩ := shape.slot_unique hl hl' hkey hkey' link
  rw [nodeDecode_empty.2 he] at node
  cases node

end Shape

@[simp] theorem allocLevel_n (d : Descent) (key : Nat) : (allocLevel d key).n = d.n + 1 := rfl

@[simp] theorem allocLevel_lvl (d : Descent) (key : Nat) : (allocLevel d key).lvl = d.n := rfl

/-- An allocation writes one slot, the link. -/
theorem trieWord_allocLevel {d : Descent} {key l k : Nat} (hw : Memory.wf emptyWord d.trie = true) (hkey : key < Config.fanout) (hl : l < d.n)
    (hk : k < Config.fanout) :
    trieWord (allocLevel d key).trie l k = if l = d.lvl ∧ k = key then branchWord d.n else trieWord d.trie l k := by
  simp only [allocLevel]
  rw [trieWord_setTrieWord (Memory.wf_clear hw _ _) hkey hk, trieWord_clear _ _ _ _ hk, if_neg hl.ne]

/-- A new level, linked from an EMPTY slot that a code goes on through, stands at the position of that slot. -/
theorem Shape.addLevel {t : CodeTable} {k key : Nat} {d : Descent} {pos : Nat → List Bool} (shape : Shape t k d.trie d.n pos)
    (hw : Memory.wf emptyWord d.trie = true) (hn : d.n < 1024) (hl : d.lvl < d.n) (hkey : key < Config.fanout)
    (he : trieWord d.trie d.lvl key = emptyWord) (goesOn : pos d.lvl ++ keyBits key ∈ windowPrefixes t k) :
    Shape t k (allocLevel d key).trie (allocLevel d key).n (Function.update pos d.n (pos d.lvl ++ keyBits key)) := by
  have old {l : Nat} (h : l < d.n) : Function.update pos d.n (pos d.lvl ++ keyBits key) l = pos l := Function.update_of_ne h.ne _ _
  have new : Function.update pos d.n (pos d.lvl ++ keyBits key) d.n = pos d.lvl ++ keyBits key := Function.update_self _ _ _
  have link := allocLevel_link hw hkey (by omega) hn (d := d)
  have unused {m : Nat} (hm : m < d.n) := shape.no_level_of_empty hn.le hl hkey he hm
  simp only [allocLevel_n, allocLevel_lvl] at link ⊢
  refine ⟨by rw [old (by omega), shape.root], fun l l' h h' same => ?distinct, fun l key' h hkey' => ?slots, fun l h1 h => ?linked⟩
  case distinct =>
    rcases Nat.lt_succ_iff_lt_or_eq.1 h with hlo | rfl <;> rcases Nat.lt_succ_iff_lt_or_eq.1 h' with hlo' | rfl
    · exact shape.distinct l l' hlo hlo' (by rwa [old hlo, old hlo'] at same)
    · exact absurd (by rwa [old hlo, new] at same) (unused hlo)
    · exact absurd (by rw [old hlo', new] at same; exact same.symm) (unused hlo')
    · rfl
  case slots =>
    rcases Nat.lt_succ_iff_lt_or_eq.1 h with hlo | rfl
    · rw [old hlo]
      by_cases here : l = d.lvl ∧ key' = key
      · obtain ⟨rfl, rfl⟩ := here
        rw [link]
        exact .branch goesOn (by rw [level_ofNat_toNat hn, new])
      · rw [trieWord_allocLevel hw hkey hlo hkey', if_neg here, nodeDecode_of_le (Nat.le_succ _) (shape.legal hlo hkey')]
        exact (shape.slots l key' hlo hkey').mono (Nat.le_refl k) fun next node => old (nodeDecode_branch_iff.1 node).2.2
    · rw [nodeDecode_empty.2 (allocLevel_emptyLevel hw hkey hl key' hkey')]
      exact .empty
  case linked =>
    rcases Nat.lt_succ_iff_lt_or_eq.1 h with hlo | rfl
    · obtain ⟨l', key', hl', hkey', node⟩ := shape.linked l h1 hlo
      exact ⟨l', key', Nat.lt_succ_of_lt hl', hkey', (allocLevel_keepsWords hw hkey he).branch hl' hkey' node⟩
    · exact ⟨d.lvl, key, Nat.lt_succ_of_lt hl, hkey, link⟩

/-- A descent stands inside the code of entry `e`: its level is at the code's first windows, `r` bits before the code's end. -/
def Descent.StandsIn (d : Descent) (pos : Nat → List Bool) (e : CodeEntry) : Prop :=
  ∃ j, pos d.lvl = windows e j ∧ d.r + 8 * j = e.len.toNat

/-- With more than a window left the next slot is one the code goes on through. -/
theorem Descent.StandsIn.next {d : Descent} {pos : Nat → List Bool} {t : CodeTable} {i k : Nat} (h : d.StandsIn pos (entryAt t i)) (hi : i < k)
    (more : 8 < d.r) :
    pos d.lvl ++ keyBits (windowOf (entryAt t i).code.toNat d.r) ∈ windowPrefixes t k ∧
    ∃ j, pos d.lvl ++ keyBits (windowOf (entryAt t i).code.toNat d.r) = windows (entryAt t i) j ∧ d.r - 8 + 8 * j = (entryAt t i).len.toNat := by
  obtain ⟨j, level, left⟩ := h
  have further := windows_succ left more.le
  rw [level, further]
  refine ⟨mem_windowPrefixes.2 ⟨i, hi, j, ?_, rfl⟩, j + 1, rfl, by omega⟩
  rw [← left]
  exact lt_pathDepth_of_more more

/-- A descent keeps the shape: each level it adds is behind a slot that its code goes on through. -/
theorem descend_shape {maxLevels code : Nat} {t : CodeTable} {i k : Nat} (hm : maxLevels ≤ 1024) (hi : i < k)
    (hc : code = (entryAt t i).code.toNat) (fuel : Nat) {d d' : Descent} {pos : Nat → List Bool}
    (h : descend maxLevels code fuel d = .ok d') (hw : Memory.wf emptyWord d.trie = true) (hn : d.n ≤ maxLevels) (hl : d.lvl < d.n)
    (shape : Shape t k d.trie d.n pos) (stands : d.StandsIn pos (entryAt t i)) :
    ∃ pos', Shape t k d'.trie d'.n pos' ∧ d'.StandsIn pos' (entryAt t i) := by
  induction fuel generalizing d pos with
  | zero => cases h; exact ⟨pos, shape, stands⟩
  | succ fuel ih =>
    have hk := windowOf_lt code d.r
    rcases descend_succ_cases h with ⟨_, rfl⟩ | ⟨more, next, node, h⟩ | ⟨more, he, room, h⟩
    · exact ⟨pos, shape, stands⟩
    · obtain ⟨_, further⟩ := stands.next hi more
      rw [← hc, ← (shape.branch hl hk node).1] at further
      exact ih (d := { d with lvl := next.toNat, r := d.r - 8 }) h hw hn (nodeDecode_branch_iff.1 node).2.2 shape further
    · obtain ⟨goesOn, further⟩ := stands.next hi more
      rw [← hc] at goesOn further
      refine ih h (wf_setTrieWord (Memory.wf_clear hw _ _) _ _ _) room (Nat.lt_succ_self _)
        (shape.addLevel hw (by omega) hl hk he goesOn) ?_
      obtain ⟨j, level, left⟩ := further
      exact ⟨j, (Function.update_self _ _ _).trans level, left⟩

/-- What a fill writes. -/
theorem trieWord_fill {leaf : NodeWord} {lvl count k : Nat} {trie trie' : Memory NodeWord} (h : fill leaf lvl count k trie = .ok trie')
    (hw : Memory.wf emptyWord trie = true) (hk : k + count ≤ Config.fanout) {l key : Nat} (hkey : key < Config.fanout) :
    trieWord trie' l key = if l = lvl ∧ k ≤ key ∧ key < k + count then leaf else trieWord trie l key := by
  induction count generalizing k trie with
  | zero =>
    cases h
    rw [if_neg (by omega)]
  | succ count ih =>
    rw [ih (fill_succ_ok h).2 (wf_setTrieWord hw _ _ _) (by omega), trieWord_setTrieWord hw (by omega) hkey]
    by_cases here : l = lvl ∧ key = k
    · rw [if_pos here, if_neg (by omega), if_pos (by omega)]
    · rw [if_neg here]
      by_cases later : l = lvl ∧ k + 1 ≤ key ∧ key < k + 1 + count
      · rw [if_pos later, if_pos (by omega)]
      · rw [if_neg later, if_neg (by omega)]

/-- The slots a fill writes are those in which the code ends. -/
theorem Shape.addLeaves {t : CodeTable} {i k : Nat} {d : Descent} {trie : Memory NodeWord} {pos : Nat → List Bool}
    (shape : Shape t k d.trie d.n pos) (hi : i < k) (hs : i ≤ 256) (stands : d.StandsIn pos (entryAt t i)) (hr : 1 ≤ d.r) (last : d.r ≤ 8)
    (hw : Memory.wf emptyWord d.trie = true) (h : fill (leafWord i d.r) d.lvl (fillSize d.r) (fillBase (entryAt t i).code.toNat d.r) d.trie = .ok trie) :
    Shape t k trie d.n pos := by
  have inside := fillRange_inside (code := (entryAt t i).code.toNat) last
  refine { shape with slots := fun l key hl hkey => ?_, linked := fun l h1 hl => ?_ }
  · rw [trieWord_fill h hw inside hkey]
    by_cases range : l = d.lvl ∧ fillBase (entryAt t i).code.toNat d.r ≤ key ∧ key < fillBase (entryAt t i).code.toNat d.r + fillSize d.r
    · obtain ⟨rfl, hkeys⟩ := range
      obtain ⟨j, level, left⟩ := stands
      have ends := (codeBits_prefix_iff_inFillRange left last hkey).2 ((inFillRange_iff last).2 hkeys)
      obtain ⟨depth, rest⟩ := pathDepth_of_last (j := j) hr last
      rw [left] at depth rest
      rw [if_pos ⟨rfl, hkeys⟩, nodeDecode_leafWord hs hr last, level, ← rest]
      refine .leaf hi ?_ ends
      rw [List.length_append, windows_length (by omega), keyBits_length, depth]
      omega
    · rw [if_neg range]
      exact shape.slots l key hl hkey
  · obtain ⟨l', key, hl', hkey, node⟩ := shape.linked l h1 hl
    exact ⟨l', key, hl', hkey, (fill_keepsWords d.n h hw inside).branch hl' hkey node⟩

/-! ### The image of the first entries (R74, R81) -/

/-- The image under construction holds the codes of its first entries and nothing else. -/
structure Image (t : CodeTable) (w : TbWork) : Prop where
  canonical : Memory.wf emptyWord w.trie = true
  root : 1 ≤ w.n
  room : w.n ≤ 1024
  entries : w.next ≤ Config.nsym
  paths : ∀ i, i < w.next → CodePath w.trie w.n (entryAt t i).code.toNat i 0 (entryAt t i).len.toNat
  shape : ∃ pos, Shape t w.next w.trie w.n pos

theorem image_emptyWork (t : CodeTable) : Image t emptyWork where
  canonical := rfl
  root := Nat.le_refl 1
  room := by decide
  entries := Nat.zero_le _
  paths := fun i hi => absurd hi (Nat.not_lt_zero i)
  shape := by
    refine ⟨fun _ => [], rfl, fun l l' hl hl' _ => ?_, fun l key _ _ => ?_, fun l h1 hl => ?_⟩
    · have : l < 1 := hl
      have : l' < 1 := hl'
      omega
    · rw [nodeDecode_empty.2 (show trieWord emptyWork.trie l key = emptyWord from rfl)]
      exact .empty
    · have : l < 1 := hl
      omega

/-- Inserting the next entry makes the image of one entry more. -/
theorem Image.of_insertNext {maxLevels : Nat} {t : CodeTable} {w w' : TbWork} (image : Image t w) (hs : w.next < Config.nsym)
    (h : insertNext maxLevels (entryAt t w.next).len.toNat (entryAt t w.next).code.toNat w = .ok w') (hm : maxLevels ≤ 1024)
    (hn : w.n ≤ maxLevels) : Image t w' := by
  obtain ⟨canonical, root, _, _, paths, pos, shape⟩ := image
  obtain ⟨canonical', more, room'⟩ := insertNext_keeps h canonical hn
  obtain ⟨kept, path⟩ := insertNext_codePath h hm canonical root hn (Nat.le_of_lt_succ hs)
  have next := insertNext_next h
  refine ⟨canonical', root.trans more, room'.trans hm, by omega, fun i hi => ?paths, ?shape⟩
  case paths =>
    rcases Nat.lt_succ_iff_lt_or_eq.1 (next ▸ hi) with earlier | rfl
    · exact kept.codePath (by simp only [Config.nsym] at hs; omega) (paths i earlier)
    · exact path
  case shape =>
    obtain ⟨fields, d, hd, hf, levels⟩ := insertNext_ok h
    obtain ⟨hmin, hmax, _⟩ := checkFields_none.1 fields
    obtain ⟨_, _, left, last⟩ := descend_leadsTo w.next hm _ hd canonical hn root hmin (by simp only [Config.maxDepth]; omega)
    obtain ⟨pos', shape', stands⟩ := descend_shape (i := w.next) hm (Nat.lt_succ_self _) rfl _ hd canonical hn root
      (shape.mono (Nat.le_succ _)) ⟨0, shape.root, rfl⟩
    rw [next, levels]
    exact ⟨pos', shape'.addLeaves (Nat.lt_succ_self _) (Nat.le_of_lt_succ hs) stands left last (descend_keeps _ hd canonical hn).1 hf⟩

theorem Image.of_insertMany {maxLevels k : Nat} {t : CodeTable} {w w' : TbWork} (image : Image t w) (hs : w.next + k ≤ Config.nsym)
    (h : insertMany maxLevels t k w = .ok w') (hm : maxLevels ≤ 1024) (hn : w.n ≤ maxLevels) : Image t w' := by
  induction k generalizing w with
  | zero => cases h; exact image
  | succ k ih =>
    rw [insertMany] at h
    split at h
    · cases h
    · rename_i u hu
      have next := insertNext_next hu
      exact ih (image.of_insertNext (by omega) hu hm hn) (by omega) h (insertNext_keeps hu image.canonical hn).2.2

/-- Level `l_j` of a code in an image, and the key of its slot there (R81 item 3). -/
abbrev codeLevel (trie : Memory NodeWord) (e : CodeEntry) (j : Nat) : Nat := pathLevel trie e.code.toNat e.len.toNat j

abbrev codeKey (e : CodeEntry) (j : Nat) : Nat := pathKey e.code.toNat e.len.toNat j

theorem codeKey_lt (e : CodeEntry) (j : Nat) : codeKey e j < Config.fanout := by
  rw [codeKey, pathKey_eq_windowOf]
  exact windowOf_lt _ _

/-- Up to its last level a code goes on by a whole window. -/
theorem windows_codeKey {e : CodeEntry} {j : Nat} (hj : j < pathDepth e.len.toNat) :
    windows e j ++ keyBits (codeKey e j) = windows e (j + 1) := by
  simp only [pathDepth] at hj
  rw [codeKey, pathKey_eq_windowOf]
  exact windows_succ (by omega) (by omega)

theorem windows_pathDepth_length (e : CodeEntry) : (windows e (pathDepth e.len.toNat)).length = 8 * pathDepth e.len.toNat :=
  windows_length (by simp only [pathDepth]; omega)

theorem pathRest_add (len : Nat) : pathRest len + 8 * pathDepth len = len := by
  simp only [pathRest, pathDepth]
  omega

section Image

variable {t : CodeTable} {w : TbWork} {pos : Nat → List Bool}

theorem Image.fullFill (image : Image t w) {i : Nat} (hi : i < w.next) (code : CodeTable) :
    FullFill { trie := w.trie, code := code } w.n (entryAt t i) i :=
  (image.paths i hi).fullFill (Nat.le_of_lt_succ (lt_of_lt_of_le hi image.entries)) code

/-- Up to its last level a code's path branches to its next level. -/
theorem Image.branch (image : Image t w) {i j : Nat} (hi : i < w.next) (hj : j < pathDepth (entryAt t i).len.toNat) :
    nodeDecode w.n (trieWord w.trie (codeLevel w.trie (entryAt t i) j) (codeKey (entryAt t i) j))
      = .branch (BitVec.ofNat 10 (codeLevel w.trie (entryAt t i) (j + 1))) := (image.fullFill hi []).1 j hj

/-- Level `l_j` of a code stands at its first `j` windows. -/
theorem Image.level (image : Image t w) (shape : Shape t w.next w.trie w.n pos) {i j : Nat} (hi : i < w.next)
    (hj : j ≤ pathDepth (entryAt t i).len.toNat) :
    codeLevel w.trie (entryAt t i) j < w.n ∧ pos (codeLevel w.trie (entryAt t i) j) = windows (entryAt t i) j := by
  induction j with
  | zero => exact ⟨image.root, shape.root⟩
  | succ j ih =>
    obtain ⟨level, position⟩ := ih (Nat.le_of_succ_le hj)
    have node := image.branch hi hj
    have link := (shape.branch level (codeKey_lt _ j) node).1
    rw [position, windows_codeKey hj] at link
    rw [codeLevel, pathLevel_succ node]
    exact ⟨(nodeDecode_branch_iff.1 node).2.2, link⟩

/-- A level at the first windows of a code is the level of the code. -/
theorem Image.eq_level (image : Image t w) (shape : Shape t w.next w.trie w.n pos) {i j l : Nat} (hi : i < w.next)
    (hj : j ≤ pathDepth (entryAt t i).len.toNat) (hl : l < w.n) (position : pos l = windows (entryAt t i) j) :
    l = codeLevel w.trie (entryAt t i) j := by
  obtain ⟨level, position'⟩ := image.level shape hi hj
  exact shape.distinct _ _ hl level (position.trans position'.symm)

/-- In the last level of a code a slot in which the code ends holds its leaf. -/
theorem Image.leaf (image : Image t w) (shape : Shape t w.next w.trie w.n pos) {i l key : Nat} (hi : i < w.next) (hl : l < w.n)
    (hkey : key < Config.fanout) (position : pos l = windows (entryAt t i) (pathDepth (entryAt t i).len.toNat))
    (ends : codeBits (entryAt t i) <+: pos l ++ keyBits key) :
    nodeDecode w.n (trieWord w.trie l key) = .leaf (BitVec.ofNat 9 i) (BitVec.ofNat 4 (pathRest (entryAt t i).len.toNat)) := by
  rw [position, codeBits_prefix_iff_inFillRange (pathRest_add _) (pathRest_le (image.paths i hi).bits_pos).2 hkey] at ends
  rw [image.eq_level shape hi (Nat.le_refl _) hl position]
  exact (image.fullFill hi []).2 key hkey (inFillRange_iff_shift.1 ends).2

/-- The level count of an image is what its codes need (R81 item 5). -/
theorem Image.levels (image : Image t w) : w.n = 1 + (windowPrefixes t w.next).card := by
  obtain ⟨pos, shape⟩ := image.shape
  have positions : (Finset.Ico 1 w.n).image pos = windowPrefixes t w.next := by
    ext p
    simp only [Finset.mem_image, Finset.mem_Ico]
    constructor
    · rintro ⟨l, ⟨h1, hl⟩, rfl⟩
      exact shape.position image.room h1 hl
    · intro hp
      obtain ⟨i, hi, j, hj, rfl⟩ := mem_windowPrefixes.1 hp
      obtain ⟨level, position⟩ := image.level shape hi (j := j + 1) hj
      refine ⟨_, ⟨Nat.pos_of_ne_zero fun root => ?_, level⟩, position⟩
      rw [root, shape.root, ← windows_codeKey hj] at position
      simpa using congrArg List.length position
  have injective : Set.InjOn pos (Finset.Ico 1 w.n) := fun l hl l' hl' =>
    shape.distinct l l' (Finset.mem_Ico.1 hl).2 (Finset.mem_Ico.1 hl').2
  have root := image.root
  rw [← positions, Finset.card_image_of_injOn injective, Nat.card_Ico]
  omega

/-- Of two codes in an image neither begins the other: the longer one would take a slot in which the shorter one ends. -/
theorem Image.prefixFree (image : Image t w) {i j : Nat} (hi : i < w.next) (hj : j < w.next) (ne : i ≠ j) :
    ¬ codeBits (entryAt t i) <+: codeBits (entryAt t j) := by
  intro begins
  obtain ⟨pos, shape⟩ := image.shape
  have entries := image.entries
  have shorter : (entryAt t i).len.toNat ≤ (entryAt t j).len.toNat := by simpa using begins.length_le
  have depth : pathDepth (entryAt t i).len.toNat ≤ pathDepth (entryAt t j).len.toNat := by simp only [pathDepth]; omega
  have sameWindows := eq_windows ((windows_prefix (entryAt t i) _).trans begins) (windows_pathDepth_length _)
  obtain ⟨level, position⟩ := image.level shape hj depth
  have leaf {key : Nat} (hkey : key < Config.fanout) := image.leaf shape hi level hkey (position.trans sameWindows.symm)
  rcases Nat.lt_or_eq_of_le depth with deeper | same
  · have ends : codeBits (entryAt t i) <+: windows (entryAt t j) (pathDepth (entryAt t i).len.toNat + 1) := by
      refine List.prefix_of_prefix_length_le begins (windows_prefix _ _) ?_
      rw [codeBits_length, windows_length (by simp only [pathDepth] at deeper ⊢; omega)]
      simp only [pathDepth]
      omega
    have node := image.branch hj deeper
    rw [leaf (codeKey_lt _ _) (by rwa [position, windows_codeKey deeper])] at node
    cases node
  · obtain ⟨key, hkey, range⟩ := exists_inFillRange (entryAt t j).code.toNat (pathRest_le (image.paths j hj).bits_pos).2
    have ends := (codeBits_prefix_iff_inFillRange (pathRest_add _) (pathRest_le (image.paths j hj).bits_pos).2 hkey).2 range
    rw [← same, ← position] at ends
    have node := image.leaf shape hj level hkey (by rw [position, same]) ends
    rw [leaf hkey (begins.trans ends)] at node
    injection node with sym
    have value := congrArg BitVec.toNat sym
    simp only [BitVec.toNat_ofNat, Config.nsym] at value entries
    omega

/-- A slot that is not EMPTY is one of a code's (R81 item 4). -/
theorem Image.nothingElse (image : Image t w) (whole : w.next = Config.nsym) (code : CodeTable) :
    NothingElse { trie := w.trie, code := code } w.n t := by
  obtain ⟨pos, shape⟩ := image.shape
  intro l key hl hkey used
  have slot := shape.slots l key hl hkey
  cases node : nodeDecode w.n (trieWord w.trie l key) with
  | empty => exact absurd (nodeDecode_empty.1 node) used
  | leaf sym bits =>
    rw [node] at slot
    cases slot with
    | @leaf i hi length ends =>
      rw [List.length_append, keyBits_length] at length
      have length := Nat.add_right_cancel length
      have inside : (pos l).length ≤ (codeBits (entryAt t i)).length := by
        rw [length, codeBits_length]
        exact Nat.le_of_add_left_le (pathRest_add _).le
      have position := eq_windows (List.prefix_of_prefix_length_le (List.prefix_append _ _) ends inside) length
      have level := image.eq_level shape hi (Nat.le_refl _) hl position
      rw [position, codeBits_prefix_iff_inFillRange (pathRest_add _) (pathRest_le (image.paths i hi).bits_pos).2 hkey] at ends
      exact ⟨i, whole ▸ hi, .inr ⟨level, (inFillRange_iff_shift.1 ends).2⟩⟩
  | branch next =>
    rw [node] at slot
    cases slot with
    | branch goesOn link =>
      obtain ⟨i, hi, j, hj, place⟩ := mem_windowPrefixes.1 goesOn
      rw [← windows_codeKey hj] at place
      obtain ⟨position, bits⟩ := List.append_inj' place (by simp)
      exact ⟨i, whole ▸ hi, .inl ⟨j, hj, image.eq_level shape hi hj.le hl position.symm, keyBits_inj hkey (codeKey_lt _ j) bits.symm⟩⟩
  | invalid => exact absurd node (shape.legal hl hkey)

/-- Levels 1 to NLEVELS-1 have a link each, and paths end below the fourth level (R81 item 2). -/
theorem Image.treeShape (image : Image t w) (valid : ValidTable t) (code : CodeTable) : TreeShape { trie := w.trie, code := code } w.n := by
  obtain ⟨pos, shape⟩ := image.shape
  have bound {l key : Nat} {next : BitVec 10} (node : nodeDecode w.n (trieWord w.trie l key) = .branch next) : next.toNat < w.n :=
    (nodeDecode_branch_iff.1 node).2.2
  refine ⟨shape.linked, fun l k l' k' n hl hl' hk hk' node node' => ?unique, fun l k n node => ?notRoot,
    fun k0 k1 k2 k3 n1 n2 n3 n4 hk0 hk1 hk2 hk3 b1 b2 b3 b4 => ?depth⟩
  case unique => exact shape.slot_unique hl hl' hk hk' ((shape.branch hl hk node).1.symm.trans (shape.branch hl' hk' node').1)
  case notRoot =>
    rintro rfl
    exact absurd (nodeDecode_branch_iff.1 node).2.1 (by decide)
  case depth =>
    obtain ⟨p1, _⟩ := shape.branch image.root hk0 b1
    obtain ⟨p2, _⟩ := shape.branch (bound b1) hk1 b2
    obtain ⟨p3, _⟩ := shape.branch (bound b2) hk2 b3
    obtain ⟨p4, passed⟩ := shape.branch (bound b3) hk3 b4
    obtain ⟨i, hi, j, hj, place⟩ := mem_windowPrefixes.1 passed
    have depth := pathDepth_le (valid i (lt_of_lt_of_le hi image.entries))
    have length := congrArg List.length (place.trans p4)
    rw [windows_length (by simp only [pathDepth] at hj; omega), p3, p2, p1, shape.root] at length
    simp only [List.length_append, keyBits_length, List.length_nil] at length
    omega

theorem Image.wfRom (image : Image t w) (whole : w.next = Config.nsym) (valid : ValidTable t) (code : CodeTable) :
    WfRom { trie := w.trie, code := code } w.n t := by
  obtain ⟨_, shape⟩ := image.shape
  exact ⟨fun l k hl hk => shape.legal hl hk, image.treeShape valid code, fun sym hs => image.fullFill (whole ▸ hs) code,
    image.nothingElse whole code⟩

end Image

/-- The image of a successful build. -/
theorem image_of_buildTable {maxLevels : Nat} {t : CodeTable} {w : TbWork} (h : buildTable maxLevels t = .ok w) (h1 : 1 ≤ maxLevels)
    (hm : maxLevels ≤ 1024) : Image t w ∧ w.next = Config.nsym := by
  obtain ⟨_, inserted⟩ := buildTable_ok h
  exact ⟨(image_emptyWork t).of_insertMany (Nat.le_refl _) inserted hm h1, by simpa [emptyWork] using insertMany_next inserted⟩

/-- Settles O49: the image of a successful build holds the paths of the 257 codes and nothing else, its levels at distinct positions. -/
theorem builtImageIsWellFormed : Obligations.BuiltImageIsWellFormed := by
  unfold Obligations.BuiltImageIsWellFormed
  intro s r h hr
  obtain ⟨w, hb, _, _, rom, nlevels⟩ := built_image h
  obtain ⟨h1, hm⟩ := levelsInRange_iff.1 h.1
  obtain ⟨valid, _⟩ := buildTable_ok hb
  obtain ⟨image, whole⟩ := image_of_buildTable hb h1 hm
  have levels : s.nlevels = w.n := by
    have room := image.room
    rw [State.nlevels, nlevels, BitVec.toNat_ofNat]
    omega
  cases hr.symm.trans rom
  rw [levels]
  exact image.wfRom whole valid _

/-! ### Which tables have an image (R79, R81 item 5) -/

/-- An insertion needs at most the levels of its code. -/
theorem newLevels_le (trie : Memory NodeWord) (n code fuel lvl r : Nat) : newLevels trie n code fuel lvl r ≤ pathDepth r := by
  induction fuel generalizing lvl r with
  | zero => exact Nat.zero_le _
  | succ fuel ih =>
    by_cases last : r ≤ 8
    · rw [newLevels_last last]
      exact Nat.zero_le _
    · rw [newLevels, if_neg last]
      cases nodeDecode n (trieWord trie lvl (windowOf code r)) with
      | empty => exact Nat.le_refl _
      | branch next => exact (ih next.toNat (r - 8)).trans (by simp only [pathDepth]; omega)
      | leaf _ _ => exact Nat.zero_le _
      | invalid => exact Nat.zero_le _

/-- The code of `e` neither begins nor continues one of the first `k` codes (R52). -/
def Apart (t : CodeTable) (k : Nat) (e : CodeEntry) : Prop :=
  ∀ i, i < k → ¬ codeBits (entryAt t i) <+: codeBits e ∧ ¬ codeBits e <+: codeBits (entryAt t i)

section Apart

variable {t : CodeTable} {k n : Nat} {trie : Memory NodeWord} {pos : Nat → List Bool} {e : CodeEntry}

/-- A slot in which a code ends that is apart from those of the image is EMPTY. -/
theorem Shape.empty_of_ends (shape : Shape t k trie n pos) (apart : Apart t k e) {l key : Nat} (hl : l < n) (hkey : key < Config.fanout)
    (ends : codeBits e <+: pos l ++ keyBits key) : trieWord trie l key = emptyWord := by
  have slot := shape.slots l key hl hkey
  cases node : nodeDecode n (trieWord trie l key) with
  | empty => exact nodeDecode_empty.1 node
  | leaf sym bits =>
    rw [node] at slot
    cases slot with
    | @leaf i hi _ ends' =>
      obtain ⟨notBefore, notAfter⟩ := apart i hi
      rcases List.prefix_or_prefix_of_prefix ends ends' with begins | begins
      · exact absurd begins notAfter
      · exact absurd begins notBefore
  | branch next =>
    rw [node] at slot
    cases slot with
    | branch goesOn _ =>
      obtain ⟨i, hi, j, _, place⟩ := mem_windowPrefixes.1 goesOn
      exact absurd (ends.trans (place ▸ windows_prefix _ _)) (apart i hi).2
  | invalid => exact absurd node (shape.legal hl hkey)

/-- A slot through which such a code goes on holds no leaf. -/
theorem Shape.no_leaf_of_goesOn (shape : Shape t k trie n pos) (apart : Apart t k e) {l key : Nat} (hl : l < n) (hkey : key < Config.fanout)
    (goesOn : pos l ++ keyBits key <+: codeBits e) (sym : BitVec 9) (bits : BitVec 4) :
    nodeDecode n (trieWord trie l key) ≠ .leaf sym bits := by
  intro node
  have slot := shape.slots l key hl hkey
  rw [node] at slot
  cases slot with
  | @leaf i hi _ ends => exact (apart i hi).1 (ends.trans goesOn)

/-- So it meets no collision. -/
theorem Shape.freePath (shape : Shape t k trie n pos) (apart : Apart t k e) (fuel : Nat) {lvl r j : Nat} (hl : lvl < n)
    (position : pos lvl = windows e j) (left : r + 8 * j = e.len.toNat) (hf : r ≤ 8 * (fuel + 1)) :
    FreePath trie n e.code.toNat fuel lvl r := by
  induction fuel generalizing lvl r j with
  | zero =>
    refine (freePath_last hf).2 fun key range => shape.empty_of_ends apart hl range.1 ?_
    rwa [position, codeBits_prefix_iff_inFillRange left hf range.1]
  | succ fuel ih =>
    by_cases last : r ≤ 8
    · refine (freePath_last last).2 fun key range => shape.empty_of_ends apart hl range.1 ?_
      rwa [position, codeBits_prefix_iff_inFillRange left last range.1]
    · have more : 8 < r := Nat.lt_of_not_le last
      have hkey := windowOf_lt e.code.toNat r
      have further := windows_succ left more.le
      rw [← position] at further
      cases node : nodeDecode n (trieWord trie lvl (windowOf e.code.toNat r)) with
      | empty => exact freePath_empty more node
      | branch next =>
        exact (freePath_branch more node).2 (ih (nodeDecode_branch_iff.1 node).2.2 ((shape.branch hl hkey node).1.trans further)
          (by omega) (by omega))
      | leaf sym bits => exact absurd node (shape.no_leaf_of_goesOn apart hl hkey (further ▸ windows_prefix _ _) sym bits)
      | invalid => exact absurd node (shape.legal hl hkey)

end Apart

theorem apart_of_prefixFree {t : CodeTable} (h : PrefixFree t) {k : Nat} (hk : k < Config.nsym) : Apart t k (entryAt t k) :=
  fun i hi => ⟨h i k (hi.trans hk) hk hi.ne, h k i hk (hi.trans hk) hi.ne'⟩

/-- The first entries need no more levels than the table. -/
theorem Image.levels_le (t : CodeTable) {w : TbWork} (image : Image t w) : w.n ≤ levelsNeeded t := by
  rw [image.levels, levelsNeeded, levelPrefixes_eq]
  exact Nat.add_le_add_left (Finset.card_le_card (windowPrefixes_mono image.entries)) 1

/-- The next entry of a well formed table can be inserted where MAX_LEVELS is enough for the table. -/
theorem Image.exists_insertNext {maxLevels : Nat} {t : CodeTable} {w : TbWork} (image : Image t w) (table : WellFormedTable t)
    (room : levelsNeeded t ≤ maxLevels) (hm : maxLevels ≤ 1024) (hs : w.next < Config.nsym) :
    ∃ w', insertNext maxLevels (entryAt t w.next).len.toNat (entryAt t w.next).code.toNat w = .ok w' ∧ Image t w' := by
  obtain ⟨valid, prefixFree⟩ := table
  obtain ⟨pos, shape⟩ := image.shape
  have entry := valid _ hs
  have fields := checkFields_none.2 entry
  have fits := image.levels_le.trans room
  have free : (w.start (entryAt t w.next).len.toNat).Free (entryAt t w.next).code.toNat Config.maxDepth := by
    refine shape.freePath (apart_of_prefixFree prefixFree hs) _ image.root (j := 0) shape.root rfl ?_
    exact entry.2.1.trans (by decide)
  have levels := image.levels
  have card := card_windowPrefixes_le valid image.entries
  have new := (newLevels_le w.trie w.n (entryAt t w.next).code.toNat Config.maxDepth 0 (entryAt t w.next).len.toNat).trans (pathDepth_le entry)
  have enough : (w.start (entryAt t w.next).len.toNat).levels (entryAt t w.next).code.toNat Config.maxDepth ≤ maxLevels := by
    obtain ⟨u, hu, levels'⟩ := (insertNext_ends fields (Nat.le_refl 1024) image.canonical image.root image.room).inserts free
      (by simp only [Config.nsym, Descent.levels, TbWork.start] at hs ⊢; omega)
    exact levels' ▸ (image.of_insertNext hs hu (Nat.le_refl 1024) image.room).levels_le.trans room
  obtain ⟨w', h, _⟩ := (insertNext_ends fields hm image.canonical image.root fits).inserts free enough
  exact ⟨w', h, image.of_insertNext hs h hm fits⟩

theorem Image.exists_insertMany {maxLevels : Nat} {t : CodeTable} (table : WellFormedTable t) (room : levelsNeeded t ≤ maxLevels)
    (hm : maxLevels ≤ 1024) (k : Nat) {w : TbWork} (image : Image t w) (hs : w.next + k ≤ Config.nsym) :
    ∃ w', insertMany maxLevels t k w = .ok w' := by
  induction k generalizing w with
  | zero => exact ⟨w, rfl⟩
  | succ k ih =>
    obtain ⟨u, hu, image'⟩ := image.exists_insertNext table room hm (by omega)
    rw [insertMany, hu]
    exact ih image' (by rw [insertNext_next hu]; omega)

theorem levelsNeeded_of_buildTable {maxLevels : Nat} {t : CodeTable} {w : TbWork} (h : buildTable maxLevels t = .ok w) (h1 : 1 ≤ maxLevels)
    (hm : maxLevels ≤ 1024) : w.n = levelsNeeded t := by
  obtain ⟨image, whole⟩ := image_of_buildTable h h1 hm
  rw [image.levels, whole, levelsNeeded, levelPrefixes_eq]

/-- A build succeeds exactly on the well formed tables that need at most MAX_LEVELS levels. -/
theorem buildTable_ok_iff {maxLevels : Nat} {t : CodeTable} (h1 : 1 ≤ maxLevels) (hm : maxLevels ≤ 1024) :
    (WellFormedTable t ∧ levelsNeeded t ≤ maxLevels) ↔ ∃ w, buildTable maxLevels t = .ok w := by
  constructor
  · rintro ⟨table, room⟩
    rw [buildTable, validateTable_none.2 table.1]
    exact Image.exists_insertMany table room hm _ (image_emptyWork t) (Nat.le_refl _)
  · rintro ⟨w, h⟩
    obtain ⟨valid, inserted⟩ := buildTable_ok h
    obtain ⟨image, whole⟩ := image_of_buildTable h h1 hm
    refine ⟨⟨valid, fun i j hi hj ne => image.prefixFree (whole ▸ hi) (whole ▸ hj) ne⟩, ?_⟩
    rw [← levelsNeeded_of_buildTable h h1 hm]
    exact (insertMany_emptyWork_keeps h1 inserted).2.2

theorem recordBuild_ok_iff {s : State} {e : Except (BuildCause × Nat) TbWork} : (recordBuild s e).tb.ok = true ↔ ∃ w, e = .ok w := by
  cases e with
  | ok w => exact ⟨fun _ => ⟨w, rfl⟩, fun _ => rfl⟩
  | error _ => exact ⟨nofun, nofun⟩

/-- Settles O50: a code that is apart from those of an image meets no collision there, codes of which one begins another have no image, and an image
has exactly the levels that its codes need. -/
theorem buildSucceedsExactlyOnPrefixCodes : Obligations.BuildSucceedsExactlyOnPrefixCodes := by
  unfold Obligations.BuildSucceedsExactlyOnPrefixCodes
  refine ⟨fun s hf hl => ⟨?succeeds, fun t ht ok => ?levels⟩, fun table wf => ?bound⟩
  case succeeds =>
    obtain ⟨h1, hm⟩ := levelsInRange_iff.1 hl
    rw [buildTable_ok_iff h1 hm, ← recordBuild_ok_iff]
    constructor
    · exact fun ok => ⟨_, execTbBuild_fresh hf hl, ok⟩
    · rintro ⟨t, ht, ok⟩
      cases (execTbBuild_fresh hf hl).symm.trans ht
      exact ok
  case levels =>
    obtain ⟨h1, hm⟩ := levelsInRange_iff.1 hl
    cases (execTbBuild_fresh hf hl).symm.trans ht
    obtain ⟨w, h⟩ := recordBuild_ok_iff.1 ok
    rw [h, ← levelsNeeded_of_buildTable h h1 hm]
    exact nlevels_buildSuccess hl (insertMany_emptyWork_keeps h1 (buildTable_ok h).2).2.2
  case bound =>
    have card := card_windowPrefixes_le wf.1 (Nat.le_refl Config.nsym)
    rw [levelsNeeded, levelPrefixes_eq]
    simp only [Config.nsym] at card ⊢
    omega

end Sys2Proof.Machine

/-! Proofs of the statements on the decoder's steps and their run (spec/41_decoder.md R85 to R97). -/

namespace Sys2Proof.Machine

open Sys2Proof.Safety

/-! ### Node words (R90 to R95) -/

/-- A node word runs where a codec exists and a real bit is left. -/
theorem runNode_next {s : State} {r : Rom} (hr : s.tb.rom = some r) (h0 : s.dec.rem ≠ 0) (node : Node) :
    runNode node s = .next (nodeEffect node s) := by
  rw [runNode, withRom_some hr, if_neg h0]

theorem runNode_noRealBit {s : State} {r : Rom} (hr : s.tb.rom = some r) (h0 : s.dec.rem = 0) (node : Node) :
    runNode node s = .refused .stepNotSelected := by
  rw [runNode, withRom_some hr, if_pos h0]

/-- DEC.STEP runs the node at the walk position. -/
theorem execDecStep_runNode {s : State} {r : Rom} {node : Node} (hr : s.tb.rom = some r) (h0 : s.dec.rem ≠ 0) (hl : s.dec.lvl < s.nlevels)
    (h : nodeAt r s = node) : execDecStep s = runNode node s := by
  rw [execDecStep_nodeEffect hr h0 hl, runNode_next hr h0, h]

/-- A node that falls to the tail is judged as one when less than a window is left. -/
theorem nodeEffect_of_fallsToTail {s : State} {node : Node} (falls : fallsToTail node s.dec.rem = true) (short : s.dec.rem < 8) :
    nodeEffect node s = tailEffect s := by
  cases node with
  | invalid => cases falls
  | leaf sym bits => rw [nodeEffect, if_neg (Nat.not_le.2 (of_decide_eq_true falls))]
  | branch next => rw [nodeEffect, if_neg (Nat.not_le.2 short)]
  | empty => rw [nodeEffect, if_pos short]

theorem tailEffect_eq_judgedAsTail (s : State) : tailEffect s = judgedAsTail s := by
  have key : window s.ibuf s.dec.len s.dec.cur = s.key := rfl
  rcases tailEffect_cases s with ⟨root, ones, h⟩ | ⟨below, h⟩ | ⟨root, other, h⟩
  · simp [h, judgedAsTail, decodeSuccess, key, root, ones]
  · simp [h, judgedAsTail, decodeFailure, below]
  · simp [h, judgedAsTail, decodeFailure, key, root, other]

theorem runNode_tail {s : State} {r : Rom} {node : Node} (hr : s.tb.rom = some r) (h1 : 1 ≤ s.dec.rem) (h7 : s.dec.rem ≤ 7)
    (falls : fallsToTail node s.dec.rem = true) : runNode node s = .next (judgedAsTail s) := by
  rw [runNode_next hr (Nat.ne_of_gt h1), nodeEffect_of_fallsToTail falls (Nat.lt_succ_of_le h7), tailEffect_eq_judgedAsTail]

theorem leaf_fallsToTail {sym : BitVec 9} {bits : BitVec 4} {rem : Nat} (h : rem < bits.toNat) : fallsToTail (.leaf sym bits) rem = true :=
  decide_eq_true h

theorem branch_fallsToTail {next : BitVec 10} {rem : Nat} (h : rem ≤ 7) : fallsToTail (.branch next) rem = true :=
  decide_eq_true (Nat.lt_succ_of_le h)

/-- Settles O16: the leaf is emitted, its bits being real and its symbol a byte. -/
theorem leafEmitsItsByte : Obligations.LeafEmitsItsByte := by
  unfold Obligations.LeafEmitsItsByte
  intro s r sym bits hr byte pos real
  have notEos : ¬ sym.toNat = Config.eos := by simp only [Config.eos]; omega
  have emitted : leafByte sym = BitVec.ofNat 8 sym.toNat := by
    rw [← leafByte_ofNat, BitVec.ofNat_toNat, BitVec.setWidth_eq]
  show runNode _ s = _
  rw [runNode_next hr (by omega), nodeEffect, if_pos real, if_neg notEos, leafEffect, emitted]
  rfl

/-- Settles O17: the EOS leaf raises its failure or falls to the tail, as its bits are real or not. -/
theorem eosLeafFails : Obligations.EosLeafFails := by
  unfold Obligations.EosLeafFails
  intro s r bits hr
  refine ⟨fun pos real => ?_, fun h1 h7 short => runNode_tail hr h1 h7 (leaf_fallsToTail short)⟩
  show runNode _ s = _
  rw [runNode_next hr (by omega), nodeEffect, if_pos real, if_pos eos_ofNat_toNat]
  rfl

/-- Settles O18: the branch is taken or falls to the tail, as a window is left or not. -/
theorem branchDescends : Obligations.BranchDescends := by
  unfold Obligations.BranchDescends
  intro s r next hr
  refine ⟨fun room => ?_, fun h1 h7 => runNode_tail hr h1 h7 (branch_fallsToTail h7)⟩
  show runNode _ s = _
  rw [runNode_next hr (by omega), nodeEffect, if_pos room]
  rfl

/-- Settles O19: EMPTY raises its failure or falls to the tail, as a window is left or not. -/
theorem emptyNodeFails : Obligations.EmptyNodeFails := by
  unfold Obligations.EmptyNodeFails
  intro s r hr
  refine ⟨fun room => ?_, fun h1 h7 => runNode_tail hr h1 h7 rfl⟩
  show runNode _ s = _
  rw [runNode_next hr (by omega), nodeEffect, if_neg (Nat.not_lt.2 room)]
  rfl

/-- Settles O20: an Invalid word runs before any test of the real bits. -/
theorem invalidNodeFails : Obligations.InvalidNodeFails := by
  unfold Obligations.InvalidNodeFails
  exact fun s r w hr h1 => runNode_next hr (Nat.ne_of_gt h1) .invalid

/-- Settles O22: each of the words falls to the tail, whose effect is the judgement. -/
theorem wordsWithoutRealBitsAreTails : Obligations.WordsWithoutRealBitsAreTails := by
  unfold Obligations.WordsWithoutRealBitsAreTails
  intro s r hr h1 h7
  exact ⟨fun _ => runNode_tail hr h1 h7 (branch_fallsToTail h7), runNode_tail hr h1 h7 rfl,
    fun _ _ short => runNode_tail hr h1 h7 (leaf_fallsToTail short), fun _ short => runNode_tail hr h1 h7 (leaf_fallsToTail short), rfl⟩

/-! ### DEC.END and DEC.TAIL (R89, R93) -/

theorem execDecStep_endEffect {s : State} {r : Rom} (hr : s.tb.rom = some r) (h0 : s.dec.rem = 0) : execDecStep s = .next (endEffect s) := by
  rw [execDecStep, withRom_some hr, if_pos h0]

/-- Settles O15: DEC.END is what DEC.STEP does with no real bit left. -/
theorem decEndJudgesTheLevel : Obligations.DecEndJudgesTheLevel := by
  unfold Obligations.DecEndJudgesTheLevel
  intro s r hr h0
  have ends : exec .decEnd s = .next (endEffect s) := (execDecStep_end hr h0).symm.trans (execDecStep_endEffect hr h0)
  refine ⟨fun root => ?_, fun below => ?_⟩
  · rw [ends, endEffect, if_pos root]; rfl
  · rw [ends, endEffect, if_neg below]; rfl

/-- DEC.TAIL with 1 to 7 real bits left fetches the node, and runs when it falls to the tail. -/
theorem execDecTail_short {s : State} {r : Rom} (hr : s.tb.rom = some r) (h1 : 1 ≤ s.dec.rem) (h7 : s.dec.rem ≤ 7) :
    execDecTail s = withNode r s fun node => if fallsToTail node s.dec.rem then .next (tailEffect s) else .refused .stepNotSelected := by
  rw [execDecTail, withRom_some hr, if_pos ⟨h1, h7⟩]

theorem execDecTail_node {s : State} {r : Rom} (hr : s.tb.rom = some r) (h1 : 1 ≤ s.dec.rem) (h7 : s.dec.rem ≤ 7) (hl : s.dec.lvl < s.nlevels) :
    execDecTail s = if fallsToTail (nodeAt r s) s.dec.rem then .next (tailEffect s) else .refused .stepNotSelected := by
  rw [execDecTail_short hr h1 h7, withNode, if_pos hl]

theorem execDecTail_notShort {s : State} {r : Rom} (hr : s.tb.rom = some r) (h : s.dec.rem = 0 ∨ 8 ≤ s.dec.rem) :
    execDecTail s = .refused .stepNotSelected := by
  rw [execDecTail, withRom_some hr, if_neg (by omega)]

/-- With less than a window left a node falls to the tail unless it is Invalid or a leaf whose bits are all real. -/
theorem fallsToTail_of_short {node : Node} {rem : Nat} (short : rem ≤ 7) (valid : node ≠ .invalid)
    (noLeaf : ∀ sym bits, node = .leaf sym bits → rem < bits.toNat) : fallsToTail node rem = true := by
  cases node with
  | invalid => exact absurd rfl valid
  | leaf sym bits => exact leaf_fallsToTail (noLeaf sym bits rfl)
  | branch next => exact branch_fallsToTail short
  | empty => rfl

/-- Settles O21: the node falls to the tail, and the key is `0xFF` exactly when the real bits, which fit the window, are all 1. -/
theorem tailJudgesThePadding : Obligations.TailJudgesThePadding := by
  unfold Obligations.TailJudgesThePadding
  intro s r hr h1 h7 hl valid noLeaf
  have tail : exec .decTail s = .next (tailEffect s) := by
    show execDecTail s = _
    rw [execDecTail_node hr h1 h7 hl, if_pos (fallsToTail_of_short h7 valid noLeaf)]
  have padding : s.key = 0xFF ↔ ∀ p, s.dec.cur ≤ p → p < s.dec.cur + 8 → p < 8 * s.dec.len → streamBit s.ibuf s.dec.len p = true :=
    window_eq_ones_iff _ _ _
  rw [tail, tailEffect]
  refine ⟨fun root ones => ?_, fun below => ?_, fun p root hp real zero => ?_⟩
  · rw [if_pos ⟨root, padding.2 fun p hp _ real => ones p hp real⟩]; rfl
  · rw [if_neg (fun h => below h.1), if_pos below]; rfl
  · have other : s.key ≠ 0xFF := fun ones => by
      have one := padding.1 ones p hp (by simp only [Dec.rem] at h7; omega) real
      rw [zero] at one
      cases one
    rw [if_neg (fun h => other h.2), if_neg (not_not.2 root)]; rfl

/-! ### DEC.STEP (R88) -/

/-- Settles O23: each clause is the node at the walk position, run as its word or, where it falls to the tail, by DEC.TAIL. -/
theorem decStepTakesTheFirstTest : Obligations.DecStepTakesTheFirstTest := by
  unfold Obligations.DecStepTakesTheFirstTest
  intro s r hr hl rem word
  have run {node : Node} (h0 : s.dec.rem ≠ 0) (h : nodeDecode s.nlevels word = node) : execDecStep s = runNode node s :=
    execDecStep_runNode hr h0 hl h
  have tail {node : Node} (h0 : s.dec.rem ≠ 0) (h : nodeDecode s.nlevels word = node) (short : s.dec.rem < 8)
      (falls : fallsToTail node s.dec.rem = true) : execDecStep s = execDecTail s := by
    have node' : nodeAt r s = node := h
    rw [run h0 h, runNode_next hr h0, nodeEffect_of_fallsToTail falls short,
      execDecTail_node hr (Nat.pos_of_ne_zero h0) (Nat.le_of_lt_succ short) hl, node', if_pos falls]
  refine ⟨?atEnd, ?invalid, ?eosLeaf, ?leaf, ?branch, ?shortLeaf, ?shortBranch, ?shortEmpty, ?empty, execDecStep_total hr (.inr hl)⟩
  case atEnd => exact execDecStep_end hr
  case invalid => exact run
  case eosLeaf =>
    intro sym bits h0 h _ eos
    have : sym = BitVec.ofNat 9 Config.eos := BitVec.eq_of_toNat_eq eos
    exact run h0 (this ▸ h)
  case leaf => exact fun sym bits h0 h _ _ => run h0 h
  case branch => exact fun next h0 h _ => run h0 h
  case shortLeaf =>
    intro sym bits h0 h short
    obtain ⟨_, _, _, _, _, window⟩ := nodeDecode_leaf h
    exact tail h0 h (Nat.lt_of_lt_of_le short window) (leaf_fallsToTail short)
  case shortBranch => exact fun next h0 h short => tail h0 h short (branch_fallsToTail (Nat.le_of_lt_succ short))
  case shortEmpty => exact fun h0 h short => tail h0 h short rfl
  case empty => exact fun h room => run (Nat.ne_of_gt (Nat.lt_of_lt_of_le (by decide) room)) h

/-! ### Steps out of turn (log 11 to 14) -/

theorem execSCode_notStanding {s : State} {r : Rom} {sym : BitVec 9} (hr : s.tb.rom = some r)
    (h : s.dec.busy = false ∨ s.dec.lvl ≠ 0 ∨ codeStands s.table s sym.toNat = false) : execSCode sym s = .refused .stepNotSelected := by
  rw [execSCode, withRom_some hr, if_neg]
  rintro ⟨busy, root, _, stands⟩
  rcases h with h | h | h
  · rw [busy] at h; cases h
  · exact h root
  · rw [stands] at h; cases h

/-- Settles O14: each stop is the branch of its meaning that the hypothesis selects. -/
theorem stepsOutOfTurnStopByName : Obligations.StepsOutOfTurnStopByName := by
  unfold Obligations.StepsOutOfTurnStopByName
  refine ⟨?noInstance, ?noRealBit, ?realBits, ?wholeWindow, ?noLevel, ?tail, ?noLiteral, ?literal, ?noCode, ?noBuild, ?lastEntry⟩
  case noInstance =>
    intro s hr
    have refused (f : Rom → Result) : withRom s f = .refused .noInstance := withRom_none hr f
    exact ⟨refused _, refused _, refused _, refused _, refused _, refused _, refused _, fun _ => refused _, fun _ => refused _,
      fun _ => refused _, fun _ _ => refused _, fun _ => refused _, fun _ => refused _⟩
  case noRealBit =>
    intro s r hr h0
    have refused (node : Node) : runNode node s = .refused .stepNotSelected := runNode_noRealBit hr h0 node
    exact ⟨execDecTail_notShort hr (.inl h0), refused _, fun _ => refused _, fun _ _ => refused _, fun _ => refused _, fun _ => refused _⟩
  case realBits =>
    intro s r hr h0
    show execDecEnd s = _
    rw [execDecEnd, withRom_some hr, if_neg h0]
  case wholeWindow => exact fun s r hr room => execDecTail_notShort hr (.inr room)
  case noLevel =>
    intro s r hr h0 hl
    show execDecStep s = _
    rw [execDecStep, withRom_some hr, if_neg h0, withNode, if_neg (Nat.not_lt.2 hl)]
  case tail =>
    intro s r hr h1 h7
    show (_ → execDecTail s = _) ∧ (_ → _ → execDecTail s = _) ∧ ∀ sym bits, _ → _ → _ → execDecTail s = _
    refine ⟨fun hl => ?_, fun hl invalid => ?_, fun sym bits hl leaf real => ?_⟩
    · rw [execDecTail_short hr h1 h7, withNode, if_neg (Nat.not_lt.2 hl)]
    · rw [execDecTail_node hr h1 h7 hl, invalid]; rfl
    · rw [execDecTail_node hr h1 h7 hl, leaf, fallsToTail, decide_eq_false (Nat.not_lt.2 real)]; rfl
  case noLiteral =>
    intro s r b hr h
    show execEncSym b s = _
    rw [execEncSym, withRom_some hr, if_neg (Nat.not_lt.2 h)]
  case literal =>
    intro s r hr h
    show execEncFlush s = _
    rw [execEncFlush, withRom_some hr, if_pos h]
  case noCode => exact fun s r sym hr h => execSCode_notStanding hr h
  case noBuild =>
    intro s len code hw
    show execTbInsert len code s = _
    simp only [execTbInsert, hw]
  case lastEntry =>
    intro s w len code hw h
    show execTbInsert len code s = _
    simp only [execTbInsert, hw, if_neg (Nat.not_lt.2 h)]

/-! ### The start of a DECODE (R85, R87, R128) -/

/-- A command for an idle decoder runs once a codec exists (R166 (a)). -/
theorem decoderCommand_idle {s : State} {r : Rom} (hr : s.tb.rom = some r) (hb : s.dec.busy = false) (op : BitVec 3)
    (f : State → State) : decoderCommand op s f = .next (f (s.setCmd op)) := by
  rw [decoderCommand, withRom_some hr, if_pos (decIdle_iff.2 hb)]

/-- Settles O7: DEC.START only needs a codec. -/
theorem decStartWritesTheWalkRegisters : Obligations.DecStartWritesTheWalkRegisters := by
  unfold Obligations.DecStartWritesTheWalkRegisters
  exact fun s r hr => withRom_some hr _

/-- Settles O8: the command runs on the idle decoder. -/
theorem decodeCommandStartsTheWalk : Obligations.DecodeCommandStartsTheWalk := by
  unfold Obligations.DecodeCommandStartsTheWalk
  exact fun s r hr hb => decoderCommand_idle hr hb _ _

/-- Settles O30: the walk starts at the root with no real bit, where DEC.END succeeds. -/
theorem emptyInputDecodesToNothing : Obligations.EmptyInputDecodesToNothing := by
  unfold Obligations.EmptyInputDecodesToNothing
  intro s r hr hb h0
  refine ⟨startDecode (s.setCmd 1#3), decoderCommand_idle hr hb _ _, ?_⟩
  have rom : (startDecode (s.setCmd 1#3)).tb.rom = some r := hr
  have noBit : (startDecode (s.setCmd 1#3)).dec.rem = 0 := by simp [startDecode, Dec.rem, h0]
  have root : (startDecode (s.setCmd 1#3)).dec.lvl = 0 := rfl
  show execDecStep _ = _
  rw [execDecStep_endEffect rom noBit, endEffect, if_pos root, decodeSuccess, startDecode, setCmd_regs, h0]
  rfl

/-! ### The run of a DECODE (R85, R97) -/

/-- The walk has ended its operation. -/
def State.DecodeEnded (u : State) : Prop := u.dec.busy = false ∧ u.dec.done = true

theorem endEffect_ended (s : State) : (endEffect s).DecodeEnded := by
  rcases endEffect_cases s with ⟨_, h⟩ | ⟨_, h⟩ <;> exact h ▸ ⟨rfl, rfl⟩

theorem tailEffect_ended (s : State) : (tailEffect s).DecodeEnded := by
  rcases tailEffect_cases s with ⟨_, _, h⟩ | ⟨_, h⟩ | ⟨_, _, h⟩ <;> exact h ▸ ⟨rfl, rfl⟩

/-- A run of DEC.STEP of more steps than there are real bits left ends, with the cursor inside the buffer. -/
theorem decodeRun_ends {k : Nat} {s : State} {r : Rom} (hr : s.tb.rom = some r) (hw : OnWalk s) (hb : s.dec.busy = true) (hk : s.dec.rem < k) :
    ∃ u, decodeRun k s = .next u ∧ u.DecodeEnded ∧ u.dec.cur ≤ 8 * s.dec.len := by
  induction k generalizing s with
  | zero => omega
  | succ k ih =>
    obtain ⟨u, step, ⟨idle, done, cur⟩ | ⟨busy, further, len, hw'⟩⟩ := execDecStep_onWalk hr hw hb
    · refine ⟨u, ?_, ⟨idle, done⟩, cur ▸ hw.2⟩
      rw [decodeRun_succ step, idle]; rfl
    · have rom : u.tb.rom = some r := by rw [execDecStep_writes step, hr]
      have closer : u.dec.rem < k := by
        have inside := hw'.2
        simp only [Dec.rem, len] at hk inside ⊢
        omega
      obtain ⟨v, run, ends⟩ := ih rom hw' busy closer
      refine ⟨v, ?_, len ▸ ends⟩
      rw [decodeRun_succ step, if_pos busy, run]

/-- Settles O28: a walk inside the image and the buffer advances by each step that goes on, and the real bits bound the steps. -/
theorem decodeTerminates : Obligations.DecodeTerminates := by
  unfold Obligations.DecodeTerminates
  refine ⟨fun s r hr hn => ?ends, fun s t inside step goesOn busy => ?advances⟩
  case ends =>
    obtain ⟨u, run, ⟨idle, done⟩, cur⟩ := decodeRun_ends (s := startDecode s) (k := 8 * s.regs.argLen + 1) hr ⟨hn, Nat.zero_le _⟩ rfl
      (Nat.lt_succ_self _)
    exact ⟨u, run, idle, done, cur⟩
  case advances =>
    obtain ⟨r, hr, ⟨_, rfl⟩ | ⟨_, hl, _⟩⟩ := execDecStep_next step
    · rw [(endEffect_ended s).1] at goesOn
      cases goesOn
    · obtain ⟨u, step', ⟨idle, _⟩ | ⟨_, further, len, _, inside'⟩⟩ := execDecStep_onWalk hr ⟨hl, inside⟩ busy
      · cases step.symm.trans step'
        rw [idle] at goesOn
        cases goesOn
      · cases step.symm.trans step'
        exact ⟨further, len ▸ inside'⟩

/-- Settles O29: by induction on the run: a step of the machine in a DECODE is DEC.STEP, which schedules nothing. -/
theorem machineRunsDecode : Obligations.MachineRunsDecode := by
  unfold Obligations.MachineRunsDecode
  intro k
  induction k with
  | zero => exact fun s t _ _ run => ⟨0, Nat.le_refl 0, run⟩
  | succ k ih =>
    intro s t turns busy run
    obtain ⟨u, first, _⟩ := decodeRun_succ_next run
    have machine : step s = .next u := (step_decoding turns busy).trans first
    rw [decodeRun_succ first] at run
    split at run
    · rename_i goesOn
      have turns' : u.turns = [] := by rw [execDecStep_writes first, turns]
      obtain ⟨n, hn, rest⟩ := ih u t turns' goesOn run
      exact ⟨n + 1, Nat.succ_le_succ hn, (core_run_succ machine n).trans rest⟩
    · cases run
      exact ⟨1, Nat.succ_le_succ (Nat.zero_le k), (core_run_succ machine 0).trans (core_run_zero t)⟩

/-! ### The window as a byte pair (R86) -/

/-- Byte `a` of the buffer, `0xFF` past its end. -/
def byteOrOnes (ibuf : Memory Byte) (len a : Nat) : Nat := if a < len then (readByte ibuf a).toNat else 0xFF

theorem byteOrOnes_lt (ibuf : Memory Byte) (len a : Nat) : byteOrOnes ibuf len a < 2 ^ 8 := by
  rw [byteOrOnes]
  split
  · exact (readByte ibuf a).isLt
  · decide

theorem testBit_allOnes {j : Nat} (h : j < 8) : Nat.testBit 0xFF j = true := by
  rw [show 0xFF = 2 ^ 8 - 1 from rfl, Nat.testBit_two_pow_sub_one]
  exact decide_eq_true h

/-- A stream bit is a bit of its byte, at and past the end too. -/
theorem streamBit_eq_testBit (ibuf : Memory Byte) (len p : Nat) : streamBit ibuf len p = (byteOrOnes ibuf len (p / 8)).testBit (7 - p % 8) := by
  rw [streamBit, byteOrOnes]
  by_cases real : p < 8 * len
  · rw [if_pos real, if_pos (by omega)]; rfl
  · rw [if_neg real, if_neg (by omega), testBit_allOnes (by omega)]

/-- The bits of a byte pair. -/
theorem testBit_bytePair {hi lo : Nat} (h : lo < 2 ^ 8) (i : Nat) :
    ((hi <<< 8) ||| lo).testBit i = if i < 8 then lo.testBit i else hi.testBit (i - 8) := by
  rw [← Nat.shiftLeft_add_eq_or_of_lt h, Nat.shiftLeft_eq, Nat.mul_comm, Nat.testBit_two_pow_mul_add _ h]

theorem window_eq_bytePair (ibuf : Memory Byte) (len cur : Nat) :
    window ibuf len cur =
      (((byteOrOnes ibuf len (cur / 8) <<< 8) ||| byteOrOnes ibuf len (cur / 8 + 1)) >>> (8 - cur % 8)) &&& 0xFF := by
  refine window_eq_of_bits (Nat.lt_succ_of_le Nat.and_le_right) fun j hj => ?_
  rw [streamBit_eq_testBit, Nat.testBit_and, testBit_allOnes (by omega), Bool.and_true, Nat.testBit_shiftRight,
    testBit_bytePair (byteOrOnes_lt _ _ _)]
  by_cases first : cur % 8 + j < 8
  · rw [if_neg (by omega), show (cur + j) / 8 = cur / 8 by omega]
    congr 1
    omega
  · rw [if_pos (by omega), show (cur + j) / 8 = cur / 8 + 1 by omega]
    congr 1
    omega

/-- A stream bit as R86 writes it. -/
theorem streamBit_toNat (ibuf : Memory Byte) (len p : Nat) :
    (streamBit ibuf len p).toNat = if p < 8 * len then ((readByte ibuf (p / 8)).toNat >>> (7 - p % 8)) &&& 1 else 1 := by
  rw [streamBit]
  split
  · rw [BitVec.getLsbD, Nat.testBit_eq_decide_div_mod_eq, Nat.and_one_is_mod, Nat.shiftRight_eq_div_pow]
    rcases Nat.mod_two_eq_zero_or_one ((readByte ibuf (p / 8)).toNat / 2 ^ (7 - p % 8)) with h | h <;> simp [h]
  · rfl

theorem streamValue_eq_sum (ibuf : Memory Byte) (len cur k : Nat) :
    streamValue ibuf len cur k = ((List.range k).map fun j => (streamBit ibuf len (cur + j)).toNat <<< (k - 1 - j)).sum := by
  induction k with
  | zero => rfl
  | succ k ih =>
    have doubled : (List.range k).map (fun j => (streamBit ibuf len (cur + j)).toNat <<< (k + 1 - 1 - j))
        = (List.range k).map fun j => 2 * ((streamBit ibuf len (cur + j)).toNat <<< (k - 1 - j)) := by
      refine List.map_congr_left fun j hj => ?_
      have := List.mem_range.1 hj
      rw [show k + 1 - 1 - j = k - 1 - j + 1 by omega, Nat.shiftLeft_succ]
    rw [streamValue, ih, List.range_succ, List.map_append, List.sum_append, doubled, List.sum_map_mul_left]
    simp

/-- Settles O25: the byte pair and the sum have the bits of the window, bit by bit. -/
theorem windowIsTheShiftedBytePair : Obligations.WindowIsTheShiftedBytePair := by
  unfold Obligations.WindowIsTheShiftedBytePair
  intro ibuf len cur _ a o b0 b1 bit
  have bitOf (p : Nat) : bit p = (streamBit ibuf len p).toNat := (streamBit_toNat ibuf len p).symm
  refine ⟨?_, window_eq_bytePair ibuf len cur, ?_, fun atEnd => ?_⟩
  · simp only [bitOf]
    exact streamValue_eq_sum ibuf len cur 8
  · simp only [bitOf, Bool.toNat_eq_one]
    exact window_eq_ones_iff ibuf len cur
  · exact (window_eq_ones_iff ibuf len cur).2 fun p _ _ _ => by omega

end Sys2Proof.Machine

/-! Proof of the statement on what a DECODE computes (spec/41_decoder.md R98): on a well formed image each DEC.STEP is a stage of the greedy parse. -/

namespace Sys2Proof.Machine

open Sys2Proof.Safety

/-! ### Where the levels of a well formed image stand (R81) -/

section WfRom

variable {r : Rom} {n : Nat} {t : CodeTable}

/-- Up to its last level a code's path branches to its next level. -/
theorem wfRom_branch (wf : WfRom r n t) {i j : Nat} (hi : i < Config.nsym) (hj : j < pathDepth (entryAt t i).len.toNat) :
    nodeIn r n (codeLevel r.trie (entryAt t i) j) (codeKey (entryAt t i) j) = .branch (BitVec.ofNat 10 (codeLevel r.trie (entryAt t i) (j + 1))) := by
  obtain ⟨_, _, fill, _⟩ := wf
  exact (fill i hi).1 j hj

/-- In its last level a code's leaf is at every key of its fill range. -/
theorem wfRom_leaf (wf : WfRom r n t) {i key : Nat} (hi : i < Config.nsym)
    (range : inFillRange (entryAt t i).code.toNat (pathRest (entryAt t i).len.toNat) key) :
    nodeIn r n (codeLevel r.trie (entryAt t i) (pathDepth (entryAt t i).len.toNat)) key
      = .leaf (BitVec.ofNat 9 i) (BitVec.ofNat 4 (pathRest (entryAt t i).len.toNat)) := by
  obtain ⟨_, _, fill, _⟩ := wf
  exact (fill i hi).2 key range.1 (inFillRange_iff_shift.1 range).2

/-- A slot that is not EMPTY is a branch or a leaf of some code. -/
theorem wfRom_slot (wf : WfRom r n t) {l key : Nat} (hl : l < n) (hkey : key < Config.fanout) (used : nodeIn r n l key ≠ .empty) :
    ∃ i, i < Config.nsym ∧
      ((∃ j, j < pathDepth (entryAt t i).len.toNat ∧ l = codeLevel r.trie (entryAt t i) j ∧ key = codeKey (entryAt t i) j) ∨
       (l = codeLevel r.trie (entryAt t i) (pathDepth (entryAt t i).len.toNat) ∧
        inFillRange (entryAt t i).code.toNat (pathRest (entryAt t i).len.toNat) key)) := by
  obtain ⟨_, _, _, nothingElse⟩ := wf
  obtain ⟨i, hi, named⟩ := nothingElse l key hl hkey (mt nodeDecode_empty.2 used)
  exact ⟨i, hi, named.imp_right fun ⟨level, range⟩ => ⟨level, inFillRange_iff_shift.2 ⟨hkey, range⟩⟩⟩

theorem wfRom_codeLevel_succ (wf : WfRom r n t) {i j : Nat} (hi : i < Config.nsym) (hj : j < pathDepth (entryAt t i).len.toNat) :
    1 ≤ codeLevel r.trie (entryAt t i) (j + 1) ∧ codeLevel r.trie (entryAt t i) (j + 1) < n := by
  have node := wfRom_branch wf hi hj
  rw [codeLevel, pathLevel_succ node]
  exact (nodeDecode_branch_iff.1 node).2

theorem wfRom_codeLevel_lt (wf : WfRom r n t) (hn : 0 < n) {i j : Nat} (hi : i < Config.nsym)
    (hj : j ≤ pathDepth (entryAt t i).len.toNat) : codeLevel r.trie (entryAt t i) j < n := by
  cases j with
  | zero => exact hn
  | succ j => exact (wfRom_codeLevel_succ wf hi hj).2

/-- A level stands at a place in the codes: the place is the first windows of some code, and a code's path is at the level exactly when the windows
it has passed are the place. -/
structure StandsAt (r : Rom) (t : CodeTable) (l : Nat) (place : List Bool) : Prop where
  passed : ∃ i j, i < Config.nsym ∧ j ≤ pathDepth (entryAt t i).len.toNat ∧ windows (entryAt t i) j = place
  level : ∀ i j, i < Config.nsym → j ≤ pathDepth (entryAt t i).len.toNat →
    (codeLevel r.trie (entryAt t i) j = l ↔ windows (entryAt t i) j = place)

/-- The last window of a code holds 1 to 8 of its bits. -/
theorem pathRest_bounds (table : WellFormedTable t) {i : Nat} (hi : i < Config.nsym) :
    1 ≤ pathRest (entryAt t i).len.toNat ∧ pathRest (entryAt t i).len.toNat ≤ 8 := by
  obtain ⟨valid, _⟩ := table
  exact pathRest_le (valid i hi).1

theorem windows_zero (e : CodeEntry) : windows e 0 = [] := rfl

theorem windows_length_of_le {e : CodeEntry} {j : Nat} (hj : j ≤ pathDepth e.len.toNat) : (windows e j).length = 8 * j :=
  windows_length (by simp only [pathDepth] at hj; omega)

/-- The root stands at the start of every code: no branch leads to it. -/
theorem standsAt_root (wf : WfRom r n t) : StandsAt r t 0 [] := by
  refine ⟨⟨0, 0, by decide, Nat.zero_le _, rfl⟩, fun i j hi hj => ?_⟩
  cases j with
  | zero => exact iff_of_true rfl rfl
  | succ j =>
    refine iff_of_false (Nat.ne_of_gt (wfRom_codeLevel_succ wf hi hj).1) fun same => ?_
    have length := windows_length_of_le hj
    rw [same, List.length_nil] at length
    omega

theorem StandsAt.root_iff {l : Nat} {place : List Bool} (stands : StandsAt r t l place) : l = 0 ↔ place = [] := by
  have root := stands.level 0 0 (by decide) (Nat.zero_le _)
  rw [windows_zero] at root
  exact ⟨fun h => (root.1 h.symm).symm, fun h => (root.2 h.symm).symm⟩

/-- No code is complete where a level stands. -/
theorem StandsAt.no_code {l : Nat} {place : List Bool} (stands : StandsAt r t l place) (table : WellFormedTable t) {i : Nat}
    (hi : i < Config.nsym) : ¬ codeBits (entryAt t i) <+: place := by
  obtain ⟨valid, prefixFree⟩ := table
  obtain ⟨i', j, hi', hj, rfl⟩ := stands.passed
  intro begins
  have same : i = i' := by
    by_contra ne
    exact prefixFree i i' hi hi' ne (begins.trans (windows_prefix _ _))
  subst same
  have short := begins.length_le
  have positive := (valid i hi).1
  rw [codeBits_length, windows_length_of_le hj] at short
  simp only [pathDepth] at hj
  omega

theorem StandsAt.level_lt {l : Nat} {place : List Bool} (stands : StandsAt r t l place) (wf : WfRom r n t) (hn : 0 < n) : l < n := by
  obtain ⟨i, j, hi, hj, passed⟩ := stands.passed
  exact (stands.level i j hi hj).2 passed ▸ wfRom_codeLevel_lt wf hn hi hj

/-- A branch leads one window further. -/
theorem StandsAt.branch {l key : Nat} {place : List Bool} {next : BitVec 10} (stands : StandsAt r t l place) (wf : WfRom r n t)
    (hl : l < n) (hkey : key < Config.fanout) (node : nodeIn r n l key = .branch next) : StandsAt r t next.toNat (place ++ keyBits key) := by
  have ⟨_, ⟨_, unique, _, _⟩, _, _⟩ := wf
  refine ⟨?passed, fun i j hi hj => ?level⟩
  case passed =>
    obtain ⟨i, hi, ⟨j, hj, rfl, rfl⟩ | ⟨rfl, range⟩⟩ := wfRom_slot wf hl hkey (by rw [node]; exact nofun)
    · refine ⟨i, j + 1, hi, hj, ?_⟩
      rw [← windows_codeKey hj, (stands.level i j hi hj.le).1 rfl]
    · cases (wfRom_leaf wf hi range).symm.trans node
  case level =>
    cases j with
    | zero =>
      refine iff_of_false (Nat.ne_of_lt (nodeDecode_branch_iff.1 node).2.1) fun same => ?_
      have length := congrArg List.length same
      simp [windows_zero] at length
    | succ j =>
      have link := wfRom_branch wf hi hj
      have before := stands.level i j hi (Nat.le_of_succ_le hj)
      rw [← windows_codeKey hj]
      constructor
      · intro same
        rw [same, BitVec.ofNat_toNat, BitVec.setWidth_eq] at link
        have inImage := wfRom_codeLevel_lt wf (Nat.zero_lt_of_lt hl) hi (Nat.le_of_succ_le hj)
        obtain ⟨level, rfl⟩ := unique _ _ _ _ _ inImage hl (codeKey_lt _ j) hkey link node
        rw [before.1 level]
      · intro same
        obtain ⟨windows, bits⟩ := List.append_inj' same (by simp)
        have same : nodeIn r n (codeLevel r.trie (entryAt t i) j) (codeKey (entryAt t i) j) = .branch next := by
          rw [before.2 windows, keyBits_inj (codeKey_lt _ j) hkey bits, node]
        exact pathLevel_succ same

/-- What the slot at a place, a window past a level, can hold: EMPTY where no code meets the place, the leaf of the code that ends in that window,
or a branch to a level there. -/
inductive SlotAt (r : Rom) (t : CodeTable) (place : List Bool) : Node → Prop where
  | empty (apart : ∀ i, i < Config.nsym → ¬ codeBits (entryAt t i) <+: place ∧ ¬ place <+: codeBits (entryAt t i)) : SlotAt r t place .empty
  | leaf {i : Nat} (index : i < Config.nsym) (length : place.length = 8 * pathDepth (entryAt t i).len.toNat + 8)
      (ends : codeBits (entryAt t i) <+: place) :
      SlotAt r t place (.leaf (BitVec.ofNat 9 i) (BitVec.ofNat 4 (pathRest (entryAt t i).len.toNat)))
  | branch {next : BitVec 10} (stands : StandsAt r t next.toNat place) : SlotAt r t place (.branch next)

/-- A code that meets a place a window past a level has the level on its path. -/
theorem StandsAt.windows_of_meets {l i : Nat} {place window : List Bool} (stands : StandsAt r t l place) (table : WellFormedTable t)
    (hi : i < Config.nsym) (meets : codeBits (entryAt t i) <+: place ++ window ∨ place ++ window <+: codeBits (entryAt t i)) :
    ∃ j, place.length = 8 * j ∧ j ≤ pathDepth (entryAt t i).len.toNat ∧ windows (entryAt t i) j = place := by
  obtain ⟨i', j, _, hj, rfl⟩ := stands.passed
  have length := windows_length_of_le hj
  have begins : windows (entryAt t i') j <+: codeBits (entryAt t i) := by
    rcases meets with ends | goesOn
    · exact (List.prefix_or_prefix_of_prefix (List.prefix_append _ _) ends).resolve_right (stands.no_code table hi)
    · exact (List.prefix_append _ _).trans goesOn
  have longer : 8 * j < (entryAt t i).len.toNat := by
    by_contra short
    have whole : windows (entryAt t i') j = codeBits (entryAt t i) := begins.eq_of_length_le (by rw [length, codeBits_length]; omega)
    exact stands.no_code table hi (whole ▸ List.prefix_refl _)
  exact ⟨j, length, by simp only [pathDepth]; omega, (eq_windows begins length).symm⟩

/-- A code that meets the place of a slot has its leaf or its branch there. -/
theorem StandsAt.not_empty_of_meets {l key i : Nat} {place : List Bool} (stands : StandsAt r t l place) (wf : WfRom r n t)
    (table : WellFormedTable t) (hkey : key < Config.fanout) (hi : i < Config.nsym)
    (meets : codeBits (entryAt t i) <+: place ++ keyBits key ∨ place ++ keyBits key <+: codeBits (entryAt t i)) :
    nodeIn r n l key ≠ .empty := by
  obtain ⟨j, length, hj, rfl⟩ := stands.windows_of_meets table hi meets
  rw [← (stands.level i j hi hj).2 rfl]
  rcases Nat.lt_or_eq_of_le hj with further | rfl
  · have window := windows_codeKey further
    have next : windows (entryAt t i) j ++ keyBits key = windows (entryAt t i) (j + 1) := by
      refine eq_windows (meets.resolve_left fun ends => ?_) (by rw [List.length_append, length, keyBits_length]; omega)
      have short := ends.length_le
      rw [List.length_append, length, keyBits_length, codeBits_length] at short
      simp only [pathDepth] at further
      omega
    rw [keyBits_inj hkey (codeKey_lt _ j) (List.append_cancel_left (next.trans window.symm)), wfRom_branch wf hi further]
    exact nofun
  · obtain ⟨_, last⟩ := pathRest_bounds table hi
    have fits : (codeBits (entryAt t i)).length ≤ (windows (entryAt t i) (pathDepth (entryAt t i).len.toNat) ++ keyBits key).length := by
      have split := pathRest_add (entryAt t i).len.toNat
      rw [List.length_append, length, keyBits_length, codeBits_length]
      omega
    have ends : codeBits (entryAt t i) <+: windows (entryAt t i) (pathDepth (entryAt t i).len.toNat) ++ keyBits key :=
      meets.elim id fun begins => begins.eq_of_length_le fits ▸ List.prefix_refl _
    rw [codeBits_prefix_iff_inFillRange (pathRest_add _) last hkey] at ends
    rw [wfRom_leaf wf hi ends]
    exact nofun

/-- R81 items 1, 3 and 4: every slot of a level is as the codes have it. -/
theorem StandsAt.slot {l key : Nat} {place : List Bool} (stands : StandsAt r t l place) (wf : WfRom r n t) (table : WellFormedTable t)
    (hl : l < n) (hkey : key < Config.fanout) : SlotAt r t (place ++ keyBits key) (nodeIn r n l key) := by
  have ⟨legal, _⟩ := wf
  cases node : nodeIn r n l key with
  | empty =>
    exact .empty fun i hi => ⟨fun ends => stands.not_empty_of_meets wf table hkey hi (.inl ends) node,
      fun goesOn => stands.not_empty_of_meets wf table hkey hi (.inr goesOn) node⟩
  | leaf sym bits =>
    obtain ⟨i, hi, ⟨j, hj, rfl, rfl⟩ | ⟨rfl, range⟩⟩ := wfRom_slot wf hl hkey (by rw [node]; exact nofun)
    · cases (wfRom_branch wf hi hj).symm.trans node
    · cases (wfRom_leaf wf hi range).symm.trans node
      have position := (stands.level i _ hi (Nat.le_refl _)).1 rfl
      refine .leaf hi ?_ ?_
      · rw [← position, List.length_append, windows_pathDepth_length, keyBits_length]
      · rw [← position]
        exact (codeBits_prefix_iff_inFillRange (pathRest_add _) (pathRest_bounds table hi).2 hkey).2 range
  | branch next => exact .branch (stands.branch wf hl hkey node)
  | invalid => exact absurd node (legal l key hl hkey)

end WfRom

/-! ### The real bits left (R86) -/

/-- The real bits left at the cursor, in stream order. -/
def State.realBits (s : State) : List Bool := (List.range s.dec.rem).map fun j => streamBit s.ibuf s.dec.len (s.dec.cur + j)

@[simp] theorem realBits_length (s : State) : s.realBits.length = s.dec.rem := by simp [State.realBits]

/-- The key is the next 8 real bits, ones standing for those that are missing. -/
theorem keyBits_key (s : State) : keyBits s.key = (s.realBits ++ List.replicate Config.win true).take Config.win := by
  apply List.ext_getElem
  · simp
  · intro j h _
    have hj : j < 8 := by simpa using h
    refine ((accBits_getElem _ _ _ h).trans (testBit_window s.ibuf s.dec.len s.dec.cur j hj)).trans ?_
    rw [List.getElem_take, List.getElem_append]
    split
    · simp [State.realBits]
    · rename_i past
      rw [List.getElem_replicate]
      refine streamBit_past ?_
      simp only [realBits_length, Dec.rem] at past
      omega

/-- The real bits after the cursor has moved on by `m`. -/
theorem realBits_of_advance {s u : State} {m : Nat} (ibuf : u.ibuf = s.ibuf) (len : u.dec.len = s.dec.len) (cur : u.dec.cur = s.dec.cur + m) :
    u.realBits = s.realBits.drop m := by
  apply List.ext_getElem
  · simp only [realBits_length, List.length_drop, Dec.rem, len, cur]
    omega
  · intro j _ _
    simp [State.realBits, ibuf, len, cur, Nat.add_assoc]

/-- With 8 real bits or more the key is the next 8. -/
theorem realBits_eq_key_append {s : State} (h : 8 ≤ s.dec.rem) : s.realBits = keyBits s.key ++ s.realBits.drop 8 := by
  rw [keyBits_key, List.take_append_of_le_length (by rw [realBits_length]; exact h), List.take_append_drop]

/-- With at most 8 the key begins with them. -/
theorem realBits_prefix_key {s : State} (h : s.dec.rem ≤ 8) : s.realBits <+: keyBits s.key := by
  rw [keyBits_key, List.prefix_take_iff]
  exact ⟨List.prefix_append _ _, by rw [realBits_length]; exact h⟩

/-- What begins the place of the next slot and is no longer than the real bits begins these. -/
theorem prefix_realBits_of_prefix_key {s : State} {q place : List Bool} (h : q <+: place ++ keyBits s.key)
    (real : q.length ≤ place.length + s.dec.rem) : q <+: place ++ s.realBits := by
  rw [keyBits_key] at h
  have padded := List.prefix_append (place ++ s.realBits) (List.replicate Config.win true)
  refine List.prefix_of_prefix_length_le (h.trans ?_) padded (by simpa using real)
  rw [List.append_assoc, List.prefix_append_right_inj]
  exact List.take_prefix _ _

/-- The real bits are all ones exactly when the key is (R86, R93). -/
theorem realBits_all_iff {s : State} (h : s.dec.rem ≤ 8) : s.realBits.all id = true ↔ s.key = 0xFF := by
  rw [State.key, window_eq_ones_iff, List.all_eq_true]
  simp only [State.realBits, List.mem_map, List.mem_range, forall_exists_index, and_imp, forall_apply_eq_imp_iff₂, id, Dec.rem] at h ⊢
  constructor
  · intro all p hp _ real
    have bit := all (p - s.dec.cur) (by omega)
    rwa [Nat.add_sub_cancel' hp] at bit
  · exact fun all j hj => all _ (Nat.le_add_right _ _) (by omega) (by omega)

/-! ### The greedy parse (R98) -/

section Spec

variable {t : CodeTable}

theorem firstCode_none {bits : List Bool} (h : ∀ i, i < Config.nsym → ¬ codeBits (entryAt t i) <+: bits) : firstCode t bits = none := by
  rw [firstCode, List.find?_eq_none]
  intro i hi begins
  simp only [Bool.and_eq_true, List.isPrefixOf_iff_prefix] at begins
  exact h i (List.mem_range.1 hi) begins.2

/-- Where no code begins the bits, the parse is at its tail. -/
theorem decodeSpec_tail {fuel : Nat} {bits : List Bool} {out : List Byte}
    (h : ∀ i, i < Config.nsym → ¬ codeBits (entryAt t i) <+: bits) :
    decodeSpec t fuel bits out = (judgeTail t bits (bits.length + 1) 0, out) := by
  cases fuel with
  | zero => rfl
  | succ fuel => rw [decodeSpec, firstCode_none h]

/-- Where a code begins the bits, it is read. -/
theorem decodeSpec_code {fuel i : Nat} {rest : List Bool} {out : List Byte} (table : WellFormedTable t) (hi : i < Config.nsym) :
    decodeSpec t (fuel + 1) (codeBits (entryAt t i) ++ rest) out =
      if i = Config.eos then (some .eosDecoded, out) else decodeSpec t fuel rest (out ++ [BitVec.ofNat 8 i]) := by
  rw [decodeSpec, firstCode_code_append table hi]
  dsimp only
  rw [← codeBits_length, List.drop_left]

/-- The tail's judgement passes the windows of a code that goes on. -/
theorem judgeTail_windows {bits : List Bool} {i j : Nat} (fuel : Nat) (hi : i < Config.nsym) (hj : j ≤ pathDepth (entryAt t i).len.toNat)
    (begins : windows (entryAt t i) j <+: bits) : judgeTail t bits (fuel + j) 0 = judgeTail t bits fuel j := by
  induction j generalizing fuel with
  | zero => rfl
  | succ j ih =>
    have longer := begins.length_le
    rw [windows_length_of_le hj] at longer
    have before : windows (entryAt t i) j <+: bits := (List.take_prefix_take_left (by omega)).trans begins
    rw [show fuel + (j + 1) = fuel + 1 + j by omega, ih (fuel + 1) (Nat.le_of_succ_le hj) before, judgeTail]
    have goesOn : (List.range Config.nsym).any (fun i =>
        decide (8 * (j + 1) < (entryAt t i).len.toNat) && (bits.take (8 * (j + 1))).isPrefixOf (codeBits (entryAt t i))) = true := by
      rw [List.any_eq_true]
      refine ⟨i, List.mem_range.2 hi, ?_⟩
      have window : bits.take (8 * (j + 1)) = windows (entryAt t i) (j + 1) := by
        rw [← windows_length_of_le hj]
        exact (List.prefix_iff_eq_take.1 begins).symm
      simp only [window, Bool.and_eq_true, decide_eq_true_eq, List.isPrefixOf_iff_prefix]
      refine ⟨?_, windows_prefix _ _⟩
      simp only [pathDepth] at hj
      omega
    simp only [if_neg (show ¬ bits.length - 8 * j = 0 by omega), if_neg (show ¬ bits.length - 8 * j < 8 by omega), if_pos goesOn]

/-- The judgement from a level on: the windows before it are those of a code that goes on. -/
theorem StandsAt.judgeTail_fromLevel {r : Rom} {l : Nat} {place : List Bool} (stands : StandsAt r t l place) (rest : List Bool) :
    ∃ fuel j, place.length = 8 * j ∧
      judgeTail t (place ++ rest) ((place ++ rest).length + 1) 0 = judgeTail t (place ++ rest) (fuel + 1) j := by
  obtain ⟨i, j, hi, hj, rfl⟩ := stands.passed
  have length := windows_length_of_le hj
  refine ⟨(windows (entryAt t i) j ++ rest).length - j, j, length, ?_⟩
  rw [← judgeTail_windows _ hi hj (List.prefix_append _ _)]
  congr 1
  rw [List.length_append, length]
  omega

/-- With no bit left the tail is a success at the root only. -/
theorem StandsAt.judgeTail_end {r : Rom} {l : Nat} {place : List Bool} (stands : StandsAt r t l place) :
    judgeTail t place (place.length + 1) 0 = if l = 0 then none else some .truncated := by
  obtain ⟨fuel, j, length, judged⟩ := stands.judgeTail_fromLevel []
  have root : l = 0 ↔ j = 0 := by rw [stands.root_iff, ← List.length_eq_zero_iff]; omega
  rw [List.append_nil] at judged
  rw [judged, judgeTail]
  simp only [length, Nat.sub_self, if_true, root]

/-- With less than a window left it is padding at the root (R93). -/
theorem StandsAt.judgeTail_short {r : Rom} {l : Nat} {place rest : List Bool} (stands : StandsAt r t l place) (pos : 1 ≤ rest.length)
    (short : rest.length < 8) :
    judgeTail t (place ++ rest) ((place ++ rest).length + 1) 0 =
      if l = 0 ∧ rest.all id = true then none else if l ≠ 0 then some .truncated else some .badPadding := by
  obtain ⟨fuel, j, length, judged⟩ := stands.judgeTail_fromLevel rest
  have root : l = 0 ↔ j = 0 := by rw [stands.root_iff, ← List.length_eq_zero_iff]; omega
  have left : (place ++ rest).length - 8 * j = rest.length := by rw [List.length_append, length]; omega
  rw [judged, judgeTail]
  simp only [left, if_neg (show ¬ rest.length = 0 by omega), if_pos short, ne_eq, root, Nat.pos_iff_ne_zero]
  by_cases h : j = 0
  · have place0 : place = [] := List.length_eq_zero_iff.1 (by omega)
    simp [h, place0]
  · simp [h]

/-- With a window left in which no code goes on or ends the bits are no code. -/
theorem StandsAt.judgeTail_stuck {r : Rom} {l : Nat} {place window rest : List Bool} (stands : StandsAt r t l place) (whole : window.length = 8)
    (apart : ∀ i, i < Config.nsym → ¬ place ++ window <+: codeBits (entryAt t i)) :
    judgeTail t (place ++ (window ++ rest)) ((place ++ (window ++ rest)).length + 1) 0 = some .invalidCode := by
  obtain ⟨fuel, j, length, judged⟩ := stands.judgeTail_fromLevel (window ++ rest)
  have left : (place ++ (window ++ rest)).length - 8 * j = 8 + rest.length := by simp only [List.length_append, length, whole]; omega
  have taken : (place ++ (window ++ rest)).take (8 * (j + 1)) = place ++ window := by
    rw [← List.append_assoc]
    exact List.take_left' (by rw [List.length_append, length, whole]; omega)
  have stuck : ¬ (List.range Config.nsym).any (fun i => decide (8 * (j + 1) < (entryAt t i).len.toNat) &&
      ((place ++ (window ++ rest)).take (8 * (j + 1))).isPrefixOf (codeBits (entryAt t i))) = true := by
    rw [taken, List.any_eq_true]
    rintro ⟨i, hi, goesOn⟩
    simp only [Bool.and_eq_true, List.isPrefixOf_iff_prefix] at goesOn
    exact apart i (List.mem_range.1 hi) goesOn.2
  rw [judged, judgeTail]
  simp only [left, if_neg (show ¬ 8 + rest.length = 0 by omega), if_neg (show ¬ 8 + rest.length < 8 by omega), if_neg stuck]

end Spec

/-! ### A DEC.STEP is a stage of the parse (R88, R98) -/

theorem decodeOutcome_endEffect (s : State) : decodeOutcome (endEffect s).dec = if s.dec.lvl = 0 then none else some .truncated := by
  rcases endEffect_cases s with ⟨root, h⟩ | ⟨below, h⟩
  · rw [h, if_pos root]; rfl
  · rw [h, if_neg below]; rfl

theorem decodeOutcome_tailEffect (s : State) :
    decodeOutcome (tailEffect s).dec =
      if s.dec.lvl = 0 ∧ s.key = 0xFF then none else if s.dec.lvl ≠ 0 then some .truncated else some .badPadding := by
  rcases tailEffect_cases s with ⟨root, ones, h⟩ | ⟨below, h⟩ | ⟨root, other, h⟩
  · rw [h, if_pos ⟨root, ones⟩]; rfl
  · rw [h, if_neg (fun h => below h.1), if_pos below]; rfl
  · rw [h, if_neg (fun h => other h.2), if_neg (not_not.2 root)]; rfl

/-- A DECODE in progress on a well formed image. Since the last code was read the walk has passed the bits of `place`, and its level stands there. -/
structure Parsing (r : Rom) (t : CodeTable) (place : List Bool) (s : State) : Prop where
  rom : s.tb.rom = some r
  image : WfRom r s.nlevels t
  table : WellFormedTable t
  root : 0 < s.nlevels
  busy : s.dec.busy = true
  stands : StandsAt r t s.dec.lvl place

/-- A step is a stage of the parse of the bits since the last code: the step ends the operation as the parse ends, or the parse goes on as it
does from the walk position after the step. -/
inductive StepParses (r : Rom) (t : CodeTable) (fuel : Nat) (out : List Byte) (place : List Bool) (s u : State) : Prop where
  | ended (ends : u.DecodeEnded) (same : u.out = s.out)
      (parse : decodeSpec t fuel (place ++ s.realBits) out = (decodeOutcome u.dec, out))
  | goesOn {fuel' : Nat} {place' : List Bool} {bytes : List Byte} (parsing : Parsing r t place' u) (closer : u.dec.rem < s.dec.rem)
      (enough : (place' ++ u.realBits).length ≤ fuel') (appends : u.out = s.out ++ bytes)
      (parse : decodeSpec t fuel (place ++ s.realBits) out = decodeSpec t fuel' (place' ++ u.realBits) (out ++ bytes))

section Parse

variable {r : Rom} {t : CodeTable} {fuel : Nat} {out : List Byte} {place : List Bool} {s : State}

/-- Where no code begins the bits, an operation that ends as the tail is judged ends as the parse does. -/
theorem StepParses.of_tail {u : State} (noCode : ∀ i, i < Config.nsym → ¬ codeBits (entryAt t i) <+: place ++ s.realBits)
    (ends : u.DecodeEnded) (same : u.out = s.out)
    (judged : judgeTail t (place ++ s.realBits) ((place ++ s.realBits).length + 1) 0 = decodeOutcome u.dec) :
    StepParses r t fuel out place s u :=
  .ended ends same (by rw [decodeSpec_tail noCode, judged])

/-- DEC.END (R89). -/
theorem endEffect_parses (parsing : Parsing r t place s) (h0 : s.dec.rem = 0) : StepParses r t fuel out place s (endEffect s) := by
  have noBits : s.realBits = [] := List.length_eq_zero_iff.1 ((realBits_length s).trans h0)
  refine .of_tail ?_ (endEffect_ended s) (endEffect_out s) ?_
  · rw [noBits, List.append_nil]
    exact fun i hi => parsing.stands.no_code parsing.table hi
  · rw [noBits, List.append_nil, parsing.stands.judgeTail_end, decodeOutcome_endEffect]

/-- DEC.TAIL (R93). -/
theorem tailEffect_parses (parsing : Parsing r t place s) (h0 : s.dec.rem ≠ 0) (short : s.dec.rem < 8)
    (noCode : ∀ i, i < Config.nsym → ¬ codeBits (entryAt t i) <+: place ++ s.realBits) :
    StepParses r t fuel out place s (tailEffect s) := by
  refine .of_tail noCode (tailEffect_ended s) (tailEffect_out s) ?_
  have length := realBits_length s
  rw [parsing.stands.judgeTail_short (by omega) (by omega), decodeOutcome_tailEffect]
  simp only [realBits_all_iff short.le]

/-- N.EMPTY (R94). -/
theorem emptyNode_parses (parsing : Parsing r t place s) (h0 : s.dec.rem ≠ 0)
    (apart : ∀ i, i < Config.nsym →
      ¬ codeBits (entryAt t i) <+: place ++ keyBits s.key ∧ ¬ place ++ keyBits s.key <+: codeBits (entryAt t i)) :
    StepParses r t fuel out place s (nodeEffect .empty s) := by
  by_cases short : s.dec.rem < 8
  · rw [nodeEffect, if_pos short]
    refine tailEffect_parses parsing h0 short fun i hi begins => (apart i hi).1 (begins.trans ?_)
    exact (List.prefix_append_right_inj _).2 (realBits_prefix_key short.le)
  · rw [nodeEffect, if_neg short]
    have real := realBits_eq_key_append (Nat.le_of_not_lt short)
    refine .of_tail (fun i hi begins => ?_) ⟨rfl, rfl⟩ rfl ?_
    · rw [real, ← List.append_assoc] at begins
      exact (List.prefix_or_prefix_of_prefix begins (List.prefix_append _ _)).elim (apart i hi).1 (apart i hi).2
    · rw [real]
      exact parsing.stands.judgeTail_stuck (keyBits_length _) fun i hi => (apart i hi).2

/-- N.LEAF (R90, R91): the bits of the leaf's code are all real, or no code is in the bits left. -/
theorem leafNode_parses (parsing : Parsing r t place s) (enough : (place ++ s.realBits).length ≤ fuel) (h0 : s.dec.rem ≠ 0) {i : Nat}
    {bits : BitVec 4} (hi : i < Config.nsym) (ends : codeBits (entryAt t i) <+: place ++ keyBits s.key)
    (length : (entryAt t i).len.toNat = place.length + bits.toNat) (pos : 1 ≤ bits.toNat) (window : bits.toNat ≤ 8) :
    StepParses r t fuel out place s (nodeEffect (.leaf (BitVec.ofNat 9 i) bits) s) := by
  rw [← codeBits_length] at length
  by_cases real : bits.toNat ≤ s.dec.rem
  · obtain ⟨rest, whole⟩ := prefix_realBits_of_prefix_key (s := s) ends (by omega)
    have advanced : (leafEffect (BitVec.ofNat 9 i) bits s).realBits = rest := by
      have dropped := congrArg (List.drop (place.length + bits.toNat)) whole
      rw [← length, List.drop_left, length, List.drop_length_add_append] at dropped
      rw [dropped]
      exact realBits_of_advance rfl rfl rfl
    have restLength := congrArg List.length whole
    simp only [List.length_append] at restLength enough
    have sym : (BitVec.ofNat 9 i).toNat = i := by
      simp only [BitVec.toNat_ofNat, Config.nsym] at hi ⊢
      omega
    obtain ⟨fuel, rfl⟩ : ∃ fuel', fuel = fuel' + 1 := ⟨fuel - 1, by omega⟩
    have parse := decodeSpec_code (fuel := fuel) (rest := rest) (out := out) parsing.table hi
    rw [whole] at parse
    rw [nodeEffect, if_pos real, sym]
    by_cases eos : i = Config.eos
    · rw [if_pos eos] at parse ⊢
      exact .ended ⟨rfl, rfl⟩ rfl parse
    · rw [if_neg eos] at parse ⊢
      refine .goesOn (fuel' := fuel) (place' := []) { parsing with stands := standsAt_root parsing.image } ?_ ?_ rfl ?_
      · rw [← realBits_length, advanced, ← realBits_length]
        omega
      · rw [List.nil_append, advanced]
        omega
      · rw [parse, advanced, leafByte_ofNat, List.nil_append]
  · rw [nodeEffect, if_neg real]
    refine tailEffect_parses parsing h0 (by omega) fun i' hi' begins => ?_
    have begins' := begins.trans ((List.prefix_append_right_inj _).2 (realBits_prefix_key (by omega)))
    have same : i' = i := by
      by_contra ne
      obtain ⟨_, prefixFree⟩ := parsing.table
      exact (List.prefix_or_prefix_of_prefix begins' ends).elim (prefixFree i' i hi' hi ne) (prefixFree i i' hi hi' (Ne.symm ne))
    have short := begins.length_le
    rw [same, length, List.length_append, realBits_length] at short
    omega

/-- N.BRANCH (R92). -/
theorem branchNode_parses (parsing : Parsing r t place s) (enough : (place ++ s.realBits).length ≤ fuel) (h0 : s.dec.rem ≠ 0)
    {next : BitVec 10} (further : StandsAt r t next.toNat (place ++ keyBits s.key)) :
    StepParses r t fuel out place s (nodeEffect (.branch next) s) := by
  by_cases room : 8 ≤ s.dec.rem
  · rw [nodeEffect, if_pos room]
    have advanced : (branchEffect next s).realBits = s.realBits.drop 8 := realBits_of_advance rfl rfl rfl
    have bits : place ++ keyBits s.key ++ (branchEffect next s).realBits = place ++ s.realBits := by
      rw [advanced, List.append_assoc, ← realBits_eq_key_append room]
    refine .goesOn (bytes := []) { parsing with stands := further } ?_ (bits ▸ enough) (List.append_nil _).symm ?_
    · simp only [Dec.rem, branchEffect_dec] at room ⊢
      omega
    · rw [bits, List.append_nil]
  · rw [nodeEffect, if_neg room]
    have short : s.dec.rem < 8 := Nat.lt_of_not_le room
    refine tailEffect_parses parsing h0 short fun i hi begins => further.no_code parsing.table hi (begins.trans ?_)
    exact (List.prefix_append_right_inj _).2 (realBits_prefix_key short.le)

/-- R88: the node at the walk position, as the codes have it. -/
theorem nodeEffect_parses (parsing : Parsing r t place s) (enough : (place ++ s.realBits).length ≤ fuel) (h0 : s.dec.rem ≠ 0) {node : Node}
    (slot : SlotAt r t (place ++ keyBits s.key) node) : StepParses r t fuel out place s (nodeEffect node s) := by
  cases slot with
  | empty apart => exact emptyNode_parses parsing h0 apart
  | @leaf i hi length ends =>
    obtain ⟨pos, window⟩ := pathRest_bounds parsing.table hi
    have split := pathRest_add (entryAt t i).len.toNat
    have width : (BitVec.ofNat 4 (pathRest (entryAt t i).len.toNat)).toNat = pathRest (entryAt t i).len.toNat := by
      simp only [BitVec.toNat_ofNat]
      omega
    rw [List.length_append, keyBits_length] at length
    exact leafNode_parses parsing enough h0 hi ends (by omega) (by omega) (by omega)
  | branch further => exact branchNode_parses parsing enough h0 further

theorem execDecStep_parses (parsing : Parsing r t place s) (enough : (place ++ s.realBits).length ≤ fuel) :
    ∃ u, execDecStep s = .next u ∧ StepParses r t fuel out place s u := by
  by_cases h0 : s.dec.rem = 0
  · exact ⟨endEffect s, execDecStep_endEffect parsing.rom h0, endEffect_parses parsing h0⟩
  · have level := parsing.stands.level_lt parsing.image parsing.root
    refine ⟨_, execDecStep_nodeEffect parsing.rom h0 level, nodeEffect_parses parsing enough h0 ?_⟩
    exact parsing.stands.slot parsing.image parsing.table level (window_lt _ _ _)

/-- R98: a run of DEC.STEP of enough steps ends as the parse of the bits since the last code. -/
theorem decodeRun_parses {k : Nat} (parsing : Parsing r t place s) (enough : (place ++ s.realBits).length ≤ fuel) (hk : s.dec.rem < k) :
    ∃ u bytes, decodeRun k s = .next u ∧ u.DecodeEnded ∧ u.out = s.out ++ bytes ∧
      decodeSpec t fuel (place ++ s.realBits) out = (decodeOutcome u.dec, out ++ bytes) := by
  induction k generalizing s place fuel out with
  | zero => omega
  | succ k ih =>
    obtain ⟨u, step, parses⟩ := execDecStep_parses (out := out) parsing enough
    cases parses with
    | ended ends same parse =>
      refine ⟨u, [], ?_, ends, ?_, ?_⟩
      · rw [decodeRun_succ step, ends.1]; rfl
      · rw [same, List.append_nil]
      · rw [parse, List.append_nil]
    | @goesOn fuel' place' bytes parsing' closer enough' appends parse =>
      obtain ⟨v, bytes', run, ends, appends', parse'⟩ := ih (out := out ++ bytes) parsing' enough' (by omega)
      refine ⟨v, bytes ++ bytes', ?_, ends, ?_, ?_⟩
      · rw [decodeRun_succ step, if_pos parsing'.busy, run]
      · rw [appends', appends, List.append_assoc]
      · rw [parse, parse', List.append_assoc]

end Parse

/-- DECODE on a well formed image starts a parse at the first bit of the buffer. -/
theorem startDecode_parsing {s : State} {r : Rom} (hr : s.tb.rom = some r) (hn : 0 < s.nlevels) (table : WellFormedTable s.table)
    (wf : WfRom r s.nlevels s.table) : Parsing r s.table [] (startDecode s) :=
  ⟨hr, wf, table, hn, rfl, standsAt_root wf⟩

theorem startDecode_realBits (s : State) :
    (startDecode s).realBits = (List.range (8 * s.regs.argLen)).map (streamBit s.ibuf s.regs.argLen) := by
  simp [State.realBits, startDecode, Dec.rem]

/-- Settles O31: each DEC.STEP is a stage of the greedy parse, the level of the walk standing at the bits passed since the last code. -/
theorem decodeComputesDecodeSpec : Obligations.DecodeComputesDecodeSpec := by
  unfold Obligations.DecodeComputesDecodeSpec
  intro s r hr hn table wf
  have bits : ([] ++ (startDecode s).realBits).length ≤ 8 * s.regs.argLen := by
    rw [List.nil_append, realBits_length]
    exact Nat.le_refl _
  obtain ⟨u, bytes, run, ⟨idle, done⟩, appends, parse⟩ :=
    decodeRun_parses (out := []) (startDecode_parsing hr hn table wf) bits (Nat.lt_succ_self (8 * s.regs.argLen))
  rw [List.nil_append, startDecode_realBits, List.nil_append] at parse
  refine ⟨u, run, idle, done, ?_⟩
  rw [parse]
  exact ⟨rfl, appends⟩

end Sys2Proof.Machine

/-! Proofs of the statements on the encoder's steps and on what an ENCODE writes (spec/42_encoder.md R110 to R117). -/

namespace Sys2Proof.Machine

open Sys2Proof.Safety

/-! ### The start of an ENCODE (R110, R111) -/

/-- Settles O9: ENC.START only needs a codec. -/
theorem encStartWritesTheEncoderRegisters : Obligations.EncStartWritesTheEncoderRegisters := by
  unfold Obligations.EncStartWritesTheEncoderRegisters
  exact fun s r hr => withRom_some hr _

/-- Settles O10: the command runs on the idle encoder. -/
theorem encodeCommandStartsTheEncoder : Obligations.EncodeCommandStartsTheEncoder := by
  unfold Obligations.EncodeCommandStartsTheEncoder
  exact fun s r hr hb => encoderCommand_idle hr hb _ _

/-! ### What has been packed (R112) -/

/-- An ENCODE in progress, begun when SINK held `sink`, has packed the bit string `codes`: whole bytes of it are in SINK, the rest in the
accumulator. -/
structure HasPacked (sink : List Byte) (codes : List Bool) (s : State) : Prop where
  few : s.enc.nb ≤ 7
  fits : s.enc.acc < 2 ^ s.enc.nb
  packed : ∃ bs, s.sink = sink ++ bs ∧ bs.length = s.enc.cnt ∧ streamBits bs ++ accBits s.enc.acc s.enc.nb = codes

section

variable {sink : List Byte} {codes : List Bool} {s : State} {r : Rom}

theorem startEncode_hasPacked (s : State) : HasPacked s.sink [] (startEncode s) :=
  ⟨Nat.zero_le 7, Nat.one_pos, [], (List.append_nil _).symm, rfl, rfl⟩

/-- The bits packed are counted: 8 for each byte of `ecnt`, and those held. -/
theorem HasPacked.length_eq (h : HasPacked sink codes s) : 8 * s.enc.cnt + s.enc.nb = codes.length := by
  obtain ⟨bs, _, length, bits⟩ := h.packed
  rw [← bits, List.length_append, streamBits_length, accBits_length, length]

/-- ENC.SYM packs one more code. -/
theorem HasPacked.afterSym {b : Byte} (h : HasPacked sink codes s) (valid : ValidEntry (entryAt r.code b.toNat)) :
    HasPacked sink (codes ++ codeBits (entryAt r.code b.toNat)) (symEffect r b s) := by
  obtain ⟨bs, appended, length, bits⟩ := h.packed
  obtain ⟨_, few, fits, moved⟩ := packCode_spec _ s.enc.acc s.enc.nb valid h.fits
  refine ⟨few, fits, bs ++ (packCode (entryAt r.code b.toNat) s.enc.acc s.enc.nb).bytes, ?_, ?_, ?_⟩
  · rw [symEffect_sink, appended, List.append_assoc]
  · rw [List.length_append, length]; rfl
  · rw [streamBits_append, List.append_assoc, ← bits, List.append_assoc]
    exact congrArg (streamBits bs ++ ·) moved

/-- A run of ENC.SYM packs the codes of the literal bytes in turn, in index order. -/
theorem HasPacked.afterSyms (valid : ValidTable r.code) (k : Nat) (h : HasPacked sink codes s) :
    HasPacked sink (codes ++ literalBits r.code ((List.range' s.enc.idx k).map (readByte s.lit))) (symRun r k s) := by
  induction k generalizing s codes with
  | zero => simpa [symRun] using h
  | succ k ih =>
    have first := h.afterSym (validEntry_of_byte valid (readByte s.lit s.enc.idx))
    have rest := ih first
    rwa [List.append_assoc, ← literalBits_cons] at rest

/-- From ENC.START on the codes of the literal bytes read so far have been packed. -/
theorem encode_hasPacked (valid : ValidTable r.code) (k : Nat) (s : State) :
    HasPacked s.sink (literalBits r.code (bufferBytes s.lit k)) (symRun r k (startEncode s)) := by
  have packed := (startEncode_hasPacked s).afterSyms valid k
  rwa [List.nil_append, startEncode_enc, startEncode_lit, ← List.range_eq_range'] at packed

end

/-- Settles O33: the drain of one ENC.SYM keeps the bits, and the packing invariant is kept by each ENC.SYM. -/
theorem encSymPacksTheCode : Obligations.EncSymPacksTheCode := by
  unfold Obligations.EncSymPacksTheCode
  refine ⟨fun s r b hr hi few fits valid => ?oneStep, fun s r k valid _ => ?everyStep⟩
  case oneStep =>
    obtain ⟨count, few', fits', bits⟩ := packCode_spec _ s.enc.acc s.enc.nb valid fits
    refine ⟨_, _, _, execEncSym_next hr hi b, few', fits', ?_, count, bits⟩
    obtain ⟨_, atMost30, _⟩ := valid
    simp only [Config.maxLen] at atMost30
    omega
  case everyStep =>
    have packed := encode_hasPacked valid k s
    obtain ⟨_, _, idx, _⟩ := symRun_frame r k (startEncode s)
    exact ⟨idx.trans (Nat.zero_add k), packed.few, packed.fits, packed.length_eq, packed.packed⟩

/-! ### The padding (R113) -/

theorem flushBytes_of_noBit {e : Enc} (h : e.nb = 0) : flushBytes e = [] := by
  rw [flushBytes, if_neg (by omega)]

theorem flushBytes_of_held {e : Enc} (h : 0 < e.nb) : flushBytes e = [finalByte e.acc e.nb] := if_pos h

/-- What ENC.FLUSH appends is the bits held and then ones to the byte's end. -/
theorem streamBits_flushBytes {e : Enc} (h : e.nb ≤ 7) :
    streamBits (flushBytes e) = accBits e.acc e.nb ++ List.replicate (8 * (flushBytes e).length - e.nb) true := by
  rcases Nat.eq_zero_or_pos e.nb with noBit | held
  · rw [flushBytes_of_noBit noBit, noBit]; rfl
  · rw [flushBytes_of_held held, streamBits_cons, streamBits_nil, List.append_nil, byteBits_finalByte _ _ (by omega)]; rfl

/-- Settles O34: with no bit held the flush appends no byte, with some the final byte. -/
theorem encFlushPadsWithOnes : Obligations.EncFlushPadsWithOnes := by
  unfold Obligations.EncFlushPadsWithOnes
  intro s r hr atEnd few _
  have run : exec .encFlush s = .next (flushEffect s) := execEncFlush_next hr (Nat.not_lt.2 atEnd.ge)
  refine ⟨fun noBit => ?_, fun held => ⟨finalByte s.enc.acc s.enc.nb, ?_, byteBits_finalByte _ _ (by omega)⟩⟩
  · rw [run, flushEffect, flushBytes_of_noBit noBit, State.appendSink, List.append_nil]; rfl
  · rw [run, flushEffect, flushBytes_of_held held]; rfl

/-! ### The whole ENCODE (R114, R117) -/

/-- ENC.FLUSH ends an ENCODE that has packed `codes`: SINK has grown by the bytes they fill, the last one padded with ones. -/
theorem HasPacked.afterFlush {sink : List Byte} {codes : List Bool} {s : State} (h : HasPacked sink codes s) :
    ∃ bs, (flushEffect s).sink = sink ++ bs ∧ (flushEffect s).enc.cnt = bs.length ∧ (flushEffect s).enc.cnt = ceil8 codes.length ∧
      streamBits bs = codes ++ List.replicate (8 * (flushEffect s).enc.cnt - codes.length) true := by
  obtain ⟨bs, appended, length, bits⟩ := h.packed
  have few := h.few
  have count := h.length_eq
  have total : (flushEffect s).enc.cnt = s.enc.cnt + (flushBytes s.enc).length := rfl
  have padding : 8 * (s.enc.cnt + (flushBytes s.enc).length) - codes.length = 8 * (flushBytes s.enc).length - s.enc.nb := by omega
  refine ⟨bs ++ flushBytes s.enc, ?_, ?_, ?_, ?_⟩
  · rw [flushEffect_sink, appended, List.append_assoc]
  · rw [total, List.length_append, length]
  · rw [total, ← count, flushBytes_length, ceil8]
    split <;> omega
  · rw [total, padding, streamBits_append, streamBits_flushBytes few, ← List.append_assoc, bits]

/-- ENCODE changes SINK and the encoder's registers only, and leaves the encoder done. -/
theorem encode_frame (r : Rom) (k : Nat) (s : State) :
    let t := flushEffect (symRun r k (startEncode s))
    t = { s with enc := t.enc, sink := t.sink } ∧ t.enc.busy = false ∧ t.enc.done = true := by
  obtain ⟨frame, _⟩ := symRun_frame r k (startEncode s)
  refine ⟨?_, rfl, rfl⟩
  rw [frame]
  rfl

/-- Settles O36: ENC.SYM packs the codes by induction on the literal, and ENC.FLUSH pads what is left of them. -/
theorem encodeWritesCodesThenOnes : Obligations.EncodeWritesCodesThenOnes := by
  unfold Obligations.EncodeWritesCodesThenOnes
  intro s r hr valid codes
  obtain ⟨bs, appended, length, count, bits⟩ := (encode_hasPacked valid s.regs.argLen s).afterFlush
  exact ⟨_, bs, withRom_some hr _, appended, length, count, bits, encode_frame r s.regs.argLen s⟩

/-- The codes of a literal take the bits SIZE sums (R116). -/
theorem literalBits_length (code : CodeTable) (lit : Memory Byte) (n : Nat) :
    (literalBits code (bufferBytes lit n)).length = sumLengths code lit n := by
  simp only [sumLengths_eq, literalBits, List.length_flatMap, codeBits_length]

/-- Settles O37: both answer the bytes that the codes' bits fill. -/
theorem sizeAgreesWithEncode : Obligations.SizeAgreesWithEncode := by
  unfold Obligations.SizeAgreesWithEncode
  intro s r hr valid hb
  obtain ⟨u, bs, run, appended, length, count, _⟩ := encodeWritesCodesThenOnes s r hr valid
  have size : (sizeEffect r (s.setCmd 3#3)).res.sbytes = u.enc.cnt := by
    rw [count, literalBits_length]
    rfl
  refine ⟨_, u, encoderCommand_idle hr hb 3#3 sizeEffect, run, size, ?_, fun empty => ?_⟩
  · rw [size, appended, List.length_append, length]
  · rw [sizeEffect_res, setCmd_regs, empty]
    exact ceil8_zero

/-! ### The run of an ENCODE (R110) -/

/-- With nothing scheduled and the decoder idle a step in an ENCODE is ENC.SYM of the next literal byte, or ENC.FLUSH (log 6). -/
theorem step_encoding {s : State} {r : Rom} (ht : s.turns = []) (hd : s.dec.busy = false) (he : s.enc.busy = true) (hr : s.tb.rom = some r) :
    step s = .next (if s.enc.idx < s.enc.len then symEffect r (readByte s.lit s.enc.idx) s else flushEffect s) := by
  rw [step_unscheduled ht, defaultAgent_enc hd he, turnResult_enc hr, if_pos he]

/-- The machine's run of an ENCODE with `k` literal bytes left. -/
theorem core_run_encoding {s : State} {r : Rom} (k : Nat) (ht : s.turns = []) (hd : s.dec.busy = false) (he : s.enc.busy = true)
    (hr : s.tb.rom = some r) (hk : s.enc.len = s.enc.idx + k) :
    Sys2Proof.core.run (k + 1) s = .next (flushEffect (symRun r k s)) := by
  have first := step_encoding ht hd he hr
  induction k generalizing s with
  | zero =>
    rw [if_neg (by omega)] at first
    exact (core_run_succ first 0).trans (core_run_zero _)
  | succ k ih =>
    rw [if_pos (by omega)] at first
    have left : (symEffect r (readByte s.lit s.enc.idx) s).enc.len = (symEffect r (readByte s.lit s.enc.idx) s).enc.idx + k := by
      simp only [symEffect_enc]
      omega
    exact (core_run_succ first (k + 1)).trans (ih ht hd he hr left (step_encoding ht hd he hr))

/-- Settles O35: by induction on the literal bytes left. -/
theorem machineRunsEncode : Obligations.MachineRunsEncode := by
  unfold Obligations.MachineRunsEncode
  exact fun s r ht hd he hr hi => core_run_encoding _ ht hd he hr (Nat.add_sub_cancel' hi).symm

end Sys2Proof.Machine

/-! Proofs of the laws of the codec (spec/43_properties.md R125, R126, R131, R133, R135): what a buffer is the encoding of, and what the operations read. -/

namespace Sys2Proof.Machine

open Sys2Proof.Safety

/-! ### Encodings of a literal (R114) -/

/-- The bits are the codes of a literal's bytes and then fewer than 8 ones. -/
def CodesThenOnes (t : CodeTable) (lit : List Byte) (bits : List Bool) : Prop :=
  ∃ pad, pad < 8 ∧ bits = literalBits t lit ++ List.replicate pad true

/-- The buffer is an encoding of the literal. -/
def IsEncoding (t : CodeTable) (lit buf : List Byte) : Prop := CodesThenOnes t lit (streamBits buf)

section Encoding

variable {t : CodeTable} {lit lit' buf buf' : List Byte}

theorem streamBits_mod_eight (buf : List Byte) : (streamBits buf).length % 8 = 0 := by
  rw [streamBits_length, Nat.mul_mod_right]

/-- A literal has one encoding: the padding is what fills the last byte. -/
theorem IsEncoding.buffer_unique (h : IsEncoding t lit buf) (h' : IsEncoding t lit buf') : buf = buf' := by
  obtain ⟨pad, short, bits⟩ := h
  obtain ⟨pad', short', bits'⟩ := h'
  have whole := streamBits_mod_eight buf
  have whole' := streamBits_mod_eight buf'
  rw [bits, List.length_append, List.length_replicate] at whole
  rw [bits', List.length_append, List.length_replicate] at whole'
  have same : pad = pad' := by omega
  exact streamBits_inj (by rw [bits, bits', same])

/-- A code of a valid table has a bit, so that a literal without code bits is empty. -/
theorem eq_nil_of_literalBits_eq_nil (valid : ValidTable t) (h : literalBits t lit = []) : lit = [] := by
  cases lit with
  | nil => rfl
  | cons b lit =>
    have length := congrArg List.length h
    obtain ⟨positive, _⟩ := validEntry_of_byte valid b
    rw [literalBits_cons, List.length_append, codeBits_length, List.length_nil] at length
    omega

/-- A literal byte is a symbol of the table. -/
theorem byte_lt_nsym (b : Byte) : b.toNat < Config.nsym := b.isLt.trans (by decide)

/-- Bytes whose codes begin the same bits are the same. -/
theorem byte_eq_of_codeBits_prefix (prefixFree : PrefixFree t) {b b' : Byte} {bits : List Bool} (h : codeBits (entryAt t b.toNat) <+: bits)
    (h' : codeBits (entryAt t b'.toNat) <+: bits) : b = b' := by
  by_contra ne
  have ne : b.toNat ≠ b'.toNat := fun same => ne (BitVec.eq_of_toNat_eq same)
  exact (List.prefix_or_prefix_of_prefix h h').elim (prefixFree _ _ (byte_lt_nsym b) (byte_lt_nsym b') ne)
    (prefixFree _ _ (byte_lt_nsym b') (byte_lt_nsym b) ne.symm)

/-- Codes parse in one way: a literal whose codes begin those of another begins the other. -/
theorem prefix_of_literalBits_prefix (table : WellFormedTable t) (h : literalBits t lit' <+: literalBits t lit) : lit' <+: lit := by
  have ⟨valid, prefixFree⟩ := table
  induction lit' generalizing lit with
  | nil => exact List.nil_prefix
  | cons b' lit' ih =>
    cases lit with
    | nil => exact (eq_nil_of_literalBits_eq_nil valid (List.prefix_nil.1 h)) ▸ List.nil_prefix
    | cons b lit =>
      rw [literalBits_cons, literalBits_cons] at h
      obtain rfl := byte_eq_of_codeBits_prefix prefixFree ((List.prefix_append _ _).trans h) (List.prefix_append _ _)
      rw [List.prefix_append_right_inj] at h
      exact (List.prefix_cons_inj _).2 (ih h)

/-- What an encoding without its last byte encodes begins the literal and is not all of it. -/
theorem IsEncoding.properPrefix_of_dropLast (table : WellFormedTable t) (h : IsEncoding t lit buf) (bytes : buf ≠ [])
    (h' : IsEncoding t lit' buf.dropLast) : lit' <+: lit ∧ lit' ≠ lit := by
  obtain ⟨pad, short, bits⟩ := h
  obtain ⟨pad', _, bits'⟩ := h'
  have split : streamBits buf = streamBits buf.dropLast ++ byteBits (buf.getLast bytes) := by
    conv_lhs => rw [← List.dropLast_append_getLast bytes, streamBits_append, streamBits_cons, streamBits_nil, List.append_nil]
  have length := congrArg List.length split
  have length' := congrArg List.length bits'
  rw [bits, List.length_append, List.length_replicate, List.length_append, byteBits_length] at length
  rw [List.length_append] at length'
  have fewer : (literalBits t lit').length < (literalBits t lit).length := by omega
  have begins : literalBits t lit' <+: streamBits buf := by
    rw [split, bits', List.append_assoc]
    exact List.prefix_append _ _
  rw [bits] at begins
  refine ⟨prefix_of_literalBits_prefix table (List.prefix_of_prefix_length_le begins (List.prefix_append _ _) fewer.le), fun same => ?_⟩
  rw [same] at fewer
  exact Nat.lt_irrefl _ fewer

end Encoding

/-! ### What the greedy parse accepts (R98) -/

section Accept

variable {t : CodeTable}

/-- Past the first window a tail is never a success. -/
theorem judgeTail_succ_ne_none {fuel : Nat} {bits : List Bool} {j : Nat} : judgeTail t bits fuel (j + 1) ≠ none := by
  induction fuel generalizing j with
  | zero => exact nofun
  | succ fuel ih =>
    simp only [judgeTail, Nat.succ_ne_zero, false_and, if_false, Nat.zero_lt_succ, if_true]
    split
    · exact nofun
    split
    · exact nofun
    split
    · exact ih
    · exact nofun

theorem all_id_iff {bits : List Bool} : bits.all id = true ↔ bits = List.replicate bits.length true := by
  rw [List.eq_replicate_iff, List.all_eq_true]
  exact ⟨fun h => ⟨rfl, h⟩, fun h => h.2⟩

/-- A tail is a success exactly when it is fewer than 8 ones (R93, R98). -/
theorem judgeTail_eq_none_iff {fuel : Nat} {bits : List Bool} :
    judgeTail t bits (fuel + 1) 0 = none ↔ bits.length < 8 ∧ bits = List.replicate bits.length true := by
  rw [← all_id_iff, judgeTail]
  simp only [Nat.mul_zero, Nat.sub_zero, if_true, true_and, Nat.lt_irrefl, if_false]
  by_cases empty : bits.length = 0
  · rw [if_pos empty, List.length_eq_zero_iff.1 empty]
    exact iff_of_true rfl ⟨by decide, rfl⟩
  by_cases short : bits.length < 8
  · rw [if_neg empty, if_pos short]
    split <;> rename_i ones
    · exact iff_of_true rfl ⟨short, ones⟩
    · exact iff_of_false nofun fun h => ones h.2
  · rw [if_neg empty, if_neg short]
    refine iff_of_false ?_ fun h => short h.1
    split
    · exact judgeTail_succ_ne_none
    · exact nofun

theorem firstCode_some {bits : List Bool} {i : Nat} (h : firstCode t bits = some i) : i < Config.nsym ∧ codeBits (entryAt t i) <+: bits := by
  have found := List.find?_some h
  simp only [Bool.and_eq_true, List.isPrefixOf_iff_prefix] at found
  exact ⟨List.mem_range.1 (List.mem_of_find?_eq_some h), found.2⟩

/-- A tail that is a success is padding after no code. -/
theorem codesThenOnes_nil_of_judgeTail {fuel : Nat} {bits : List Bool} (h : judgeTail t bits (fuel + 1) 0 = none) : CodesThenOnes t [] bits := by
  obtain ⟨short, ones⟩ := judgeTail_eq_none_iff.1 h
  exact ⟨bits.length, short, ones⟩

/-- A parse that ends with success has read codes and then padding. -/
theorem codesThenOnes_of_decodeSpec {fuel : Nat} {bits : List Bool} {out : List Byte} (h : (decodeSpec t fuel bits out).1 = none) :
    ∃ lit, (decodeSpec t fuel bits out).2 = out ++ lit ∧ CodesThenOnes t lit bits := by
  induction fuel generalizing bits out with
  | zero => exact ⟨[], (List.append_nil out).symm, codesThenOnes_nil_of_judgeTail h⟩
  | succ fuel ih =>
    rw [decodeSpec] at h ⊢
    cases found : firstCode t bits with
    | none =>
      rw [found] at h
      exact ⟨[], (List.append_nil out).symm, codesThenOnes_nil_of_judgeTail h⟩
    | some i =>
      simp only [found] at h ⊢
      obtain ⟨hi, rest, whole⟩ := firstCode_some found
      by_cases eos : i = Config.eos
      · rw [if_pos eos] at h
        cases h
      · rw [if_neg eos] at h ⊢
        obtain ⟨lit, appends, pad, short, bits'⟩ := ih h
        have sym : (BitVec.ofNat 8 i).toNat = i := by
          simp only [BitVec.toNat_ofNat, Config.nsym, Config.eos] at hi eos ⊢
          omega
        refine ⟨BitVec.ofNat 8 i :: lit, by rw [appends, List.append_assoc]; rfl, pad, short, ?_⟩
        rw [← whole, ← codeBits_length, List.drop_left] at bits'
        rw [literalBits_cons, sym, List.append_assoc, ← bits', whole]

/-- On a round-trip safe table no code begins the padding. -/
theorem not_codeBits_prefix_ones (safe : RoundTripSafe t) {i pad : Nat} (hi : i < Config.nsym) (short : pad < 8) :
    ¬ codeBits (entryAt t i) <+: List.replicate pad true := by
  intro begins
  have length := begins.length_le
  rw [codeBits_length, List.length_replicate] at length
  exact absurd (List.eq_of_mem_replicate (begins.subset (safe.2 i hi (by omega)))) nofun

/-- On a round-trip safe table the parse of codes and then padding succeeds with the literal. -/
theorem decodeSpec_of_codesThenOnes (safe : RoundTripSafe t) {fuel : Nat} {bits : List Bool} {lit out : List Byte}
    (h : CodesThenOnes t lit bits) (enough : bits.length ≤ fuel) : decodeSpec t fuel bits out = (none, out ++ lit) := by
  have ⟨table, _⟩ := safe
  obtain ⟨pad, short, rfl⟩ := h
  induction lit generalizing fuel out with
  | nil =>
    rw [literalBits_nil, List.nil_append, List.append_nil, decodeSpec_tail fun i hi => not_codeBits_prefix_ones safe hi short,
      judgeTail_eq_none_iff.2 (by simpa using short)]
  | cons b lit ih =>
    obtain ⟨positive, _⟩ := validEntry_of_byte table.1 b
    simp only [literalBits_cons, List.length_append, codeBits_length] at enough
    obtain ⟨fuel, rfl⟩ : ∃ fuel', fuel = fuel' + 1 := ⟨fuel - 1, by omega⟩
    rw [literalBits_cons, List.append_assoc, decodeSpec_code table (byte_lt_nsym b), if_neg b.isLt.ne,
      ih (by rw [List.length_append]; omega), BitVec.ofNat_toNat, BitVec.setWidth_eq, List.append_assoc]
    rfl

end Accept

/-! ### DECODE and ENCODE of a built codec -/

/-- A built codec has an image of its table, which is well formed, and the table as code ROM. -/
theorem built_codec {s : State} (h : Built s) : ∃ r, s.tb.rom = some r ∧ r.code = Memory.restrict Config.nsym s.table ∧ 0 < s.nlevels ∧
    WellFormedTable s.table ∧ WfRom r s.nlevels s.table := by
  obtain ⟨w, built, _, _, rom, nlevels⟩ := built_image h
  obtain ⟨h1, hm⟩ := levelsInRange_iff.1 h.1
  obtain ⟨table, _⟩ := (buildTable_ok_iff h1 hm).2 ⟨w, built⟩
  obtain ⟨_, positive, room⟩ := insertMany_emptyWork_keeps h1 (buildTable_ok built).2
  refine ⟨_, rom, rfl, ?_, table, builtImageIsWellFormed s _ h rom⟩
  rw [State.nlevels, nlevels, BitVec.toNat_ofNat]
  omega

theorem literalBits_restrict (t : CodeTable) (lit : List Byte) : literalBits (Memory.restrict Config.nsym t) lit = literalBits t lit := by
  induction lit with
  | nil => rfl
  | cons b lit ih =>
    rw [literalBits_cons, literalBits_cons, entryAt_restrict t (byte_lt_nsym b), ih]

/-- ENCODE of a built codec appends the encoding of the literal (R114). -/
theorem encodeWhole_appends_encoding {s : State} (h : Built s) :
    ∃ (e : Enc) (buf : List Byte), encodeWhole s = .next { s with enc := e, sink := s.sink ++ buf } ∧ e.cnt = buf.length ∧
      IsEncoding s.table (bufferBytes s.lit s.regs.argLen) buf := by
  obtain ⟨r, rom, code, _, ⟨valid, _⟩, _⟩ := built_codec h
  obtain ⟨t, buf, run, appends, count, bytes, bits, frame, _⟩ := encodeWritesCodesThenOnes s r rom (code ▸ validTable_restrict valid)
  rw [code, literalBits_restrict] at bytes bits
  rw [appends] at frame
  refine ⟨t.enc, buf, frame ▸ run, count, _, ?_, bits⟩
  rw [bytes, ceil8]
  omega

/-- DECODE of a built codec is the parse of the bits of the buffer (R98). -/
theorem decodeWhole_parses {s : State} (h : Built s) : ∃ t, decodeWhole s = .next t ∧
    let spec := decodeSpec s.table (8 * s.regs.argLen) (streamBits (bufferBytes s.ibuf s.regs.argLen)) []
    decodeOutcome t.dec = spec.1 ∧ t.out = s.out ++ spec.2 := by
  obtain ⟨r, rom, _, positive, table, wf⟩ := built_codec h
  obtain ⟨t, run, _, _, parse⟩ := decodeComputesDecodeSpec s r rom positive table wf
  rw [← streamBits_bufferBytes] at parse
  exact ⟨t, run, parse⟩

theorem decodeOutcome_eq_none_iff {d : Dec} : decodeOutcome d = none ↔ d.ok = true := by
  simp [decodeOutcome]

/-- A buffer that DECODE accepts is an encoding of the bytes appended. -/
theorem isEncoding_of_decodeWhole {s t : State} (run : decodeWhole s = .next t) (ok : t.dec.ok = true) (h : Built s) :
    ∃ lit, t.out = s.out ++ lit ∧ IsEncoding s.table lit (bufferBytes s.ibuf s.regs.argLen) := by
  obtain ⟨u, run', outcome, appends⟩ := decodeWhole_parses h
  cases run.symm.trans run'
  obtain ⟨lit, parsed, encodes⟩ := codesThenOnes_of_decodeSpec (outcome.symm.trans (decodeOutcome_eq_none_iff.2 ok))
  rw [parsed] at appends
  exact ⟨lit, appends, encodes⟩

/-- DECODE of an encoding succeeds with the literal, when no code is all padding. -/
theorem decodeWhole_of_isEncoding {s : State} (h : Built s) (safe : RoundTripSafe s.table) {lit : List Byte}
    (encodes : IsEncoding s.table lit (bufferBytes s.ibuf s.regs.argLen)) :
    ∃ t, decodeWhole s = .next t ∧ t.dec.ok = true ∧ t.out = s.out ++ lit := by
  obtain ⟨t, run, outcome, appends⟩ := decodeWhole_parses h
  have enough : (streamBits (bufferBytes s.ibuf s.regs.argLen)).length ≤ 8 * s.regs.argLen := by simp [bufferBytes]
  rw [decodeSpec_of_codesThenOnes safe encodes enough] at outcome appends
  exact ⟨t, run, decodeOutcome_eq_none_iff.1 outcome, appends⟩

/-! ### Round trip, canonical form, corruption, truncation (R125, R126, R131, R133) -/

/-- Settles O38: what ENCODE appends is an encoding of the literal, and the padding begins no code. -/
theorem decodeOfEncodeIsTheLiteral : Obligations.DecodeOfEncodeIsTheLiteral := by
  unfold Obligations.DecodeOfEncodeIsTheLiteral
  intro s built safe
  obtain ⟨e, buf, run, count, encodes⟩ := encodeWhole_appends_encoding built
  obtain ⟨v, decode, ok, decoded⟩ := decodeWhole_of_isEncoding (s := { s with
    enc := e, sink := s.sink ++ buf, ibuf := Memory.ofList unlistedByte buf, regs := { s.regs with argLen := buf.length } })
    built safe (bufferBytes_ofList buf ▸ encodes)
  refine ⟨_, v, run, ?_, ok, decoded⟩
  rw [List.drop_left, count]
  exact decode

/-- Settles O39: an accepted buffer is an encoding of what it decodes to, and so is what ENCODE appends. -/
theorem acceptedBuffersAreCanonical : Obligations.AcceptedBuffersAreCanonical := by
  unfold Obligations.AcceptedBuffersAreCanonical
  intro s t built run ok
  obtain ⟨lit, decoded, encodes⟩ := isEncoding_of_decodeWhole run ok built
  obtain ⟨bytes, writes, count⟩ := decodeAppendsWhatItCounts.2 s t run
  have out : t.out = s.out ++ bytes := by rw [writes]
  obtain rfl := List.append_cancel_left (decoded.symm.trans out)
  rw [out, List.drop_left, count]
  obtain ⟨e, buf, encode, _, encodes'⟩ := encodeWhole_appends_encoding (s := { s with
    lit := Memory.ofList unlistedByte lit, regs := { s.regs with argLen := lit.length } }) built
  rw [bufferBytes_ofList] at encodes'
  exact ⟨_, encode, congrArg (s.sink ++ ·) (encodes'.buffer_unique encodes)⟩

/-- Settles O40: a buffer decoded to the literal is an encoding of it, of which there is one. -/
theorem corruptedEncodingNeverDecodesToTheLiteral : Obligations.CorruptedEncodingNeverDecodesToTheLiteral := by
  unfold Obligations.CorruptedEncodingNeverDecodesToTheLiteral
  rintro s t v buf' built encode differs decode ⟨ok, same⟩
  obtain ⟨e, buf, run, _, encodes⟩ := encodeWhole_appends_encoding built
  cases run.symm.trans encode
  obtain ⟨lit, decoded, encodes'⟩ := isEncoding_of_decodeWhole decode ok built
  rw [bufferBytes_ofList, List.append_cancel_left (decoded.symm.trans same)] at encodes'
  rw [List.drop_left] at differs
  exact differs (encodes'.buffer_unique encodes)

/-- Settles O41: the codes of what is decoded begin those of the literal, and are fewer bits. -/
theorem truncatedEncodingDecodesToAProperPrefix : Obligations.TruncatedEncodingDecodesToAProperPrefix := by
  unfold Obligations.TruncatedEncodingDecodesToAProperPrefix
  intro s t v built encode count decode ok
  obtain ⟨e, buf, run, length, encodes⟩ := encodeWhole_appends_encoding built
  cases run.symm.trans encode
  obtain ⟨_, _, _, _, table, _⟩ := built_codec built
  obtain ⟨lit, decoded, encodes'⟩ := isEncoding_of_decodeWhole decode ok built
  have bytes : buf ≠ [] := by
    rintro rfl
    rw [length] at count
    cases count
  rw [List.drop_left, length, ← List.length_dropLast, bufferBytes_ofList] at encodes'
  obtain ⟨begins, proper⟩ := encodes.properPrefix_of_dropLast table bytes encodes'
  exact ⟨lit, begins, proper, decoded⟩

/-! ### What the operations read (R135) -/

/-- From `s` to `t` a buffer grows by the bytes that it grows by from `s'` to `t'`. -/
def GrowAlike (buffer : State → List Byte) (s t s' t' : State) : Prop := ∃ bs, buffer t = buffer s ++ bs ∧ buffer t' = buffer s' ++ bs

theorem GrowAlike.trans {buffer : State → List Byte} {s t u s' t' u' : State} (h : GrowAlike buffer s t s' t') (h' : GrowAlike buffer t u t' u') :
    GrowAlike buffer s u s' u' := by
  obtain ⟨bs, grow, grow'⟩ := h
  obtain ⟨cs, more, more'⟩ := h'
  exact ⟨bs ++ cs, by rw [more, grow, List.append_assoc], by rw [more', grow', List.append_assoc]⟩

theorem growAlike_of_eq {buffer : State → List Byte} {s t s' t' : State} (h : buffer t = buffer s) (h' : buffer t' = buffer s') :
    GrowAlike buffer s t s' t' := ⟨[], by rw [h, List.append_nil], by rw [h', List.append_nil]⟩

/-- All that a DEC.STEP reads is the same: the trie and its level count, the buffer, the decoder's registers. -/
structure SameWalk (s s' : State) : Prop where
  trie : ∃ r r', s.tb.rom = some r ∧ s'.tb.rom = some r' ∧ r.trie = r'.trie
  nlevels : s.nlevels = s'.nlevels
  ibuf : s.ibuf = s'.ibuf
  dec : s.dec = s'.dec

/-- The decoder goes from `s` to `t` and from `s'` to `t'` in the same way: to the same registers, with the same bytes appended to OUT. -/
def DecodeAlike (s t s' t' : State) : Prop := t.dec = t'.dec ∧ GrowAlike State.out s t s' t'

section Decode

variable {s s' t t' : State}

theorem DecodeAlike.trans {u u' : State} (h : DecodeAlike s t s' t') (h' : DecodeAlike t u t' u') : DecodeAlike s u s' u' :=
  ⟨h'.1, h.2.trans h'.2⟩

theorem SameWalk.key (same : SameWalk s s') : s.key = s'.key := by rw [State.key, State.key, same.ibuf, same.dec]

theorem decodeFailure_alike (dec : s.dec = s'.dec) (cause : DecodeCause) :
    DecodeAlike s (decodeFailure cause s) s' (decodeFailure cause s') :=
  ⟨by rw [decodeFailure_dec, decodeFailure_dec, dec], growAlike_of_eq rfl rfl⟩

theorem decodeSuccess_alike (dec : s.dec = s'.dec) : DecodeAlike s (decodeSuccess s) s' (decodeSuccess s') :=
  ⟨by rw [decodeSuccess_dec, decodeSuccess_dec, dec], growAlike_of_eq rfl rfl⟩

theorem endEffect_alike (dec : s.dec = s'.dec) : DecodeAlike s (endEffect s) s' (endEffect s') := by
  unfold endEffect
  rw [dec]
  split
  · exact decodeSuccess_alike dec
  · exact decodeFailure_alike dec _

theorem tailEffect_alike (same : SameWalk s s') : DecodeAlike s (tailEffect s) s' (tailEffect s') := by
  unfold tailEffect
  rw [same.key, same.dec]
  split
  · exact decodeSuccess_alike same.dec
  · split <;> exact decodeFailure_alike same.dec _

theorem nodeEffect_alike (same : SameWalk s s') (node : Node) : DecodeAlike s (nodeEffect node s) s' (nodeEffect node s') := by
  cases node with
  | invalid => exact decodeFailure_alike same.dec _
  | leaf sym bits =>
    rw [nodeEffect, nodeEffect, same.dec]
    split
    · split
      · exact decodeFailure_alike same.dec _
      · exact ⟨by rw [leafEffect_dec, leafEffect_dec, same.dec], [leafByte sym], rfl, rfl⟩
    · exact tailEffect_alike same
  | branch next =>
    rw [nodeEffect, nodeEffect, same.dec]
    split
    · exact ⟨by rw [branchEffect_dec, branchEffect_dec, same.dec], growAlike_of_eq rfl rfl⟩
    · exact tailEffect_alike same
  | empty =>
    rw [nodeEffect, nodeEffect, same.dec]
    split
    · exact tailEffect_alike same
    · exact decodeFailure_alike same.dec _

/-- A DEC.STEP reads nothing else, and writes none of it but the decoder's registers. -/
theorem execDecStep_alike (same : SameWalk s s') (step : execDecStep s = .next t) :
    ∃ t', execDecStep s' = .next t' ∧ DecodeAlike s t s' t' ∧ SameWalk t t' := by
  obtain ⟨r, r', rom, rom', trie⟩ := same.trie
  have ⟨t', step', alike⟩ : ∃ t', execDecStep s' = .next t' ∧ DecodeAlike s t s' t' := by
    obtain ⟨r₁, rom₁, ⟨h0, rfl⟩ | ⟨h0, level, rfl⟩⟩ := execDecStep_next step
    · exact ⟨_, execDecStep_endEffect rom' (same.dec ▸ h0), endEffect_alike same.dec⟩
    · cases rom.symm.trans rom₁
      have node : nodeAt r s = nodeAt r' s' := by rw [nodeAt, nodeAt, same.key, same.dec, same.nlevels, trie]
      rw [node]
      refine ⟨_, execDecStep_nodeEffect rom' (same.dec ▸ h0) ?_, nodeEffect_alike same _⟩
      rwa [← same.dec, ← same.nlevels]
  refine ⟨t', step', alike, ?_⟩
  have writes := execDecStep_writes step
  have writes' := execDecStep_writes step'
  exact ⟨⟨r, r', by rw [writes, rom], by rw [writes', rom'], trie⟩, by rw [writes, writes']; exact same.nlevels,
    by rw [writes, writes', same.ibuf], alike.1⟩

theorem decodeRun_alike {k : Nat} (same : SameWalk s s') (run : decodeRun k s = .next t) :
    ∃ t', decodeRun k s' = .next t' ∧ DecodeAlike s t s' t' := by
  induction k generalizing s s' with
  | zero =>
    cases run
    exact ⟨s', rfl, same.dec, growAlike_of_eq rfl rfl⟩
  | succ k ih =>
    obtain ⟨u, step, _⟩ := decodeRun_succ_next run
    obtain ⟨u', step', alike, same'⟩ := execDecStep_alike same step
    simp only [decodeRun_succ step, decodeRun_succ step', same'.dec] at run ⊢
    by_cases busy : u'.dec.busy = true
    · rw [if_pos busy] at run
      obtain ⟨t', run', alike'⟩ := ih same' run
      exact ⟨t', (if_pos busy).trans run', alike.trans alike'⟩
    · rw [if_neg busy] at run
      cases run
      exact ⟨u', if_neg busy, alike⟩

end Decode

/-- ENC.SYM reads the code ROM, the literal and the encoder's registers. -/
theorem symRun_alike {r r' : Rom} (code : r.code = r'.code) (k : Nat) {s s' : State} (lit : s.lit = s'.lit) (enc : s.enc = s'.enc) :
    (symRun r k s).enc = (symRun r' k s').enc ∧ GrowAlike State.sink s (symRun r k s) s' (symRun r' k s') := by
  induction k generalizing s s' with
  | zero => exact ⟨enc, growAlike_of_eq rfl rfl⟩
  | succ k ih =>
    have first : (symEffect r (readByte s.lit s.enc.idx) s).enc = (symEffect r' (readByte s'.lit s'.enc.idx) s').enc := by
      rw [symEffect_enc, symEffect_enc, code, lit, enc]
    obtain ⟨regs, grow⟩ := ih (s := symEffect r _ s) (s' := symEffect r' _ s') lit first
    refine ⟨regs, GrowAlike.trans ⟨_, rfl, ?_⟩ grow⟩
    rw [symEffect_sink, code, lit, enc]

theorem flushEffect_alike {s s' : State} (enc : s.enc = s'.enc) :
    (flushEffect s).enc = (flushEffect s').enc ∧ GrowAlike State.sink s (flushEffect s) s' (flushEffect s') := by
  refine ⟨by rw [flushEffect_enc, flushEffect_enc, enc], flushBytes s.enc, rfl, ?_⟩
  rw [flushEffect_sink, enc]

/-- Settles O42: a run of DEC.STEP or ENC.SYM goes the same way from states that share what a step reads; SIZE and GETCODE are one step. -/
theorem operationsDependOnTheirOperandsOnly : Obligations.OperationsDependOnTheirOperandsOnly := by
  unfold Obligations.OperationsDependOnTheirOperandsOnly
  refine ⟨fun s s' t r r' rom rom' trie nlevels ibuf len run => ?decode, fun s s' t r r' rom rom' code lit len run => ?encode,
    fun s s' t r r' rom rom' code idle => ⟨fun lit len run => ?size, fun byte run => ?getcode⟩⟩
  case decode =>
    have same : SameWalk (startDecode s) (startDecode s') :=
      ⟨⟨r, r', rom, rom', trie⟩, nlevels, ibuf, by rw [startDecode_dec, startDecode_dec, len]⟩
    obtain ⟨t', run', dec, bs, out, out'⟩ := decodeRun_alike same run
    rw [len] at run'
    exact ⟨t', bs, run', dec.symm, out, out'⟩
  case encode =>
    cases (withRom_some rom _).symm.trans run
    obtain ⟨enc, packed⟩ := symRun_alike code s.regs.argLen (s := startEncode s) (s' := startEncode s') lit
      (by rw [startEncode_enc, startEncode_enc, len])
    obtain ⟨enc', padded⟩ := flushEffect_alike enc
    obtain ⟨bs, sink, sink'⟩ := packed.trans padded
    refine ⟨_, bs, withRom_some rom' _, ?_, sink, ?_⟩
    · rw [← len, enc']
    · rw [← len]
      exact sink'
  case size =>
    obtain ⟨_, r₁, rom₁, rfl⟩ := encoderCommand_next run
    cases rom.symm.trans rom₁
    refine ⟨_, encoderCommand_idle rom' idle 3#3 sizeEffect, ?_⟩
    simp only [sizeEffect_res, setCmd_lit, setCmd_regs, code, lit, len, and_self]
  case getcode =>
    obtain ⟨_, r₁, rom₁, rfl⟩ := encoderCommand_next run
    cases rom.symm.trans rom₁
    refine ⟨_, encoderCommand_idle rom' idle 4#3 getcodeEffect, ?_⟩
    simp only [getcodeEffect_res, setCmd_regs, code, byte, and_self]

end Sys2Proof.Machine

/-! Proofs of the exception and ordering statements (spec/60_exceptions.md R141, R146, R152, R153, R160): what a failure writes, where commands do not
run, and that an idle machine holds its state while DEC and ENC do not affect each other. -/

namespace Sys2Proof.Machine

open Sys2Proof.Safety

/-! ### Failures and refusals -/

/-- Settles O26: of DEC.STEP's outcomes a success sets `dok`, a leaf and a branch leave `dbusy` set, and the failure is what the statement writes
out. -/
theorem failingStepWritesFlagsOnly : Obligations.FailingStepWritesFlagsOnly := by
  unfold Obligations.FailingStepWritesFlagsOnly
  intro s t run busy ended notOk
  rcases execDecStep_outcome run with rfl | ⟨cause, named, rfl⟩ | ⟨_, _, _, _, _, _, _, _, _, rfl⟩ | ⟨_, _, _, _, _, _, rfl⟩
  case inl => cases notOk
  case inr.inl => exact ⟨rfl, named⟩
  case inr.inr.inl => cases busy.symm.trans ended
  case inr.inr.inr => cases busy.symm.trans ended

/-- Every command first reaches for the ROM images (R146). -/
theorem exec_decodeC_withRom (op : BitVec 3) (s : State) : ∃ f, exec (decodeC op) s = withRom s f := by
  unfold decodeC
  split <;> exact ⟨_, rfl⟩

theorem decoderCommand_busy {s : State} {r : Rom} (hr : s.tb.rom = some r) (hb : s.dec.busy = true) (op : BitVec 3) (f : State → State) :
    decoderCommand op s f = .refused .unitBusy := by
  rw [decoderCommand, withRom_some hr, if_neg (not_decIdle hb)]

theorem encoderCommand_busy {s : State} {r : Rom} (hr : s.tb.rom = some r) (hb : s.enc.busy = true) (op : BitVec 3)
    (f : Rom → State → State) : encoderCommand op s f = .refused .unitBusy := by
  rw [encoderCommand, withRom_some hr, if_neg (not_encIdle hb)]

/-- Settles O13: a command is refused where it reaches for an image that is not there, or tests its unit and finds it busy. -/
theorem commandsNeedAnInstanceAndAnIdleUnit : Obligations.CommandsNeedAnInstanceAndAnIdleUnit := by
  unfold Obligations.CommandsNeedAnInstanceAndAnIdleUnit
  refine ⟨fun s noRom op => ?noInstance, fun s r rom busy => ?decBusy, fun s r rom busy => ?encBusy⟩
  case noInstance =>
    obtain ⟨f, command⟩ := exec_decodeC_withRom op s
    rw [command, withRom_none noRom]
  case decBusy => exact decoderCommand_busy rom busy 1#3 startDecode
  case encBusy =>
    exact ⟨encoderCommand_busy rom busy 2#3 _, encoderCommand_busy rom busy 3#3 sizeEffect, encoderCommand_busy rom busy 4#3 getcodeEffect⟩

/-! ### The idle machine -/

theorem turnResult_host_of_noMove {s : State} (h : s.host = []) : turnResult .host s = .next s := by
  simp only [turnResult, agentTurn, hostTurn, h]

/-- Settles O2: with no unit at work the turn is the host's, which has no move to make. -/
theorem idleMachineHoldsItsState : Obligations.IdleMachineHoldsItsState := by
  unfold Obligations.IdleMachineHoldsItsState
  intro s turns host dec enc work
  rw [step_unscheduled turns, defaultAgent_host dec enc work, turnResult_host_of_noMove host]

/-! ### DEC and ENC commute

DEC's step reads and writes neither the encoder's registers nor SINK, ENC's neither the decoder's registers nor OUT, and neither the schedule. -/

theorem core_run_two {s t u : State} (first : step s = .next t) (second : step t = .next u) : Sys2Proof.core.run 2 s = .next u := by
  rw [core_run_succ first, core_run_succ second, core_run_zero]

/-- A DEC.STEP goes the same way whatever the encoder's registers, SINK and the schedule hold, and leaves them as they are. -/
theorem execDecStep_frame {s t : State} (run : execDecStep s = .next t) (enc : Enc) (sink : List Byte) (ts : List Agent) :
    execDecStep { s with enc := enc, sink := sink, turns := ts } = .next { t with enc := enc, sink := sink, turns := ts } := by
  obtain ⟨r, rom, _⟩ := execDecStep_next run
  have same : SameWalk s { s with enc := enc, sink := sink, turns := ts } := ⟨⟨r, r, rom, rom, rfl⟩, rfl, rfl, rfl⟩
  obtain ⟨t', run', ⟨dec, _, grow, grow'⟩, _⟩ := execDecStep_alike same run
  have out : t'.out = t.out := grow'.trans grow.symm
  rw [run', execDecStep_writes run', execDecStep_writes run, ← dec, out]

theorem turnResult_dec_busy {s : State} (busy : s.dec.busy = true) : turnResult .dec s = execDecStep s := by
  rw [turnResult_dec, if_pos busy]

/-- DEC's scheduled step of a busy decoder. -/
theorem step_decScheduled {s t : State} (busy : s.dec.busy = true) (run : execDecStep s = .next t) (enc : Enc) (sink : List Byte)
    (ts : List Agent) :
    step { s with enc := enc, sink := sink, turns := .dec :: ts } = .next { t with enc := enc, sink := sink, turns := ts } := by
  rw [← execDecStep_frame run]
  exact turnResult_dec_busy (s := { s with enc := enc, sink := sink, turns := ts }) busy

/-- What ENC's turn does while ENCODE is in progress: ENC.SYM of the next literal byte, then ENC.FLUSH (R110). -/
def encoderEffect (r : Rom) (s : State) : State :=
  if s.enc.idx < s.enc.len then symEffect r (readByte s.lit s.enc.idx) s else flushEffect s

theorem encoderEffect_writes (r : Rom) (s : State) :
    encoderEffect r s = { s with enc := (encoderEffect r s).enc, sink := (encoderEffect r s).sink } := by
  unfold encoderEffect
  split <;> rfl

/-- ENC's step goes the same way whatever the decoder's registers, OUT and the schedule hold, and leaves them as they are. -/
theorem encoderEffect_frame (r : Rom) (s : State) (dec : Dec) (out : List Byte) (ts : List Agent) :
    encoderEffect r { s with dec := dec, out := out, turns := ts } = { encoderEffect r s with dec := dec, out := out, turns := ts } := by
  unfold encoderEffect
  split <;> rfl

theorem turnResult_enc_busy {s : State} {r : Rom} (rom : s.tb.rom = some r) (busy : s.enc.busy = true) :
    turnResult .enc s = .next (encoderEffect r s) := by
  rw [turnResult_enc rom, if_pos busy, encoderEffect]

/-- ENC's scheduled step of a busy encoder. -/
theorem step_encScheduled {s : State} {r : Rom} (rom : s.tb.rom = some r) (busy : s.enc.busy = true) (dec : Dec) (out : List Byte)
    (ts : List Agent) :
    step { s with dec := dec, out := out, turns := .enc :: ts } = .next { encoderEffect r s with dec := dec, out := out, turns := ts } := by
  rw [← encoderEffect_frame]
  exact turnResult_enc_busy (s := { s with dec := dec, out := out, turns := ts }) rom busy

/-- Settles O43: each unit's step writes its own registers and buffer, and writes the same there whether the other has moved or not. -/
theorem decoderAndEncoderStepsCommute : Obligations.DecoderAndEncoderStepsCommute := by
  unfold Obligations.DecoderAndEncoderStepsCommute
  intro s ts inv decBusy encBusy
  obtain ⟨t, run⟩ := turnDec_goesOn inv
  rw [turnResult_dec_busy decBusy] at run
  obtain ⟨r, rom, _⟩ := execDecStep_next run
  have decWrites := execDecStep_writes run
  refine ⟨{ encoderEffect r s with dec := t.dec, out := t.out, turns := ts }, ?decFirst, ?encFirst⟩
  case decFirst =>
    have first := step_decScheduled decBusy run s.enc s.sink (.enc :: ts)
    rw [decWrites] at first
    exact core_run_two first (step_encScheduled rom encBusy t.dec t.out ts)
  case encFirst =>
    have first := step_encScheduled rom encBusy s.dec s.out (.dec :: ts)
    have second := step_decScheduled decBusy run (encoderEffect r s).enc (encoderEffect r s).sink ts
    rw [encoderEffect_writes] at first ⊢
    rw [decWrites] at second
    exact core_run_two first second

end Sys2Proof.Machine
